-- ==== Sys2Proof/Word.lean ====
section
/-! DEFINITION. The two word types of QRCE: bytes of its memories and 32-bit registers (00_scope.md R7, R9). -/

namespace Sys2Proof

/-- A byte of a memory, a codeword, or an element of GF(256). -/
abbrev Byte := BitVec 8

/-- A register, a command word or the data of a bus transaction. -/
abbrev Word := BitVec 32

end Sys2Proof
end

