-- ==== Sys2Proof/Config.lean ====
section
/-! DEFINITION. What an implementation fixes (00_scope.md R6) and the free values of 93_implementation_defined.md.
The free values are opaque constants: nothing can evaluate one or prove a value of it, so a statement about a free value
holds for every value. The tables of R6 (CAP_ROM and the others) stand in Machine/Rom.lean and Machine/Mask.lean. -/

namespace Sys2Proof.Config

/-- R6: the smallest and the largest QR version. -/
def vMin : Nat := 1
def vMax : Nat := 40
/-- R6: the side of the largest symbol, and the row stride of MATRIX (R51). -/
def nMax : Nat := 177
/-- R6: sizes of the byte memories. -/
def msgBytes : Nat := 8192
def cwBytes : Nat := 4096
def genBytes : Nat := 32
/-- R6, R145: the largest ECW_BLK the engine accepts. -/
def eMax : Nat := 31

/-- U1, R61, R201: the byte at an address after the `n`-th power-on reset, until something writes it. -/
opaque powerOnByte (powerOn : Nat) (addr : Nat) : Byte

/-- U2, U3, R76, R204, R208: the `n`-th free byte, of a read during BUSY or of an abandoned write set. -/
opaque freeByte (n : Nat) : Byte

/-- U2, R76, R208: the `n`-th free word, of a register or PEN word read during BUSY, or of the rdata of a write
(log 23). -/
opaque freeWord (n : Nat) : Word

/-- U4, R206: whether the access that the reset pin cut short took effect. -/
opaque freeChoice (n : Nat) : Bool

/-- U6, R6, R213 (LATENCY): how many engine steps pass before the step that performs a command, or a stage of
ENCODE. LATENCY is one more than this, so any number from 1 up, and finite. -/
opaque extraSteps (w : Word) (n : Nat) : Nat

/-- R214: how many host steps the scheduler grants before the engine's next step. Any finite number, so every
interleaving is allowed and the engine is never kept waiting for ever. -/
opaque hostTurns (n : Nat) : Nat

end Sys2Proof.Config
end

