-- ==== Sys2Proof/Syntax.lean ====
section
/-! DEFINITION. The commands of QRCE, one constructor per row of spec/opcode_table.json (30_encoding.md R85, R90). -/

namespace Sys2Proof

/-- A command. `mapplyM` and `fmtgenM` carry the explicit mask index of ARG[2:0] (R84). -/
inductive Instr where
  /-- NOP, 0x00 (R103). -/
  | nop
  /-- CFG, 0x01 (R104). -/
  | cfg
  /-- BITENC, 0x02 (R111). -/
  | bitenc
  /-- RSENC, 0x03 (R146). -/
  | rsenc
  /-- ILEAVE, 0x04 (R153). -/
  | ileave
  /-- ENCODE, 0x05 (R107). -/
  | encode
  /-- MEVAL, 0x10 (R163). -/
  | meval
  /-- MAPPLY m, 0x11 with BEST = 0 (R173). -/
  | mapplyM (mask : Nat)
  /-- MAPPLY BEST, 0x11 with BEST = 1 (R173, R174). -/
  | mapplyBest
  /-- FMTGEN m, 0x12 with BEST = 0 (R176). -/
  | fmtgenM (mask : Nat)
  /-- FMTGEN BEST, 0x12 with BEST = 1 (R176, R177). -/
  | fmtgenBest
  /-- GFMUL, 0x20 (R138). -/
  | gfmul
deriving DecidableEq, Repr

end Sys2Proof
end

