-- ==== Sys2Proof/WellFormed.lean ====
section
/-! DEFINITION. Which commands can be written at all: R91 allows a mask index 0 to 7 and nothing else ("An assembler
rejects any other operand"), which is what the three bits of ARG[2:0] hold (R84). -/

namespace Sys2Proof

/-- The check on an explicit mask operand (R84, R91). -/
def maskOk (mask : Nat) : Bool := decide (mask < 8)

/-- Whether a command has a word of R90. -/
def Instr.wellFormed : Instr → Bool
  | .nop => true
  | .cfg => true
  | .bitenc => true
  | .rsenc => true
  | .ileave => true
  | .encode => true
  | .meval => true
  | .mapplyM m => maskOk m
  | .mapplyBest => true
  | .fmtgenM m => maskOk m
  | .fmtgenBest => true
  | .gfmul => true

/-- Well-formedness as a proposition. -/
abbrev Instr.WellFormed (i : Instr) : Prop := i.wellFormed = true

end Sys2Proof
end

