-- ==== Sys2Proof/Decode.lean ====
section
/-! DEFINITION. The command word (30_encoding.md R83-R90): its fields, the decoder `legal(w)` of R86, total on every
32-bit word and rejecting by name, and after it the encoder. -/

namespace Sys2Proof

/-- The ten opcodes of R85. -/
inductive Opcode where
  | nop | cfg | bitenc | rsenc | ileave | encode | meval | mapply | fmtgen | gfmul
deriving DecidableEq, Repr

/-- Why a word is illegal: the four checks of R86, in their order. -/
inductive Illegal where
  /-- Detail 1: OP is not an assigned opcode (R87). -/
  | unknownOpcode
  /-- Detail 2: RSVD is not 0 (R88). -/
  | reservedBits
  /-- Detail 3: ARG is not 0 on an opcode that takes none (R88). -/
  | unexpectedArg
  /-- Detail 4: BEST = 1 with MASK not 0 (R88). -/
  | bestWithMask
deriving DecidableEq, Repr

/-- The detail each failed check reports (R86, R182). -/
def Illegal.detail : Illegal → Byte
  | .unknownOpcode => 1
  | .reservedBits => 2
  | .unexpectedArg => 3
  | .bestWithMask => 4

/-- R85: the opcode map. -/
def Opcode.code : Opcode → Byte
  | .nop => 0x00
  | .cfg => 0x01
  | .bitenc => 0x02
  | .rsenc => 0x03
  | .ileave => 0x04
  | .encode => 0x05
  | .meval => 0x10
  | .mapply => 0x11
  | .fmtgen => 0x12
  | .gfmul => 0x20

/-- R85, R87: the opcode a byte stands for; every other byte is reserved. -/
def Opcode.ofCode (b : Byte) : Option Opcode :=
  match b.toNat with
  | 0x00 => some .nop
  | 0x01 => some .cfg
  | 0x02 => some .bitenc
  | 0x03 => some .rsenc
  | 0x04 => some .ileave
  | 0x05 => some .encode
  | 0x10 => some .meval
  | 0x11 => some .mapply
  | 0x12 => some .fmtgen
  | 0x20 => some .gfmul
  | _ => none

/-- R83: OP, bits 7:0. -/
def opField (w : Word) : Byte := w.extractLsb' 0 8
/-- R83: ARG, bits 11:8. -/
def argField (w : Word) : BitVec 4 := w.extractLsb' 8 4
/-- R83: RSVD, bits 31:12. -/
def rsvdField (w : Word) : BitVec 20 := w.extractLsb' 12 20
/-- R84: ARG[2:0] = MASK. -/
def argMask (w : Word) : BitVec 3 := w.extractLsb' 8 3
/-- R84: ARG[3] = BEST. -/
def argBest (w : Word) : Bool := w.getLsbD 11

/-- R86, third check: the opcode takes no argument. -/
def noArgument (w : Word) (i : Instr) : Except Illegal Instr :=
  if argField w = 0 then .ok i else .error .unexpectedArg

/-- R84 and R86, fourth check: the explicit form or the BEST form. -/
def maskArgument (w : Word) (explicit : Nat → Instr) (best : Instr) : Except Illegal Instr :=
  if argBest w then
    if argMask w = 0 then .ok best else .error .bestWithMask
  else .ok (explicit (argMask w).toNat)

/-- The command of an assigned opcode, once RSVD is known to be 0. -/
def decodeArg (w : Word) : Opcode → Except Illegal Instr
  | .nop => noArgument w .nop
  | .cfg => noArgument w .cfg
  | .bitenc => noArgument w .bitenc
  | .rsenc => noArgument w .rsenc
  | .ileave => noArgument w .ileave
  | .encode => noArgument w .encode
  | .meval => noArgument w .meval
  | .mapply => maskArgument w .mapplyM .mapplyBest
  | .fmtgen => maskArgument w .fmtgenM .fmtgenBest
  | .gfmul => noArgument w .gfmul

/-- `legal(w)` of R86: the command a word stands for, or the first check it fails. -/
def decode (w : Word) : Except Illegal Instr :=
  match Opcode.ofCode (opField w) with
  | none => .error .unknownOpcode
  | some op => if rsvdField w = 0 then decodeArg w op else .error .reservedBits

/-- The opcode of a command (R85). -/
def Instr.opcode : Instr → Opcode
  | .nop => .nop
  | .cfg => .cfg
  | .bitenc => .bitenc
  | .rsenc => .rsenc
  | .ileave => .ileave
  | .encode => .encode
  | .meval => .meval
  | .mapplyM _ => .mapply
  | .mapplyBest => .mapply
  | .fmtgenM _ => .fmtgen
  | .fmtgenBest => .fmtgen
  | .gfmul => .gfmul

/-- The ARG field of a command (R84): BEST in bit 3, MASK in bits 2:0. -/
def Instr.arg : Instr → BitVec 4
  | .nop => 0
  | .cfg => 0
  | .bitenc => 0
  | .rsenc => 0
  | .ileave => 0
  | .encode => 0
  | .meval => 0
  | .mapplyM m => BitVec.ofNat 4 m
  | .mapplyBest => 8
  | .fmtgenM m => BitVec.ofNat 4 m
  | .fmtgenBest => 8
  | .gfmul => 0

/-- R90: the word of a well-formed command: RSVD = 0, ARG, OP. -/
def encode (i : Instr) : Word := (0 : BitVec 20) ++ i.arg ++ i.opcode.code

/-- The command the decoder reads from a word of the opcode table: bit 0 is the least significant bit of CMD, and the
bits above `nbits` are 0. -/
def decodeTableWord (nbits w : Nat) : Option Instr :=
  match decode (BitVec.ofNat 32 (w % 2 ^ nbits)) with
  | .ok i => some i
  | .error _ => none

end Sys2Proof
end

