-- ==== Sys2Proof/Machine/State.lean ====
section
/-! DEFINITION. The state of QRCE as plain data (10_state.md R19-R62), what can stop a step, and the state after reset
(70_reset_and_hazards.md R201, R202). Every register is held by its fields; reserved bits are not stored, since they read
0 and ignore writes (R20). -/

namespace Sys2Proof.Machine

/-- STATUS, bits 1 to 5 (R23). Bit 0, BUSY, is computed from ENG (R59). -/
structure Status where
  done : Bool
  err : Bool
  ovf : Bool
  rej : Bool
  fatal : Bool
deriving DecidableEq, Repr

/-- IE, bits 1 and 2 (R24). -/
structure IrqEnable where
  doneIe : Bool
  errIe : Bool
deriving DecidableEq, Repr

/-- ERR_CODE: CODE in bits 3:0, OP in bits 15:8 (R26). -/
structure ErrCode where
  code : BitVec 4
  op : Byte
deriving DecidableEq, Repr

/-- ERR_INFO: POS in bits 15:0, CHR in bits 23:16, DETAIL in bits 31:24 (R27). -/
structure ErrInfo where
  pos : BitVec 16
  chr : Byte
  detail : Byte
deriving DecidableEq, Repr

/-- VALID, bits 0 to 6 (R28); also a set of such bits, as the clear and set columns of R28 and R99. -/
structure Valid where
  cfg : Bool := false
  data : Bool := false
  ecc : Bool := false
  seq : Bool := false
  mask : Bool := false
  fmt : Bool := false
  gf : Bool := false
deriving DecidableEq, Repr

/-- CONFIG: VERSION in bits 5:0, MODE in bits 9:8, ECLEVEL in bits 14:12 (R29). -/
structure ConfigReg where
  version : BitVec 6
  mode : BitVec 2
  ecLevel : BitVec 3
deriving DecidableEq, Repr

/-- BLK_G1 or BLK_G2: COUNT in bits 7:0, DCW in bits 15:8 (R32, R33). -/
structure BlkGroup where
  count : Byte
  dcw : Byte
deriving DecidableEq, Repr

/-- The six layout registers (R16, R31-R36). -/
structure Layout where
  dcwTotal : BitVec 12
  g1 : BlkGroup
  g2 : BlkGroup
  ecwBlk : Byte
  remBits : BitVec 3
  cciWidth : BitVec 5
deriving DecidableEq, Repr

/-- One record of PEN (R45). -/
structure PenRecord where
  p1 : Word := 0
  p2 : Word := 0
  p3 : Word := 0
  p4 : Word := 0
  total : Word := 0
deriving DecidableEq, Repr

/-- GF_OP: A in bits 7:0, B in bits 15:8 (R44). -/
structure GfOp where
  a : Byte
  b : Byte
deriving DecidableEq, Repr

/-- The stages of ENCODE, in their order (R59, R107). -/
inductive Stage where
  | cfg | bitenc | rsenc | ileave
deriving DecidableEq, Repr

/-- ENG (R59): idle, or running the accepted word, with the current stage when the word is ENCODE's. -/
inductive Engine where
  | idle
  | running (w : Word) (stage : Option Stage)
deriving DecidableEq, Repr

/-- The width of a bus transaction, 1, 2 or 4 bytes (R63). -/
inductive Size where
  | one | two | four
deriving DecidableEq, Repr

/-- One bus transaction of the host (R63). -/
inductive Access where
  | read (addr : BitVec 16) (size : Size)
  | write (addr : BitVec 16) (size : Size) (data : Word)
deriving DecidableEq, Repr

/-- The response code of a transaction (R63). -/
inductive Resp where
  | okay | error
deriving DecidableEq, Repr

/-- What a transaction answers (R63, R72). -/
structure BusResponse where
  resp : Resp
  rdata : Word
deriving DecidableEq, Repr

/-- What the outside world does next (R63). -/
inductive HostAct where
  /-- One bus transaction. -/
  | access (a : Access)
  /-- `WAIT` of R93: read STATUS again and again until BUSY = 0. -/
  | wait
  /-- A pulse of rst_n: power-on reset (R201). -/
  | powerOn
  /-- rst_n falls while an access is in progress (R206). -/
  | powerOnDuring (a : Access)
deriving DecidableEq, Repr

/-- The 25 registers of the window 0x0000-0x0063, in the order of their offsets (R21-R44). -/
inductive Reg where
  | id | ctrl | status | ie | cmd | errCode | errInfo | valid | config | msgLen | dcwTotal | blkG1 | blkG2 | ecwBlk
  | remBits | cciWidth | ecwTotal | statBits | seqLen | seqBits | best | fmtWord | verWord | gfOp | gfRes
deriving DecidableEq, Repr

/-- The windows of the address map (R64). -/
inductive Window where
  | regs | pen | exp | log | gen | msg | data | ecc | seq | matrix | unmapped
deriving DecidableEq, Repr

/-- The error classes of R181 a command can raise. -/
inductive ErrorClass where
  | invalidParameter | invalidCharacter | capacity | internalConsistency | illegalCommand
deriving DecidableEq, Repr

/-- The operands of `raise` (R11): `pos` and `chr` are 0 when not given. -/
structure CmdError where
  cls : ErrorClass
  detail : Byte
  pos : BitVec 16 := 0
  chr : Byte := 0
deriving DecidableEq, Repr

/-- One module of MATRIX (R51). -/
structure Module where
  dark : Bool
  rsv : Bool
deriving DecidableEq, Repr

/-- One row of CAP_ROM (R52). -/
structure CapRow where
  dcw : Nat
  g1Count : Nat
  g1Dcw : Nat
  g2Count : Nat
  g2Dcw : Nat
  e : Nat
deriving DecidableEq, Repr

/-- The bytes something has written since power-on: (bus address, byte) pairs in rising order of the address. A byte that
is not listed is unspecified (R61, R62); see `State.byteAt` for what it reads as. -/
abbrev Memory := List Host.Cell

/-- The machine. -/
structure State where
  /-- STATUS, R23. -/
  status : Status
  /-- IE, R24. -/
  ie : IrqEnable
  /-- CMD, R25. -/
  cmd : Word
  /-- ERR_CODE, R26. -/
  errCode : ErrCode
  /-- ERR_INFO, R27. -/
  errInfo : ErrInfo
  /-- VALID, R28. -/
  valid : Valid
  /-- CONFIG, R29. -/
  config : ConfigReg
  /-- MSG_LEN, R30. -/
  msgLen : BitVec 14
  /-- DCW_TOTAL, BLK_G1, BLK_G2, ECW_BLK, REM_BITS, CCI_WIDTH, R31-R36. -/
  layout : Layout
  /-- STAT_BITS, R38. -/
  statBits : BitVec 16
  /-- SEQ_LEN, R39. -/
  seqLen : BitVec 13
  /-- SEQ_BITS, R40. -/
  seqBits : BitVec 16
  /-- BEST, R41. -/
  best : BitVec 3
  /-- FMT_WORD, R42. -/
  fmtWord : BitVec 15
  /-- VER_WORD, R43. -/
  verWord : BitVec 18
  /-- GF_OP, R44. -/
  gfOp : GfOp
  /-- GF_RES, R44. -/
  gfRes : Byte
  /-- PEN, R45. -/
  pen : Vector PenRecord 8
  /-- GEN, MSG, DATA, ECC, SEQ and MATRIX, R46-R51, at their bus addresses (R64). -/
  mem : Memory
  /-- ENG, R59. -/
  eng : Engine
  /-- The model's: engine steps before the one that performs the command or stage (LATENCY, log 3). -/
  stepsLeft : Nat
  /-- The model's: host steps the scheduler still grants before the next engine step (log 2). -/
  hostTurns : Nat
  /-- The engine's working copy (R60) of the layout that ENCODE's stage CFG has loaded: the later stages work with it, and
  the layout registers take it when ENCODE ends (R77 (b), (d), log 8). -/
  encodeLayout : Layout
  /-- The model's: free values drawn so far (log 13). -/
  draws : Nat
  /-- The model's: power-on resets so far; picks the free contents of the memories (log 4). -/
  powerOns : Nat
  /-- The model's: what the outside world does next, oldest first (log 1). -/
  inbox : List HostAct
  /-- The model's: the response of the latest bus transaction (log 1). -/
  resp : Option BusResponse
deriving DecidableEq, Repr

/-- Why the machine could stop with a fault: nothing does. Every command completes or records an error (R193, R214), and
every access to an address that does not exist is answered with the bus response ERROR (R71, R72). Safe: no run ends
early (log 14). -/
inductive Fault
deriving DecidableEq, Repr

/-- Why a step could have no meaning. -/
inductive Refusal where
  /-- Raised by an arm of `exec` for a command that has no meaning yet; no arm raises it (log 14). Safe. -/
  | notModelled (mnemonic : String)
deriving DecidableEq, Repr

/-- R202: the value of CONFIG after reset, 0x0000_7300, all three fields illegal. -/
def ConfigReg.reset : ConfigReg := ⟨0, 3, 7⟩

/-- The layout registers after reset (R202). -/
def Layout.reset : Layout := ⟨0, ⟨0, 0⟩, ⟨0, 0⟩, 0, 0, 0⟩

/-- The machine right after power-on reset (R201, R202): every register at its reset value, ENG idle, and no byte of
memory specified. -/
def State.reset : State where
  status := ⟨false, false, false, false, false⟩
  ie := ⟨false, false⟩
  cmd := 0
  errCode := ⟨0, 0⟩
  errInfo := ⟨0, 0, 0⟩
  valid := {}
  config := ConfigReg.reset
  msgLen := 0
  layout := Layout.reset
  statBits := 0
  seqLen := 0
  seqBits := 0
  best := 0
  fmtWord := 0
  verWord := 0
  gfOp := ⟨0, 0⟩
  gfRes := 0
  pen := #v[{}, {}, {}, {}, {}, {}, {}, {}]
  mem := []
  eng := .idle
  stepsLeft := 0
  hostTurns := 0
  encodeLayout := Layout.reset
  draws := 0
  powerOns := 0
  inbox := []
  resp := none

end Sys2Proof.Machine
end

