-- ==== Sys2Proof/Machine/Flags.lean ====
section
/-! DEFINITION. Every flag computation of the spec: the VALID bits that host writes and commands clear and set (10_state.md
R28, 40_control.md R99), STATUS and its W1C bits (R23, 60_exceptions.md R188), and the irq level (R190). -/

namespace Sys2Proof.Machine

/-- `v & ~c`. -/
def Valid.minus (v c : Valid) : Valid where
  cfg := v.cfg && !c.cfg
  data := v.data && !c.data
  ecc := v.ecc && !c.ecc
  seq := v.seq && !c.seq
  mask := v.mask && !c.mask
  fmt := v.fmt && !c.fmt
  gf := v.gf && !c.gf

/-- `v | c`. -/
def Valid.plus (v c : Valid) : Valid where
  cfg := v.cfg || c.cfg
  data := v.data || c.data
  ecc := v.ecc || c.ecc
  seq := v.seq || c.seq
  mask := v.mask || c.mask
  fmt := v.fmt || c.fmt
  gf := v.gf || c.gf

/-- `clear(op)` of R99. -/
def clearSet : Opcode → Valid
  | .nop => {}
  | .cfg => { cfg := true, data := true, ecc := true, seq := true }
  | .bitenc => { data := true, ecc := true, seq := true }
  | .rsenc => { ecc := true, seq := true }
  | .ileave => { seq := true }
  | .encode => { cfg := true, data := true, ecc := true, seq := true }
  | .meval => { mask := true }
  | .mapply => { mask := true }
  | .fmtgen => { fmt := true }
  | .gfmul => { gf := true }

/-- `set(op)` of R99, for a success. -/
def setSet : Opcode → Valid
  | .nop => {}
  | .cfg => { cfg := true }
  | .bitenc => { data := true }
  | .rsenc => { ecc := true }
  | .ileave => { seq := true }
  | .encode => { cfg := true, data := true, ecc := true, seq := true }
  | .meval => { mask := true }
  | .mapply => {}
  | .fmtgen => { fmt := true }
  | .gfmul => { gf := true }

/-- R99, for ENCODE: the bits of the stages that come before a stage, which have succeeded when it runs. -/
def Stage.earlierSet : Stage → Valid
  | .cfg => {}
  | .bitenc => { cfg := true }
  | .rsenc => { cfg := true, data := true }
  | .ileave => { cfg := true, data := true, ecc := true }

/-- The opcode a failing stage reports (R107, R184). -/
def Stage.opcode : Stage → Opcode
  | .cfg => .cfg
  | .bitenc => .bitenc
  | .rsenc => .rsenc
  | .ileave => .ileave

/-- The stage order of ENCODE (R107). -/
def Stage.next : Stage → Option Stage
  | .cfg => some .bitenc
  | .bitenc => some .rsenc
  | .rsenc => some .ileave
  | .ileave => none

/-- R28: what an accepted host write to a register clears. -/
def Reg.hostClears : Reg → Valid
  | .config => { cfg := true, data := true, ecc := true, seq := true, mask := true, fmt := true }
  | .dcwTotal => { cfg := true, data := true, ecc := true, seq := true }
  | .blkG1 => { cfg := true, data := true, ecc := true, seq := true }
  | .blkG2 => { cfg := true, data := true, ecc := true, seq := true }
  | .ecwBlk => { cfg := true, data := true, ecc := true, seq := true }
  | .remBits => { cfg := true, data := true, ecc := true, seq := true }
  | .cciWidth => { cfg := true, data := true, ecc := true, seq := true }
  | .msgLen => { data := true, ecc := true, seq := true }
  | .gfOp => { gf := true }
  | .id | .ctrl | .status | .ie | .cmd | .errCode | .errInfo | .valid | .ecwTotal | .statBits | .seqLen | .seqBits
  | .best | .fmtWord | .verWord | .gfRes => {}

/-- R28: what an accepted host write to a byte of a memory window clears; R73: nothing for the read-only windows. -/
def Window.hostClears : Window → Valid
  | .msg => { data := true, ecc := true, seq := true }
  | .data => { data := true, ecc := true, seq := true }
  | .ecc => { ecc := true, seq := true }
  | .seq => { seq := true }
  | .matrix => { mask := true }
  | .regs | .pen | .exp | .log | .gen | .unmapped => {}

/-- The code of an error class (R181). -/
def ErrorClass.code : ErrorClass → BitVec 4
  | .invalidParameter => 1
  | .invalidCharacter => 2
  | .capacity => 3
  | .internalConsistency => 4
  | .illegalCommand => 5

/-- STATUS.BUSY (R23, R59): 1 exactly when ENG is not Idle. -/
def State.busy (s : State) : Bool :=
  match s.eng with
  | .idle => false
  | .running _ _ => true

/-- R188: a host write of `v` to STATUS clears DONE, ERR, OVF and REJ where `v` has a 1; FATAL ignores writes. -/
def Status.writeOneToClear (st : Status) (v : Word) : Status where
  done := st.done && !v.getLsbD 1
  err := st.err && !v.getLsbD 2
  ovf := st.ovf && !v.getLsbD 3
  rej := st.rej && !v.getLsbD 4
  fatal := st.fatal

/-- R184: the STATUS effects of recording an error of a class. -/
def Status.recordError (st : Status) (cls : ErrorClass) : Status where
  done := st.done
  err := true
  ovf := st.ovf || st.err
  rej := st.rej
  fatal := st.fatal || cls == .internalConsistency

/-- R190: the irq output. -/
def State.irq (s : State) : Bool := (s.status.done && s.ie.doneIe) || (s.status.err && s.ie.errIe)

/-- The word with the given bits, the first one bit 0. -/
def wordOfBits : List Bool → Word
  | [] => 0
  | b :: rest => (wordOfBits rest <<< 1) ||| (if b then 1 else 0)

/-- STATUS as read (R23). -/
def State.statusWord (s : State) : Word :=
  wordOfBits [s.busy, s.status.done, s.status.err, s.status.ovf, s.status.rej, s.status.fatal]

/-- IE as read (R24). -/
def IrqEnable.word (ie : IrqEnable) : Word := wordOfBits [false, ie.doneIe, ie.errIe]

/-- IE after a host write of `v` (R24). -/
def IrqEnable.ofWord (v : Word) : IrqEnable := ⟨v.getLsbD 1, v.getLsbD 2⟩

/-- VALID as read (R28). -/
def Valid.word (v : Valid) : Word := wordOfBits [v.cfg, v.data, v.ecc, v.seq, v.mask, v.fmt, v.gf]

end Sys2Proof.Machine
end

