-- ==== Sys2Proof/Machine/Rom.lean ====
section
/-! DEFINITION. The read-only tables (10_state.md R52-R58, 42_gf256.md R131, R132). CAP_ROM, REM_ROM, CCI_ROM, MODE_IND
and EC_IND are parameters of the machine (R6); the model takes the defaults the spec gives (log 9). -/

namespace Sys2Proof.Machine

/-- R52: versions 1 to 4, each at levels L, M, Q, H. -/
def capRows1 : List CapRow := [
  ⟨19, 1, 19, 0, 0, 7⟩, ⟨16, 1, 16, 0, 0, 10⟩, ⟨13, 1, 13, 0, 0, 13⟩, ⟨9, 1, 9, 0, 0, 17⟩,
  ⟨34, 1, 34, 0, 0, 10⟩, ⟨28, 1, 28, 0, 0, 16⟩, ⟨22, 1, 22, 0, 0, 22⟩, ⟨16, 1, 16, 0, 0, 28⟩,
  ⟨55, 1, 55, 0, 0, 15⟩, ⟨44, 1, 44, 0, 0, 26⟩, ⟨34, 2, 17, 0, 0, 18⟩, ⟨26, 2, 13, 0, 0, 22⟩,
  ⟨80, 1, 80, 0, 0, 20⟩, ⟨64, 2, 32, 0, 0, 18⟩, ⟨48, 2, 24, 0, 0, 26⟩, ⟨36, 4, 9, 0, 0, 16⟩]

/-- R52: versions 5 to 8, each at levels L, M, Q, H. -/
def capRows5 : List CapRow := [
  ⟨108, 1, 108, 0, 0, 26⟩, ⟨86, 2, 43, 0, 0, 24⟩, ⟨62, 2, 15, 2, 16, 18⟩, ⟨46, 2, 11, 2, 12, 22⟩,
  ⟨136, 2, 68, 0, 0, 18⟩, ⟨108, 4, 27, 0, 0, 16⟩, ⟨76, 4, 19, 0, 0, 24⟩, ⟨60, 4, 15, 0, 0, 28⟩,
  ⟨156, 2, 78, 0, 0, 20⟩, ⟨124, 4, 31, 0, 0, 18⟩, ⟨88, 2, 14, 4, 15, 18⟩, ⟨66, 4, 13, 1, 14, 26⟩,
  ⟨194, 2, 97, 0, 0, 24⟩, ⟨154, 2, 38, 2, 39, 22⟩, ⟨110, 4, 18, 2, 19, 22⟩, ⟨86, 4, 14, 2, 15, 26⟩]

/-- R52: versions 9 to 12, each at levels L, M, Q, H. -/
def capRows9 : List CapRow := [
  ⟨232, 2, 116, 0, 0, 30⟩, ⟨182, 3, 36, 2, 37, 22⟩, ⟨132, 4, 16, 4, 17, 20⟩, ⟨100, 4, 12, 4, 13, 24⟩,
  ⟨274, 2, 68, 2, 69, 18⟩, ⟨216, 4, 43, 1, 44, 26⟩, ⟨154, 6, 19, 2, 20, 24⟩, ⟨122, 6, 15, 2, 16, 28⟩,
  ⟨324, 4, 81, 0, 0, 20⟩, ⟨254, 1, 50, 4, 51, 30⟩, ⟨180, 4, 22, 4, 23, 28⟩, ⟨140, 3, 12, 8, 13, 24⟩,
  ⟨370, 2, 92, 2, 93, 24⟩, ⟨290, 6, 36, 2, 37, 22⟩, ⟨206, 4, 20, 6, 21, 26⟩, ⟨158, 7, 14, 4, 15, 28⟩]

/-- R52: versions 13 to 16, each at levels L, M, Q, H. -/
def capRows13 : List CapRow := [
  ⟨428, 4, 107, 0, 0, 26⟩, ⟨334, 8, 37, 1, 38, 22⟩, ⟨244, 8, 20, 4, 21, 24⟩, ⟨180, 12, 11, 4, 12, 22⟩,
  ⟨461, 3, 115, 1, 116, 30⟩, ⟨365, 4, 40, 5, 41, 24⟩, ⟨261, 11, 16, 5, 17, 20⟩, ⟨197, 11, 12, 5, 13, 24⟩,
  ⟨523, 5, 87, 1, 88, 22⟩, ⟨415, 5, 41, 5, 42, 24⟩, ⟨295, 5, 24, 7, 25, 30⟩, ⟨223, 11, 12, 7, 13, 24⟩,
  ⟨589, 5, 98, 1, 99, 24⟩, ⟨453, 7, 45, 3, 46, 28⟩, ⟨325, 15, 19, 2, 20, 24⟩, ⟨253, 3, 15, 13, 16, 30⟩]

/-- R52: versions 17 to 20, each at levels L, M, Q, H. -/
def capRows17 : List CapRow := [
  ⟨647, 1, 107, 5, 108, 28⟩, ⟨507, 10, 46, 1, 47, 28⟩, ⟨367, 1, 22, 15, 23, 28⟩, ⟨283, 2, 14, 17, 15, 28⟩,
  ⟨721, 5, 120, 1, 121, 30⟩, ⟨563, 9, 43, 4, 44, 26⟩, ⟨397, 17, 22, 1, 23, 28⟩, ⟨313, 2, 14, 19, 15, 28⟩,
  ⟨795, 3, 113, 4, 114, 28⟩, ⟨627, 3, 44, 11, 45, 26⟩, ⟨445, 17, 21, 4, 22, 26⟩, ⟨341, 9, 13, 16, 14, 26⟩,
  ⟨861, 3, 107, 5, 108, 28⟩, ⟨669, 3, 41, 13, 42, 26⟩, ⟨485, 15, 24, 5, 25, 30⟩, ⟨385, 15, 15, 10, 16, 28⟩]

/-- R52: versions 21 to 24, each at levels L, M, Q, H. -/
def capRows21 : List CapRow := [
  ⟨932, 4, 116, 4, 117, 28⟩, ⟨714, 17, 42, 0, 0, 26⟩, ⟨512, 17, 22, 6, 23, 28⟩, ⟨406, 19, 16, 6, 17, 30⟩,
  ⟨1006, 2, 111, 7, 112, 28⟩, ⟨782, 17, 46, 0, 0, 28⟩, ⟨568, 7, 24, 16, 25, 30⟩, ⟨442, 34, 13, 0, 0, 24⟩,
  ⟨1094, 4, 121, 5, 122, 30⟩, ⟨860, 4, 47, 14, 48, 28⟩, ⟨614, 11, 24, 14, 25, 30⟩, ⟨464, 16, 15, 14, 16, 30⟩,
  ⟨1174, 6, 117, 4, 118, 30⟩, ⟨914, 6, 45, 14, 46, 28⟩, ⟨664, 11, 24, 16, 25, 30⟩, ⟨514, 30, 16, 2, 17, 30⟩]

/-- R52: versions 25 to 28, each at levels L, M, Q, H. -/
def capRows25 : List CapRow := [
  ⟨1276, 8, 106, 4, 107, 26⟩, ⟨1000, 8, 47, 13, 48, 28⟩, ⟨718, 7, 24, 22, 25, 30⟩, ⟨538, 22, 15, 13, 16, 30⟩,
  ⟨1370, 10, 114, 2, 115, 28⟩, ⟨1062, 19, 46, 4, 47, 28⟩, ⟨754, 28, 22, 6, 23, 28⟩, ⟨596, 33, 16, 4, 17, 30⟩,
  ⟨1468, 8, 122, 4, 123, 30⟩, ⟨1128, 22, 45, 3, 46, 28⟩, ⟨808, 8, 23, 26, 24, 30⟩, ⟨628, 12, 15, 28, 16, 30⟩,
  ⟨1531, 3, 117, 10, 118, 30⟩, ⟨1193, 3, 45, 23, 46, 28⟩, ⟨871, 4, 24, 31, 25, 30⟩, ⟨661, 11, 15, 31, 16, 30⟩]

/-- R52: versions 29 to 32, each at levels L, M, Q, H. -/
def capRows29 : List CapRow := [
  ⟨1631, 7, 116, 7, 117, 30⟩, ⟨1267, 21, 45, 7, 46, 28⟩, ⟨911, 1, 23, 37, 24, 30⟩, ⟨701, 19, 15, 26, 16, 30⟩,
  ⟨1735, 5, 115, 10, 116, 30⟩, ⟨1373, 19, 47, 10, 48, 28⟩, ⟨985, 15, 24, 25, 25, 30⟩, ⟨745, 23, 15, 25, 16, 30⟩,
  ⟨1843, 13, 115, 3, 116, 30⟩, ⟨1455, 2, 46, 29, 47, 28⟩, ⟨1033, 42, 24, 1, 25, 30⟩, ⟨793, 23, 15, 28, 16, 30⟩,
  ⟨1955, 17, 115, 0, 0, 30⟩, ⟨1541, 10, 46, 23, 47, 28⟩, ⟨1115, 10, 24, 35, 25, 30⟩, ⟨845, 19, 15, 35, 16, 30⟩]

/-- R52: versions 33 to 36, each at levels L, M, Q, H. -/
def capRows33 : List CapRow := [
  ⟨2071, 17, 115, 1, 116, 30⟩, ⟨1631, 14, 46, 21, 47, 28⟩, ⟨1171, 29, 24, 19, 25, 30⟩, ⟨901, 11, 15, 46, 16, 30⟩,
  ⟨2191, 13, 115, 6, 116, 30⟩, ⟨1725, 14, 46, 23, 47, 28⟩, ⟨1231, 44, 24, 7, 25, 30⟩, ⟨961, 59, 16, 1, 17, 30⟩,
  ⟨2306, 12, 121, 7, 122, 30⟩, ⟨1812, 12, 47, 26, 48, 28⟩, ⟨1286, 39, 24, 14, 25, 30⟩, ⟨986, 22, 15, 41, 16, 30⟩,
  ⟨2434, 6, 121, 14, 122, 30⟩, ⟨1914, 6, 47, 34, 48, 28⟩, ⟨1354, 46, 24, 10, 25, 30⟩, ⟨1054, 2, 15, 64, 16, 30⟩]

/-- R52: versions 37 to 40, each at levels L, M, Q, H. -/
def capRows37 : List CapRow := [
  ⟨2566, 17, 122, 4, 123, 30⟩, ⟨1992, 29, 46, 14, 47, 28⟩, ⟨1426, 49, 24, 10, 25, 30⟩, ⟨1096, 24, 15, 46, 16, 30⟩,
  ⟨2702, 4, 122, 18, 123, 30⟩, ⟨2102, 13, 46, 32, 47, 28⟩, ⟨1502, 48, 24, 14, 25, 30⟩, ⟨1142, 42, 15, 32, 16, 30⟩,
  ⟨2812, 20, 117, 4, 118, 30⟩, ⟨2216, 40, 47, 7, 48, 28⟩, ⟨1582, 43, 24, 22, 25, 30⟩, ⟨1222, 10, 15, 67, 16, 30⟩,
  ⟨2956, 19, 118, 6, 119, 30⟩, ⟨2334, 18, 47, 31, 48, 28⟩, ⟨1666, 34, 24, 34, 25, 30⟩, ⟨1276, 20, 15, 61, 16, 30⟩]

/-- CAP_ROM (R52): row 4 (v - 1) + e for version v and level e (L, M, Q, H = 0, 1, 2, 3). A row is (DCW_TOTAL, G1 COUNT,
G1 DCW, G2 COUNT, G2 DCW, E). -/
def capRom : List CapRow :=
  capRows1 ++ capRows5 ++ capRows9 ++ capRows13 ++ capRows17 ++
  capRows21 ++ capRows25 ++ capRows29 ++ capRows33 ++ capRows37

/-- R104: `CAP_ROM(v, e)`, for v in 1..40 and e in 0..3. R52 has no row for any other argument; what this function gives
there (another row or zeros) is the model's and nothing uses it (DESIGN CHOICE, log 22). -/
def capRow (v e : Nat) : CapRow := capRom.getD (4 * (v - 1) + e) ⟨0, 0, 0, 0, 0, 0⟩

/-- REM_ROM (R53): remainder bits per version, for versions 1 to 40; the value elsewhere is the model's and nothing uses it
(DESIGN CHOICE, log 22). -/
def remRom (v : Nat) : Nat :=
  if v ≤ 1 then 0 else if v ≤ 6 then 7 else if v ≤ 13 then 0 else if v ≤ 20 then 3
  else if v ≤ 27 then 4 else if v ≤ 34 then 3 else 0

/-- R104, R105: the version range, 1-9, 10-26 or 27-40. -/
def versionRange (v : Nat) : Nat := if v ≤ 9 then 0 else if v ≤ 26 then 1 else 2

/-- CCI_ROM (R54): count-indicator width per mode (0 to 2) and version range (0 to 2); the value for mode 3 or another
range is the model's and nothing uses it (DESIGN CHOICE, log 22). -/
def cciRom (mode range : Nat) : Nat :=
  match mode, range with
  | 0, 0 => 10
  | 0, 1 => 12
  | 0, _ => 14
  | 1, 0 => 9
  | 1, 1 => 11
  | 1, _ => 13
  | _, 0 => 8
  | _, _ => 16

/-- MODE_IND (R55): Numeric 0001, Alphanumeric 0010, Byte 0100; the value for mode 3 is the model's and nothing uses it
(DESIGN CHOICE, log 22). -/
def modeInd (mode : Nat) : Nat :=
  match mode with
  | 0 => 0b0001
  | 1 => 0b0010
  | _ => 0b0100

/-- EC_IND (R56): L 01, M 00, Q 11, H 10; the value for a level above 3 is the model's and nothing uses it (DESIGN
CHOICE, log 22). -/
def ecInd (level : Nat) : Nat :=
  match level with
  | 0 => 0b01
  | 1 => 0b00
  | 2 => 0b11
  | _ => 0b10

/-- R131: the EXP (antilog) table, rows 0_ to 7_. -/
def expRows0 : List (List Nat) := [
  [0x01, 0x02, 0x04, 0x08, 0x10, 0x20, 0x40, 0x80, 0x1D, 0x3A, 0x74, 0xE8, 0xCD, 0x87, 0x13, 0x26],
  [0x4C, 0x98, 0x2D, 0x5A, 0xB4, 0x75, 0xEA, 0xC9, 0x8F, 0x03, 0x06, 0x0C, 0x18, 0x30, 0x60, 0xC0],
  [0x9D, 0x27, 0x4E, 0x9C, 0x25, 0x4A, 0x94, 0x35, 0x6A, 0xD4, 0xB5, 0x77, 0xEE, 0xC1, 0x9F, 0x23],
  [0x46, 0x8C, 0x05, 0x0A, 0x14, 0x28, 0x50, 0xA0, 0x5D, 0xBA, 0x69, 0xD2, 0xB9, 0x6F, 0xDE, 0xA1],
  [0x5F, 0xBE, 0x61, 0xC2, 0x99, 0x2F, 0x5E, 0xBC, 0x65, 0xCA, 0x89, 0x0F, 0x1E, 0x3C, 0x78, 0xF0],
  [0xFD, 0xE7, 0xD3, 0xBB, 0x6B, 0xD6, 0xB1, 0x7F, 0xFE, 0xE1, 0xDF, 0xA3, 0x5B, 0xB6, 0x71, 0xE2],
  [0xD9, 0xAF, 0x43, 0x86, 0x11, 0x22, 0x44, 0x88, 0x0D, 0x1A, 0x34, 0x68, 0xD0, 0xBD, 0x67, 0xCE],
  [0x81, 0x1F, 0x3E, 0x7C, 0xF8, 0xED, 0xC7, 0x93, 0x3B, 0x76, 0xEC, 0xC5, 0x97, 0x33, 0x66, 0xCC]]

/-- R131: the EXP (antilog) table, rows 8_ to F_. -/
def expRows1 : List (List Nat) := [
  [0x85, 0x17, 0x2E, 0x5C, 0xB8, 0x6D, 0xDA, 0xA9, 0x4F, 0x9E, 0x21, 0x42, 0x84, 0x15, 0x2A, 0x54],
  [0xA8, 0x4D, 0x9A, 0x29, 0x52, 0xA4, 0x55, 0xAA, 0x49, 0x92, 0x39, 0x72, 0xE4, 0xD5, 0xB7, 0x73],
  [0xE6, 0xD1, 0xBF, 0x63, 0xC6, 0x91, 0x3F, 0x7E, 0xFC, 0xE5, 0xD7, 0xB3, 0x7B, 0xF6, 0xF1, 0xFF],
  [0xE3, 0xDB, 0xAB, 0x4B, 0x96, 0x31, 0x62, 0xC4, 0x95, 0x37, 0x6E, 0xDC, 0xA5, 0x57, 0xAE, 0x41],
  [0x82, 0x19, 0x32, 0x64, 0xC8, 0x8D, 0x07, 0x0E, 0x1C, 0x38, 0x70, 0xE0, 0xDD, 0xA7, 0x53, 0xA6],
  [0x51, 0xA2, 0x59, 0xB2, 0x79, 0xF2, 0xF9, 0xEF, 0xC3, 0x9B, 0x2B, 0x56, 0xAC, 0x45, 0x8A, 0x09],
  [0x12, 0x24, 0x48, 0x90, 0x3D, 0x7A, 0xF4, 0xF5, 0xF7, 0xF3, 0xFB, 0xEB, 0xCB, 0x8B, 0x0B, 0x16],
  [0x2C, 0x58, 0xB0, 0x7D, 0xFA, 0xE9, 0xCF, 0x83, 0x1B, 0x36, 0x6C, 0xD8, 0xAD, 0x47, 0x8E, 0x01]]

/-- R131, R132: the LOG table, rows 0_ to 7_. -/
def logRows0 : List (List Nat) := [
  [0x00, 0x00, 0x01, 0x19, 0x02, 0x32, 0x1A, 0xC6, 0x03, 0xDF, 0x33, 0xEE, 0x1B, 0x68, 0xC7, 0x4B],
  [0x04, 0x64, 0xE0, 0x0E, 0x34, 0x8D, 0xEF, 0x81, 0x1C, 0xC1, 0x69, 0xF8, 0xC8, 0x08, 0x4C, 0x71],
  [0x05, 0x8A, 0x65, 0x2F, 0xE1, 0x24, 0x0F, 0x21, 0x35, 0x93, 0x8E, 0xDA, 0xF0, 0x12, 0x82, 0x45],
  [0x1D, 0xB5, 0xC2, 0x7D, 0x6A, 0x27, 0xF9, 0xB9, 0xC9, 0x9A, 0x09, 0x78, 0x4D, 0xE4, 0x72, 0xA6],
  [0x06, 0xBF, 0x8B, 0x62, 0x66, 0xDD, 0x30, 0xFD, 0xE2, 0x98, 0x25, 0xB3, 0x10, 0x91, 0x22, 0x88],
  [0x36, 0xD0, 0x94, 0xCE, 0x8F, 0x96, 0xDB, 0xBD, 0xF1, 0xD2, 0x13, 0x5C, 0x83, 0x38, 0x46, 0x40],
  [0x1E, 0x42, 0xB6, 0xA3, 0xC3, 0x48, 0x7E, 0x6E, 0x6B, 0x3A, 0x28, 0x54, 0xFA, 0x85, 0xBA, 0x3D],
  [0xCA, 0x5E, 0x9B, 0x9F, 0x0A, 0x15, 0x79, 0x2B, 0x4E, 0xD4, 0xE5, 0xAC, 0x73, 0xF3, 0xA7, 0x57]]

/-- R131, R132: the LOG table, rows 8_ to F_. -/
def logRows1 : List (List Nat) := [
  [0x07, 0x70, 0xC0, 0xF7, 0x8C, 0x80, 0x63, 0x0D, 0x67, 0x4A, 0xDE, 0xED, 0x31, 0xC5, 0xFE, 0x18],
  [0xE3, 0xA5, 0x99, 0x77, 0x26, 0xB8, 0xB4, 0x7C, 0x11, 0x44, 0x92, 0xD9, 0x23, 0x20, 0x89, 0x2E],
  [0x37, 0x3F, 0xD1, 0x5B, 0x95, 0xBC, 0xCF, 0xCD, 0x90, 0x87, 0x97, 0xB2, 0xDC, 0xFC, 0xBE, 0x61],
  [0xF2, 0x56, 0xD3, 0xAB, 0x14, 0x2A, 0x5D, 0x9E, 0x84, 0x3C, 0x39, 0x53, 0x47, 0x6D, 0x41, 0xA2],
  [0x1F, 0x2D, 0x43, 0xD8, 0xB7, 0x7B, 0xA4, 0x76, 0xC4, 0x17, 0x49, 0xEC, 0x7F, 0x0C, 0x6F, 0xF6],
  [0x6C, 0xA1, 0x3B, 0x52, 0x29, 0x9D, 0x55, 0xAA, 0xFB, 0x60, 0x86, 0xB1, 0xBB, 0xCC, 0x3E, 0x5A],
  [0xCB, 0x59, 0x5F, 0xB0, 0x9C, 0xA9, 0xA0, 0x51, 0x0B, 0xF5, 0x16, 0xEB, 0x7A, 0x75, 0x2C, 0xD7],
  [0x4F, 0xAE, 0xD5, 0xE9, 0xE6, 0xE7, 0xAD, 0xE8, 0x74, 0xD6, 0xF4, 0xEA, 0xA8, 0x50, 0x58, 0xAF]]

/-- Row `i div 16`, column `i mod 16` of a table of sixteen rows. -/
def tableByte (rows : List (List Nat)) (i : Nat) : Byte := BitVec.ofNat 8 ((rows.getD (i / 16) []).getD (i % 16) 0)

/-- EXP (R57, R131); byte 255, outside the table of 255 entries, reads 0x01. -/
def expRom (i : Nat) : Byte := tableByte (expRows0 ++ expRows1) i

/-- LOG (R58, R132); byte 0, which has no value, reads 0x00. -/
def logRom (i : Nat) : Byte := tableByte (logRows0 ++ logRows1) i

end Sys2Proof.Machine
end

