-- ==== Sys2Proof/Machine/Ops.lean ====
section
/-! DEFINITION. The named operations every meaning uses: the address map and the one read and the one write of memory
bytes (20_memory.md R64-R74), acceptance and completion of a command (40_control.md R97-R99), recording an error, which
is QRCE's way to take an exception (60_exceptions.md R184), the W1C write that is its counterpart of a return (R188), and
the resets (70_reset_and_hazards.md R201-R204). -/

namespace Sys2Proof.Machine

/-! ### The address map -/

/-- R64: first addresses of the windows. -/
def penBase : Nat := 0x0100
def expBase : Nat := 0x0200
def logBase : Nat := 0x0300
def genBase : Nat := 0x0400
def msgBase : Nat := 0x2000
def dataBase : Nat := 0x4000
def eccBase : Nat := 0x5000
def seqBase : Nat := 0x6000
def matrixBase : Nat := 0x8000

/-- R51: the number of module bytes, 177 × 177. -/
def matrixBytes : Nat := Config.nMax * Config.nMax

/-- R64: the window an address lies in. -/
def windowOf (a : Nat) : Window :=
  if a < 0x0064 then .regs
  else if a < penBase then .unmapped
  else if a < expBase then .pen
  else if a < logBase then .exp
  else if a < genBase then .log
  else if a < genBase + Config.genBytes then .gen
  else if a < msgBase then .unmapped
  else if a < msgBase + Config.msgBytes then .msg
  else if a < dataBase + Config.cwBytes then .data
  else if a < eccBase + Config.cwBytes then .ecc
  else if a < seqBase + Config.cwBytes then .seq
  else if a < matrixBase then .unmapped
  else if a < matrixBase + matrixBytes then .matrix
  else .unmapped

/-- The windows whose bytes are stored in `State.mem` (R46-R51). -/
def Window.isRam : Window → Bool
  | .gen | .msg | .data | .ecc | .seq | .matrix => true
  | .regs | .pen | .exp | .log | .unmapped => false

/-- R51: address of module (r, c). -/
def moduleAddr (r c : Nat) : Nat := matrixBase + Config.nMax * r + c

/-- R51, R74: a byte of MATRIX holds only DARK and RSV; every other byte holds eight bits. -/
def keepBits (a : Nat) (b : Byte) : Byte := if windowOf a = .matrix then b &&& 3 else b

/-! ### Memory -/

/-- The byte listed at an address, if something has written it. -/
def Memory.byte? : Memory → Nat → Option Byte
  | [], _ => none
  | c :: rest, a => if c.1 = a then some c.2 else Memory.byte? rest a

/-- The cells of consecutive bytes from an address on. -/
def Memory.cells : Nat → List Byte → Memory
  | _, [] => []
  | a, b :: rest => (a, keepBits a b) :: Memory.cells (a + 1) rest

/-- Consecutive bytes written from an address on; everything else is kept. -/
def Memory.store (m : Memory) (a : Nat) (bytes : List Byte) : Memory :=
  m.filter (fun c => c.1 < a) ++ Memory.cells a bytes ++ m.filter (fun c => a + bytes.length ≤ c.1)

/-- A listed cell is well-formed: its address exists (R64) and a module byte has only two bits (R51). -/
def cellOk (c : Host.Cell) : Bool := (windowOf c.1).isRam && (keepBits c.1 c.2 == c.2)

/-- The canonical form of memory: addresses strictly rising, every cell well-formed. An address that is not listed is
unspecified, which no listed byte is, so no cell equals what an unlisted address reads as. -/
abbrev Memory.wf (m : Memory) : Prop :=
  m.Pairwise (fun c d => c.1 < d.1) ∧ ∀ c ∈ m, cellOk c = true

/-- The byte of a memory at a bus address, as the engine reads it. What nothing has written since the latest power-on is
a free value, the same at every read (R61, R62, U1). -/
def State.byteAt (s : State) (a : Nat) : Byte :=
  match Memory.byte? s.mem a with
  | some b => b
  | none => keepBits a (Config.powerOnByte s.powerOns a)

/-- `n` bytes from an address on. -/
def State.bytesAt (s : State) (a n : Nat) : List Byte := (List.range n).map (fun k => s.byteAt (a + k))

/-- Consecutive bytes written from an address on. -/
def State.store (s : State) (a : Nat) (bytes : List Byte) : State := { s with mem := Memory.store s.mem a bytes }

/-! ### Recording an error and completing a command -/

/-- R184: an error is recorded in ERR_CODE, ERR_INFO and STATUS. `op` is the opcode that raised it. -/
def State.recordError (s : State) (op : Byte) (e : CmdError) : State :=
  { s with
    errCode := ⟨e.cls.code, op⟩
    errInfo := ⟨e.pos, e.chr, e.detail⟩
    status := s.status.recordError e.cls }

/-- R98, R99: completion. The VALID bits of `clear` go, those of `set` come, ENG is idle and DONE is set. -/
def State.complete (s : State) (clear set : Valid) : State :=
  { s with
    valid := (s.valid.minus clear).plus set
    eng := .idle
    status := { s.status with done := true } }

/-- A command of one stage, R98, R99, R185: if a check failed its error is recorded and nothing is written; else its
effect is there. -/
def State.perform (s : State) (op : Opcode) (check : Option CmdError) (effect : State) : State :=
  match check with
  | some e => (s.recordError op.code e).complete (clearSet op) {}
  | none => effect.complete (clearSet op) (setSet op)

/-- R86: an illegal word completes with ILLEGAL_COMMAND, changes no VALID bit and does nothing else; the opcode recorded
is the word's OP field (R184). -/
def State.performIllegal (s : State) (w : Word) (e : Illegal) : State :=
  (s.recordError (opField w) { cls := .illegalCommand, detail := e.detail }).complete {} {}

/-- The free values LATENCY and the scheduler take for the step or stage that starts now (R213, R214). -/
def State.drawTiming (s : State) (w : Word) : State :=
  { s with
    stepsLeft := Config.extraSteps w s.draws
    hostTurns := Config.hostTurns s.draws
    draws := s.draws + 1 }

/-- R107: the stage of ENCODE the engine is in; the first one when ENG names none. -/
def State.encodeStage (s : State) : Stage :=
  match s.eng with
  | .running _ (some st) => st
  | .running _ none => .cfg
  | .idle => .cfg

/-- The layout a stage of ENCODE works with: the layout registers for the stage CFG; for a later stage what CFG has loaded
(R107, log 8). -/
def State.stageLayout (s : State) : Layout :=
  match s.encodeStage with
  | .cfg => s.layout
  | .bitenc | .rsenc | .ileave => s.encodeLayout

/-- The state a stage of ENCODE sees, "the state the previous stage left" (R107). Outside ENCODE it is the state itself. -/
def State.stageView (s : State) : State := { s with layout := s.stageLayout }

/-- R107: ENG moves to a stage of ENCODE. The layout worked with becomes the engine's working copy, and the layout registers
hold `regs`, their contents before the command, until ENCODE ends (R77 (b), (d), log 8). -/
def State.enterStage (s : State) (st : Stage) (regs : Layout) : State :=
  { s.drawTiming (encode .encode) with
    eng := .running (encode .encode) (some st)
    layout := regs
    encodeLayout := s.layout }

/-- One stage of ENCODE, R107, R99, whose check and effect are those of `stageView`: an error ends the command with what the
stages before it wrote and their bits; the last stage completes it; any other stage leads to the next. -/
def State.performStage (s : State) (st : Stage) (check : Option CmdError) (effect : State) : State :=
  match check with
  | some e => (s.stageView.recordError st.opcode.code e).complete (clearSet .encode) st.earlierSet
  | none =>
    match st.next with
    | some st' => effect.enterStage st' s.layout
    | none => effect.complete (clearSet .encode) (setSet .encode)

/-- R59, R97: the first stage of an accepted word: CFG for ENCODE's word, none for any other. -/
def firstStage (w : Word) : Option Stage :=
  match decode w with
  | .ok .encode => some .cfg
  | _ => none

/-- R97: acceptance of a command word. -/
def State.accept (s : State) (w : Word) : State :=
  { s.drawTiming w with
    cmd := w
    eng := .running w (firstStage w)
    status := { s.status with done := false }
    errCode := ⟨0, 0⟩
    errInfo := ⟨0, 0, 0⟩ }

/-- R186, R207: a refused host write sets REJ and does nothing else. -/
def State.refuse (s : State) : State := { s with status := { s.status with rej := true } }

/-- R188: the W1C write to STATUS. -/
def State.clearStatus (s : State) (v : Word) : State := { s with status := s.status.writeOneToClear v }

/-- R214: an engine step that only lets time pass. -/
def State.tick (s : State) : State :=
  { s with stepsLeft := s.stepsLeft - 1, hostTurns := Config.hostTurns s.draws, draws := s.draws + 1 }

/-! ### Write sets (R96) -/

/-- R104: the CONFIG values CFG accepts, which are those the ROMs of R52-R54 have entries for. -/
def ConfigReg.legal (c : ConfigReg) : Bool :=
  decide (Config.vMin ≤ c.version.toNat) && decide (c.version.toNat ≤ Config.vMax) &&
  decide (c.mode.toNat ≤ 2) && decide (c.ecLevel.toNat ≤ 3)

/-- The layout CFG loads for a legal CONFIG (R104). For any other CONFIG the value is the model's and nothing uses it
(DESIGN CHOICE, log 22). -/
def romLayout (c : ConfigReg) : Layout :=
  let row := capRow c.version.toNat c.ecLevel.toNat
  { dcwTotal := BitVec.ofNat 12 row.dcw
    g1 := ⟨BitVec.ofNat 8 row.g1Count, BitVec.ofNat 8 row.g1Dcw⟩
    g2 := ⟨BitVec.ofNat 8 row.g2Count, BitVec.ofNat 8 row.g2Dcw⟩
    ecwBlk := BitVec.ofNat 8 row.e
    remBits := BitVec.ofNat 3 (remRom c.version.toNat)
    cciWidth := BitVec.ofNat 5 (cciRom c.mode.toNat (versionRange c.version.toNat)) }

/-- R141: nb, the number of blocks. -/
def Layout.nb (l : Layout) : Nat := l.g1.count.toNat + l.g2.count.toNat

/-- R141: nb · E, the number of EC codewords. -/
def Layout.eccTotal (l : Layout) : Nat := l.nb * l.ecwBlk.toNat

/-- R153: D + nb · E, the number of codewords ILEAVE writes. -/
def Layout.seqTotal (l : Layout) : Nat := l.dcwTotal.toNat + l.eccTotal

/-- A run of memory bytes: first address and length. -/
abbrev Span := Nat × Nat

/-- R96, BITENC: DATA[0..D−1]. -/
def dataSpan (l : Layout) : Span := (dataBase, min l.dcwTotal.toNat Config.cwBytes)
/-- R96, RSENC: ECC[0..nb·E−1]. -/
def eccSpan (l : Layout) : Span := (eccBase, min l.eccTotal Config.cwBytes)
/-- R96, RSENC: GEN[0..31]. -/
def genSpan : Span := (genBase, Config.genBytes)
/-- R96, ILEAVE: SEQ[0..SEQ_LEN], the last byte only when REM_BITS > 0. -/
def seqSpan (l : Layout) : Span :=
  (seqBase, min (l.seqTotal + (if l.remBits = 0 then 0 else 1)) Config.cwBytes)

/-- R157: N, the side of the symbol of the VERSION held by CONFIG. -/
def State.side (s : State) : Nat := 4 * s.config.version.toNat + 17

/-- R96, MAPPLY: MAT(r, c) for r, c < N, one span a row; never outside MATRIX. -/
def matrixSpans (s : State) : List Span :=
  (List.range (min s.side Config.nMax)).map (fun r => (moduleAddr r 0, min s.side Config.nMax))

/-- The layouts under which ENCODE's write set counts: that of the layout registers, that of the present stage and, when
CONFIG is legal, the one its CFG stage loads (log 7). With an illegal CONFIG the CFG stage fails and loads none (R104). -/
def State.encodeLayouts (s : State) : List Layout :=
  [s.layout, s.stageLayout] ++ if s.config.legal then [romLayout s.config] else []

/-- R96: the memory bytes of a command's write set. -/
def State.writeSpans (s : State) : Instr → List Span
  | .nop => []
  | .cfg => []
  | .bitenc => [dataSpan s.layout]
  | .rsenc => [eccSpan s.layout, genSpan]
  | .ileave => [seqSpan s.layout]
  | .encode => s.encodeLayouts.flatMap (fun l => [dataSpan l, eccSpan l, genSpan, seqSpan l])
  | .meval => []
  | .mapplyM _ => matrixSpans s
  | .mapplyBest => matrixSpans s
  | .fmtgenM _ => []
  | .fmtgenBest => []
  | .gfmul => []

/-- R96: the registers of a command's write set. -/
def writesReg : Instr → Reg → Bool
  | .nop, _ => false
  | .cfg, r => r ∈ [Reg.dcwTotal, .blkG1, .blkG2, .ecwBlk, .remBits, .cciWidth, .valid]
  | .bitenc, r => r ∈ [Reg.statBits, .valid]
  | .rsenc, r => r ∈ [Reg.valid]
  | .ileave, r => r ∈ [Reg.seqLen, .seqBits, .valid]
  | .encode, r => r ∈ [Reg.dcwTotal, .blkG1, .blkG2, .ecwBlk, .remBits, .cciWidth, .statBits, .seqLen, .seqBits, .valid]
  | .meval, r => r ∈ [Reg.best, .valid]
  | .mapplyM _, r => r ∈ [Reg.valid]
  | .mapplyBest, r => r ∈ [Reg.valid]
  | .fmtgenM _, r => r ∈ [Reg.fmtWord, .verWord, .valid]
  | .fmtgenBest, r => r ∈ [Reg.fmtWord, .verWord, .valid]
  | .gfmul, r => r ∈ [Reg.gfRes, .valid]

/-- R96: whether a command's write set holds PEN. -/
def writesPen : Instr → Bool
  | .meval => true
  | .nop | .cfg | .bitenc | .rsenc | .ileave | .encode | .mapplyM _ | .mapplyBest | .fmtgenM _ | .fmtgenBest
  | .gfmul => false

/-- The command that is running, if ENG runs a legal word. -/
def State.running (s : State) : Option Instr :=
  match s.eng with
  | .idle => none
  | .running w _ =>
    match decode w with
    | .ok i => some i
    | .error _ => none

/-- Whether an address lies in a span. -/
def Span.has (p : Span) (a : Nat) : Bool := decide (p.1 ≤ a) && decide (a < p.1 + p.2)

/-- The memory spans of the running command's write set; none when no legal word runs. -/
def State.busySpans (s : State) : List Span :=
  match s.running with
  | some i => s.writeSpans i
  | none => []

/-- Whether the running command's write set holds a memory byte. -/
def State.busyByte (s : State) (a : Nat) : Bool := s.busySpans.any (fun p => Span.has p a)

/-- Whether the running command's write set holds a register. -/
def State.busyReg (s : State) (r : Reg) : Bool :=
  match s.running with
  | some i => writesReg i r
  | none => false

/-- Whether the running command's write set holds PEN. -/
def State.busyPen (s : State) : Bool :=
  match s.running with
  | some i => writesPen i
  | none => false

/-! ### Reset -/

/-- `n` free bytes from the `k`-th on. -/
def freeBytes (k n : Nat) : List Byte := (List.range n).map (fun j => Config.freeByte (k + j))

/-- R204: every byte of a span holds a free value. -/
def State.scramble (s : State) (p : Span) : State :=
  { s.store p.1 (freeBytes s.draws p.2) with draws := s.draws + p.2 }

/-- R204: the running command is abandoned: every byte of its memory write set holds a free value. -/
def State.abandon (s : State) : State := s.busySpans.foldl State.scramble s

/-- R202: every register and PEN at its reset value, ENG idle; the memories and the model's own counters are kept. -/
def State.resetRegisters (s : State) : State :=
  { State.reset with mem := s.mem, draws := s.draws, powerOns := s.powerOns, inbox := s.inbox, resp := s.resp }

/-- R203: soft reset. -/
def State.softReset (s : State) : State := s.abandon.resetRegisters

/-- R201: power-on reset. No byte of memory is specified any more, and an access in progress gets no response. -/
def State.powerOn (s : State) : State :=
  { s.resetRegisters with mem := [], powerOns := s.powerOns + 1, resp := none }

end Sys2Proof.Machine
end

