-- ==== Sys2Proof/Machine/Operands.lean ====
section
/-! DEFINITION. Every operand form (30_encoding.md R84, R95): the effective mask of MAPPLY and FMTGEN, the fields of CONFIG,
the message, the layout quantities of 43_reed_solomon.md R141, the data and EC codewords, and the symbol of R157. -/

namespace Sys2Proof.Machine

/-- CONFIG.VERSION as a number. -/
def State.version (s : State) : Nat := s.config.version.toNat

/-- CONFIG.MODE as a number. -/
def State.mode (s : State) : Nat := s.config.mode.toNat

/-- CONFIG.ECLEVEL as a number. -/
def State.level (s : State) : Nat := s.config.ecLevel.toNat

/-- The check `VERSION ∈ 1..40` (R104, R162, R173, R176). -/
def State.versionOk (s : State) : Bool := decide (Config.vMin ≤ s.version) && decide (s.version ≤ Config.vMax)

/-- INVALID_PARAMETER with a detail (R182). -/
def invalidParameter (detail : Byte) : CmdError := { cls := .invalidParameter, detail := detail }

/-- INTERNAL_CONSISTENCY with a detail (R182). -/
def internalConsistency (detail : Byte) : CmdError := { cls := .internalConsistency, detail := detail }

/-- The mask operand of MAPPLY or FMTGEN: explicit, or BEST (R84). -/
inductive MaskOperand where
  | explicit (m : Nat)
  | best
deriving DecidableEq, Repr

/-- R84: the effective mask, `(ARG[3] = 1) ? BEST.MASK : ARG[2:0]`. -/
def State.effectiveMask (s : State) : MaskOperand → BitVec 3
  | .explicit m => BitVec.ofNat 3 m
  | .best => s.best

/-- R174, R177: whether the form asks for BEST while VALID.MASK = 0. -/
def State.staleBest (s : State) : MaskOperand → Bool
  | .explicit _ => false
  | .best => !s.valid.mask

/-- MSG_LEN.LEN. -/
def State.messageLength (s : State) : Nat := s.msgLen.toNat

/-- MSG[0..n−1] (R111). -/
def State.message (s : State) : List Byte := s.bytesAt msgBase s.messageLength

/-- R141: len(b), the data codewords of block b. -/
def Layout.blockLength (l : Layout) (b : Nat) : Nat :=
  if b < l.g1.count.toNat then l.g1.dcw.toNat else l.g2.dcw.toNat

/-- R141: start(b), the first DATA index of block b. -/
def Layout.blockStart (l : Layout) (b : Nat) : Nat :=
  if b < l.g1.count.toNat then b * l.g1.dcw.toNat
  else l.g1.count.toNat * l.g1.dcw.toNat + (b - l.g1.count.toNat) * l.g2.dcw.toNat

/-- R141: maxlen. -/
def Layout.maxLength (l : Layout) : Nat := if 0 < l.g2.count.toNat then l.g2.dcw.toNat else l.g1.dcw.toNat

/-- R147: the data codewords of block b. -/
def State.blockData (s : State) (b : Nat) : List Byte :=
  s.bytesAt (dataBase + s.layout.blockStart b) (s.layout.blockLength b)

/-- A module byte read as a module (R51). -/
def Module.ofByte (b : Byte) : Module := ⟨b.getLsbD 0, b.getLsbD 1⟩

/-- The byte of a module (R51). -/
def Module.toByte (md : Module) : Byte := (if md.rsv then 2 else 0) ||| (if md.dark then 1 else 0)

/-- MAT(r, c). -/
def State.moduleAt (s : State) (r c : Nat) : Module := Module.ofByte (s.byteAt (moduleAddr r c))

/-- R157: the modules of the symbol, row by row. -/
def State.symbol (s : State) : List (List Module) :=
  (List.range s.side).map (fun r => (List.range s.side).map (fun c => s.moduleAt r c))

end Sys2Proof.Machine
end

