-- ==== Sys2Proof/Machine/Bus.lean ====
section
/-! DEFINITION. The host's side: bus transactions (20_memory.md R66-R76), what they do while a command runs
(70_reset_and_hazards.md R207, R208), the acts of the outside world, and the host-program statements of 30_encoding.md
R92-R94. -/

namespace Sys2Proof.Machine

/-- R63: the bytes of a transaction. -/
def Size.bytes : Size → Nat
  | .one => 1
  | .two => 2
  | .four => 4

/-- R21-R44: the registers in the order of their offsets 0x00, 0x04, …, 0x60. -/
def registers : List Reg :=
  [.id, .ctrl, .status, .ie, .cmd, .errCode, .errInfo, .valid, .config, .msgLen, .dcwTotal, .blkG1, .blkG2, .ecwBlk,
   .remBits, .cciWidth, .ecwTotal, .statBits, .seqLen, .seqBits, .best, .fmtWord, .verWord, .gfOp, .gfRes]

/-- The register at a word address of the register window. -/
def regAt (a : Nat) : Reg := registers.getD (a / 4) .id

/-- `addr(reg)` of R92. -/
def Reg.offset (r : Reg) : Nat := 4 * registers.idxOf r

/-- R70: the windows that take accesses of 4 bytes only. -/
def Window.fourBytesOnly : Window → Bool
  | .regs | .pen => true
  | .exp | .log | .gen | .msg | .data | .ecc | .seq | .matrix | .unmapped => false

/-- R69-R71: a transaction is answered OKAY exactly when it is aligned, wide enough for its window, and every byte of it
is mapped. -/
def accessOk (a n : Nat) : Bool :=
  (a % n == 0) && (!(windowOf a).fourBytesOnly || n == 4) && (List.range n).all (fun k => windowOf (a + k) != .unmapped)

/-- R2, R21: the value of ID. -/
def idWord : Word := 0x51520107

/-- R37: ECW_TOTAL, computed from the layout registers. -/
def Layout.ecwTotal (l : Layout) : Word := BitVec.ofNat 32 l.eccTotal

/-- BLK_G1 or BLK_G2 as read (R32, R33). -/
def BlkGroup.word (g : BlkGroup) : Word := (0 : BitVec 16) ++ g.dcw ++ g.count

/-- BLK_G1 or BLK_G2 after a host write. -/
def BlkGroup.ofWord (v : Word) : BlkGroup := ⟨v.extractLsb' 0 8, v.extractLsb' 8 8⟩

/-- CONFIG as read (R29). -/
def ConfigReg.word (c : ConfigReg) : Word :=
  (0 : BitVec 17) ++ c.ecLevel ++ (0 : BitVec 2) ++ c.mode ++ (0 : BitVec 2) ++ c.version

/-- CONFIG after a host write. -/
def ConfigReg.ofWord (v : Word) : ConfigReg := ⟨v.extractLsb' 0 6, v.extractLsb' 8 2, v.extractLsb' 12 3⟩

/-- The read value of every register (R21-R44); reserved bits read 0. -/
def State.readReg (s : State) : Reg → Word
  | .id => idWord
  | .ctrl => 0
  | .status => s.statusWord
  | .ie => s.ie.word
  | .cmd => s.cmd
  | .errCode => (0 : BitVec 16) ++ s.errCode.op ++ (0 : BitVec 4) ++ s.errCode.code
  | .errInfo => s.errInfo.detail ++ s.errInfo.chr ++ s.errInfo.pos
  | .valid => s.valid.word
  | .config => s.config.word
  | .msgLen => s.msgLen.setWidth 32
  | .dcwTotal => s.layout.dcwTotal.setWidth 32
  | .blkG1 => s.layout.g1.word
  | .blkG2 => s.layout.g2.word
  | .ecwBlk => s.layout.ecwBlk.setWidth 32
  | .remBits => s.layout.remBits.setWidth 32
  | .cciWidth => s.layout.cciWidth.setWidth 32
  | .ecwTotal => s.layout.ecwTotal
  | .statBits => s.statBits.setWidth 32
  | .seqLen => s.seqLen.setWidth 32
  | .seqBits => s.seqBits.setWidth 32
  | .best => s.best.setWidth 32
  | .fmtWord => s.fmtWord.setWidth 32
  | .verWord => s.verWord.setWidth 32
  | .gfOp => (0 : BitVec 16) ++ s.gfOp.b ++ s.gfOp.a
  | .gfRes => s.gfRes.setWidth 32

/-- Word k of a PEN record (R45): k = 0 to 4; the words above are reserved and read 0. -/
def PenRecord.word (p : PenRecord) (k : Nat) : Word :=
  match k with
  | 0 => p.p1
  | 1 => p.p2
  | 2 => p.p3
  | 3 => p.p4
  | 4 => p.total
  | _ => 0

/-- The PEN word at an offset into the PEN window: record offset div 0x20, word (offset mod 0x20) div 4 (R45). -/
def State.penWord (s : State) (off : Nat) : Word := (s.pen.toList.getD (off / 32) {}).word (off % 32 / 4)

/-- The byte of a byte window, ROM or memory, at its bus address (R64). -/
def State.windowByte (s : State) (a : Nat) : Byte :=
  match windowOf a with
  | .exp => expRom (a - expBase)
  | .log => logRom (a - logBase)
  | .gen | .msg | .data | .ecc | .seq | .matrix | .regs | .pen | .unmapped => s.byteAt a

/-- R68: bytes as one little-endian word, the first in bits [7:0]. -/
def littleEndian : List Byte → Word
  | [] => 0
  | b :: rest => (littleEndian rest <<< 8) ||| b.setWidth 32

/-- R67: byte k of the written data, v[8k+7:8k]. -/
def writeBytes (v : Word) (n : Nat) : List Byte := (List.range n).map (fun k => v.extractLsb' (8 * k) 8)

/-- R66, R208: the data an OKAY read returns. A register or byte of the running command's write set gives a free value,
one for each such register or byte of the read; everything else gives its own value. -/
def State.readData (s : State) (a n : Nat) : Word :=
  match windowOf a with
  | .regs => if s.busyReg (regAt a) then Config.freeWord s.draws else s.readReg (regAt a)
  | .pen =>
    if s.busyPen && decide ((a - penBase) % 32 / 4 < 5) then Config.freeWord s.draws else s.penWord (a - penBase)
  | .exp | .log | .gen | .msg | .data | .ecc | .seq | .matrix | .unmapped =>
    littleEndian ((List.range n).map (fun k =>
      if s.busyByte (a + k) then Config.freeByte (s.draws + k) else s.windowByte (a + k)))

/-- The transaction is answered. -/
def State.respond (s : State) (r : Resp) (v : Word) : State := { s with resp := some ⟨r, v⟩ }

/-- The OKAY answer to a write. The spec gives its rdata no value, so it is a free one (DESIGN CHOICE, log 23). -/
def State.answerWrite (s : State) : State := { s.respond .okay (Config.freeWord s.draws) with draws := s.draws + 1 }

/-- `MemRead(addr, n)` (R66, R72): no effect but the response; the model's counter moves past the free values. -/
def State.busRead (s : State) (a n : Nat) : State :=
  if accessOk a n then { s.respond .okay (s.readData a n) with draws := s.draws + n } else s.respond .error 0

/-- The VALID clears of a host write (R28). -/
def State.clearValid (s : State) (c : Valid) : State := { s with valid := s.valid.minus c }

/-- The write action of every register while BUSY = 0 (R20-R44), without the VALID clears. -/
def State.setReg (s : State) (r : Reg) (v : Word) : State :=
  match r with
  | .ctrl => if v.getLsbD 0 then s.softReset else s
  | .status => s.clearStatus v
  | .ie => { s with ie := IrqEnable.ofWord v }
  | .cmd => if s.status.fatal then s.refuse else s.accept v
  | .config => { s with config := ConfigReg.ofWord v }
  | .msgLen => { s with msgLen := v.extractLsb' 0 14 }
  | .dcwTotal => { s with layout := { s.layout with dcwTotal := v.extractLsb' 0 12 } }
  | .blkG1 => { s with layout := { s.layout with g1 := BlkGroup.ofWord v } }
  | .blkG2 => { s with layout := { s.layout with g2 := BlkGroup.ofWord v } }
  | .ecwBlk => { s with layout := { s.layout with ecwBlk := v.extractLsb' 0 8 } }
  | .remBits => { s with layout := { s.layout with remBits := v.extractLsb' 0 3 } }
  | .cciWidth => { s with layout := { s.layout with cciWidth := v.extractLsb' 0 5 } }
  | .gfOp => { s with gfOp := ⟨v.extractLsb' 0 8, v.extractLsb' 8 8⟩ }
  | .id | .errCode | .errInfo | .valid | .ecwTotal | .statBits | .seqLen | .seqBits | .best | .fmtWord | .verWord
  | .gfRes => s

/-- A host write to a register while BUSY = 0 (R20, R28, R73). -/
def State.writeReg (s : State) (r : Reg) (v : Word) : State := (s.setReg r v).clearValid r.hostClears

/-- A host write to a register while BUSY = 1 (R207): only STATUS and CTRL take it. -/
def State.writeRegBusy (s : State) (r : Reg) (v : Word) : State :=
  match r with
  | .status => s.clearStatus v
  | .ctrl => if v.getLsbD 0 then s.softReset else s
  | .id | .ie | .cmd | .errCode | .errInfo | .valid | .config | .msgLen | .dcwTotal | .blkG1 | .blkG2 | .ecwBlk
  | .remBits | .cciWidth | .ecwTotal | .statBits | .seqLen | .seqBits | .best | .fmtWord | .verWord | .gfOp
  | .gfRes => s.refuse

/-- The effect of an OKAY write (R67, R73, R74, R207). -/
def State.writeEffect (s : State) (a n : Nat) (v : Word) : State :=
  match windowOf a with
  | .regs => if s.busy then s.writeRegBusy (regAt a) v else s.writeReg (regAt a) v
  | .msg | .data | .ecc | .seq | .matrix =>
    if s.busy then s.refuse else (s.store a (writeBytes v n)).clearValid (windowOf a).hostClears
  | .pen | .exp | .log | .gen | .unmapped => if s.busy then s.refuse else s

/-- `MemWrite(addr, n, v)` (R67, R72). The rdata of the OKAY answer is a free value (log 23). -/
def State.busWrite (s : State) (a n : Nat) (v : Word) : State :=
  if accessOk a n then (s.writeEffect a n v).answerWrite else s.respond .error 0

/-- One bus transaction (R63). -/
def State.transact (s : State) : Access → State
  | .read a sz => s.busRead a.toNat sz.bytes
  | .write a sz v => s.busWrite a.toNat sz.bytes v

/-- One act of the outside world (R63, R93, R201, R206). -/
def State.act (s : State) : HostAct → State
  | .access a => s.transact a
  | .wait => if s.busy then { s.busRead (Reg.offset .status) 4 with inbox := .wait :: s.inbox }
      else s.busRead (Reg.offset .status) 4
  | .powerOn => s.powerOn
  | .powerOnDuring a =>
    if Config.freeChoice s.draws then (({ s with draws := s.draws + 1 } : State).transact a).powerOn
    else ({ s with draws := s.draws + 1 } : State).powerOn

/-- R214: whether the host moves next: it has something to do, and the engine is idle or the scheduler still grants host
steps. -/
def State.hostMoves (s : State) : Bool := !s.inbox.isEmpty && (!s.busy || decide (0 < s.hostTurns))

/-- R77: the oldest act of the inbox takes place. -/
def State.hostStep (s : State) : State :=
  match s.inbox with
  | [] => s
  | a :: rest => ({ s with inbox := rest, hostTurns := s.hostTurns - 1 } : State).act a

/-! ### Host-program statements (R92-R94) -/

/-- `W <reg>, <v>`. -/
def hostW (r : Reg) (v : Word) : HostAct := .access (.write (BitVec.ofNat 16 r.offset) .four v)
/-- `R <reg>`. -/
def hostR (r : Reg) : HostAct := .access (.read (BitVec.ofNat 16 r.offset) .four)
/-- `W8 <addr>, <v>`. -/
def hostW8 (a : Nat) (v : Byte) : HostAct := .access (.write (BitVec.ofNat 16 a) .one (v.setWidth 32))
/-- `CMD <mnemonic>`: the word of R90 into CMD. -/
def hostCmd (i : Instr) : HostAct := hostW .cmd (encode i)
/-- `RUN <mnemonic>`: CMD, then WAIT. -/
def hostRun (i : Instr) : List HostAct := [hostCmd i, .wait]
/-- `WSTR <addr>, <text>`: one byte write per character, in order. -/
def hostWstr (a : Nat) : List Byte → List HostAct
  | [] => []
  | b :: rest => hostW8 a b :: hostWstr (a + 1) rest
/-- `FILL8 <addr>, <n>, <v>`. -/
def hostFill8 (a n : Nat) (v : Byte) : List HostAct := hostWstr a (List.replicate n v)
/-- `CLRST`. -/
def hostClrst : HostAct := hostW .status 0x1E
/-- `SETCFG <v>, <mode>, <ec>`: CONFIG ← (ec << 12) | (mode << 8) | v. -/
def hostSetcfg (v mode ec : Nat) : HostAct := hostW .config (BitVec.ofNat 32 ((ec <<< 12) ||| (mode <<< 8) ||| v))

end Sys2Proof.Machine
end

