-- ==== Sys2Proof/Machine/Bitstream.lean ====
section
/-! DEFINITION. The bitstream encoder, BITENC (41_bitstream.md R111-R130). A bit stream is a list of bits, the first
emitted first (00_scope.md R8). -/

namespace Sys2Proof.Machine

/-- R7: `bits(v, w)`, the w bits of v, most significant first. -/
def bits (v : Nat) : Nat → List Bool
  | 0 => []
  | w + 1 => v.testBit w :: bits v w

/-- `n` zero bits. -/
def zeros (n : Nat) : List Bool := List.replicate n false

/-- R8: a codeword of at most eight bits, the first bit most significant. -/
def byteOfBits (l : List Bool) : Byte := BitVec.ofNat 8 (l.foldl (fun acc b => 2 * acc + b.toNat) 0)

/-- R8, R129: codeword j of a bit stream, bits 8j to 8j + 7. -/
def codeword (bs : List Bool) (j : Nat) : Byte := byteOfBits ((bs.drop (8 * j)).take 8)

/-- R114: the nine symbols of the Alphanumeric alphabet with their indexes (R116). -/
def symbolIndex : List (Nat × Nat) :=
  [(0x20, 36), (0x24, 37), (0x25, 38), (0x2A, 39), (0x2B, 40), (0x2D, 41), (0x2E, 42), (0x2F, 43), (0x3A, 44)]

/-- R114: `in_alphabet(md, b)`. -/
def inAlphabet (md : Nat) (b : Byte) : Bool :=
  let digit := decide (0x30 ≤ b.toNat) && decide (b.toNat ≤ 0x39)
  match md with
  | 0 => digit
  | 1 => digit || (decide (0x41 ≤ b.toNat) && decide (b.toNat ≤ 0x5A)) || symbolIndex.any (fun p => p.1 == b.toNat)
  | _ => true

/-- R116: `dig(b)`. -/
def digitValue (b : Byte) : Nat := b.toNat - 0x30

/-- R116: `an(b)`, for a byte of the Alphanumeric alphabet. -/
def alnumIndex (b : Byte) : Nat :=
  if b.toNat ≤ 0x39 ∧ 0x30 ≤ b.toNat then b.toNat - 0x30
  else if 0x41 ≤ b.toNat ∧ b.toNat ≤ 0x5A then b.toNat - 0x41 + 10
  else ((symbolIndex.find? (fun p => p.1 == b.toNat)).map (·.2)).getD 0

/-- R117: the index and value of the first byte outside the alphabet, counting from i. -/
def firstBad (md : Nat) : Nat → List Byte → Option (Nat × Byte)
  | _, [] => none
  | i, b :: rest => if inAlphabet md b then firstBad md (i + 1) rest else some (i, b)

/-- R120: the payload bit counts. -/
def payloadBits (md n : Nat) : Nat :=
  match md with
  | 0 => 10 * (n / 3) + (if n % 3 = 2 then 7 else if n % 3 = 1 then 4 else 0)
  | 1 => 11 * (n / 2) + 6 * (n % 2)
  | _ => 8 * n

/-- R119: `req(md, n, W)`. -/
def requiredBits (md n w : Nat) : Nat := 4 + w + payloadBits md n

/-- R123: the Numeric payload. -/
def numericPayload : List Byte → List Bool
  | a :: b :: c :: rest => bits (100 * digitValue a + 10 * digitValue b + digitValue c) 10 ++ numericPayload rest
  | [a, b] => bits (10 * digitValue a + digitValue b) 7
  | [a] => bits (digitValue a) 4
  | [] => []

/-- R124: the Alphanumeric payload. -/
def alnumPayload : List Byte → List Bool
  | a :: b :: rest => bits (45 * alnumIndex a + alnumIndex b) 11 ++ alnumPayload rest
  | [a] => bits (alnumIndex a) 6
  | [] => []

/-- R125: the Byte payload. -/
def bytePayload (msg : List Byte) : List Bool := msg.flatMap (fun b => bits b.toNat 8)

/-- R123-R125: `payload(md, n)`. -/
def payload (md : Nat) (msg : List Byte) : List Bool :=
  match md with
  | 0 => numericPayload msg
  | 1 => alnumPayload msg
  | _ => bytePayload msg

/-- R122: the header and the payload, without terminator and padding. -/
def segment (md w : Nat) (msg : List Byte) : List Bool := bits (modeInd md) 4 ++ bits msg.length w ++ payload md msg

/-- R126: the terminator, `min(4, 8·D − len)` zero bits. -/
def addTerminator (d : Nat) (bs : List Bool) : List Bool := bs ++ zeros (min 4 (8 * d - bs.length))

/-- R127: zero bits up to the next byte boundary. -/
def addBoundary (bs : List Bool) : List Bool := bs ++ zeros ((8 - bs.length % 8) % 8)

/-- R128: `n` pad codewords, 0xEC first, then alternating with 0x11. -/
def padCodewords (n : Nat) : List Bool := (List.range n).flatMap (fun k => bits (if k % 2 = 0 then 0xEC else 0x11) 8)

/-- R128: pad codewords until the stream has 8·D bits. -/
def addPads (d : Nat) (bs : List Bool) : List Bool := bs ++ padCodewords (d - bs.length / 8)

/-- R111: the whole bit stream. -/
def bitStream (md w d : Nat) (msg : List Byte) : List Bool :=
  addPads d (addBoundary (addTerminator d (segment md w msg)))

/-- R129: the D data codewords of a message. -/
def dataCodewords (md w d : Nat) (msg : List Byte) : List Byte := (List.range d).map (codeword (bitStream md w d msg))

/-- CAPACITY with the required bit count, saturated at 0xFFFF (R118, R121). -/
def capacityError (detail : Byte) (req : Nat) : CmdError :=
  { cls := .capacity, detail := detail, pos := BitVec.ofNat 16 (min req 0xFFFF) }

/-- The checks of BITENC in their order (R111-R113, R117, R118, R121, R183). -/
def bitencCheck (s : State) : Option CmdError :=
  let md := s.mode
  let n := s.messageLength
  let d := s.layout.dcwTotal.toNat
  let w := s.layout.cciWidth.toNat
  if 2 < md then some (invalidParameter 2)
  else if Config.msgBytes < n then some (invalidParameter 4)
  else if w < 1 ∨ 16 < w then some (internalConsistency 1)
  else if d = 0 then some (internalConsistency 2)
  else
    match firstBad md 0 s.message with
    | some (i, b) =>
      some { cls := .invalidCharacter, detail := BitVec.ofNat 8 md, pos := BitVec.ofNat 16 i, chr := b }
    | none =>
      if 2 ^ w ≤ n then some (capacityError 1 (requiredBits md n w))
      else if 8 * d < requiredBits md n w then some (capacityError 2 (requiredBits md n w))
      else none

/-- The writes of BITENC (R129). -/
def bitencEffect (s : State) : State :=
  { s.store dataBase (dataCodewords s.mode s.layout.cciWidth.toNat s.layout.dcwTotal.toNat s.message) with
    statBits := BitVec.ofNat 16 (requiredBits s.mode s.messageLength s.layout.cciWidth.toNat) }

/-- BITENC (R111). -/
def execBitenc (s : State) : Host.Outcome State Fault Refusal :=
  .next (s.perform .bitenc (bitencCheck s) (bitencEffect s))

end Sys2Proof.Machine
end

