-- ==== Sys2Proof/Machine/Gf.lean ====
section
/-! DEFINITION. GF(256) arithmetic and GFMUL (42_gf256.md). Addition is XOR (R134). -/

namespace Sys2Proof.Machine

/-- R136: `α^i` for any i. -/
def gfPow (i : Nat) : Byte := expRom (i % 255)

/-- R134: `a ⊗ b`. -/
def gfMul (a b : Byte) : Byte :=
  if a = 0 ∨ b = 0 then 0 else expRom (((logRom a.toNat).toNat + (logRom b.toNat).toNat) % 255)

/-- R138: `GF_RES[7:0] <- GF_OP.A ⊗ GF_OP.B`. -/
def gfmulEffect (s : State) : State := { s with gfRes := gfMul s.gfOp.a s.gfOp.b }

/-- GFMUL (R138). -/
def execGfmul (s : State) : Host.Outcome State Fault Refusal := .next (s.perform .gfmul none (gfmulEffect s))

end Sys2Proof.Machine
end

