-- ==== Sys2Proof/Machine/ReedSolomon.lean ====
section
/-! DEFINITION. Reed-Solomon encoding and interleaving, RSENC and ILEAVE (43_reed_solomon.md R141-R156). A polynomial is a
list of coefficients, highest degree first (00_scope.md R12). -/

namespace Sys2Proof.Machine

/-- Coefficient by coefficient ⊕. -/
def addCoeffs (p q : List Byte) : List Byte := List.zipWith (· ^^^ ·) p q

/-- Every coefficient ⊗ c. -/
def scaleCoeffs (c : Byte) (p : List Byte) : List Byte := p.map (fun x => gfMul x c)

/-- R143: one round of the loop, multiplication by (x ⊕ c). -/
def mulByRoot (g : List Byte) (c : Byte) : List Byte := addCoeffs (g ++ [0]) (0 :: scaleCoeffs c g)

/-- R142, R143: `genpoly(E)`, whose roots are α^0 … α^(E−1). -/
def genPoly : Nat → List Byte
  | 0 => [1]
  | i + 1 => mulByRoot (genPoly i) (gfPow i)

/-- R146: the division register after one data codeword. `g` is the generator, its leading 1 included. -/
def divStep (g : List Byte) (r : List Byte) (m : Byte) : List Byte :=
  addCoeffs (r.tail ++ [0]) (scaleCoeffs (m ^^^ r.headD 0) g.tail)

/-- R144, R146: the E EC codewords of one block. -/
def ecCodewords (e : Nat) (block : List Byte) : List Byte :=
  block.foldl (divStep (genPoly e)) (List.replicate e 0)

/-- R145: `check_layout`; `ileave` says whether ILEAVE runs it. -/
def layoutCheck (ileave : Bool) (l : Layout) : Option CmdError :=
  let c1 := l.g1.count.toNat
  let d1 := l.g1.dcw.toNat
  let c2 := l.g2.count.toNat
  let d2 := l.g2.dcw.toNat
  let d := l.dcwTotal.toNat
  let e := l.ecwBlk.toNat
  if c1 = 0 then some (internalConsistency 3)
  else if d1 = 0 then some (internalConsistency 4)
  else if 0 < c2 ∧ d2 ≠ d1 + 1 then some (internalConsistency 5)
  else if c1 * d1 + c2 * (if 0 < c2 then d2 else 0) ≠ d then some (internalConsistency 6)
  else if e < 1 ∨ Config.eMax < e then some (internalConsistency 7)
  else if Config.cwBytes < l.eccTotal then some (internalConsistency 8)
  else if ileave ∧ Config.cwBytes < l.seqTotal + (if 0 < l.remBits.toNat then 1 else 0) then
    some (internalConsistency 9)
  else none

/-- R149: the 32 bytes of GEN: the generator, then zeros. -/
def genBuffer (e : Nat) : List Byte := genPoly e ++ List.replicate (Config.genBytes - (e + 1)) 0

/-- R146, R150: the EC codewords of every block, block by block. -/
def State.allEcc (s : State) : List Byte :=
  (List.range s.layout.nb).flatMap (fun b => ecCodewords s.layout.ecwBlk.toNat (s.blockData b))

/-- The writes of RSENC (R146, R149, R150). -/
def rsencEffect (s : State) : State := (s.store genBase (genBuffer s.layout.ecwBlk.toNat)).store eccBase s.allEcc

/-- RSENC (R146). -/
def execRsenc (s : State) : Host.Outcome State Fault Refusal :=
  .next (s.perform .rsenc (layoutCheck false s.layout) (rsencEffect s))

/-- R153: column j of the data: one codeword of every block that is long enough. -/
def State.dataColumn (s : State) (j : Nat) : List Byte :=
  ((List.range s.layout.nb).filter (fun b => j < s.layout.blockLength b)).map
    (fun b => s.byteAt (dataBase + (s.layout.blockStart b + j)))

/-- R153: column j of the EC codewords. -/
def State.eccColumn (s : State) (j : Nat) : List Byte :=
  (List.range s.layout.nb).map (fun b => s.byteAt (eccBase + (b * s.layout.ecwBlk.toNat + j)))

/-- R153: the interleaved codewords. -/
def State.interleaved (s : State) : List Byte :=
  (List.range s.layout.maxLength).flatMap s.dataColumn ++ (List.range s.layout.ecwBlk.toNat).flatMap s.eccColumn

/-- R155: the remainder byte, present when REM > 0. -/
def remainderByte (l : Layout) : List Byte := if 0 < l.remBits.toNat then [0] else []

/-- The writes of ILEAVE (R153, R155). -/
def ileaveEffect (s : State) : State :=
  { s.store seqBase (s.interleaved ++ remainderByte s.layout) with
    seqLen := BitVec.ofNat 13 s.interleaved.length
    seqBits := BitVec.ofNat 16 (8 * s.interleaved.length + s.layout.remBits.toNat) }

/-- ILEAVE (R153). -/
def execIleave (s : State) : Host.Outcome State Fault Refusal :=
  .next (s.perform .ileave (layoutCheck true s.layout) (ileaveEffect s))

end Sys2Proof.Machine
end

