-- ==== Sys2Proof/Machine/Control.lean ====
section
/-! DEFINITION. NOP, CFG and ENCODE (40_control.md R103-R108). -/

namespace Sys2Proof.Machine

/-- NOP (R103). -/
def execNop (s : State) : Host.Outcome State Fault Refusal := .next (s.perform .nop none s)

/-- R104: the checks of CFG: VERSION, MODE, ECLEVEL. -/
def cfgCheck (s : State) : Option CmdError :=
  if !s.versionOk then some (invalidParameter 1)
  else if 2 < s.mode then some (invalidParameter 2)
  else if 3 < s.level then some (invalidParameter 3)
  else none

/-- The writes of CFG (R104): all six layout registers; as a stage of ENCODE, the layout the later stages work with. -/
def cfgEffect (s : State) : State := { s with layout := romLayout s.config }

/-- CFG (R104). -/
def execCfg (s : State) : Host.Outcome State Fault Refusal := .next (s.perform .cfg (cfgCheck s) (cfgEffect s))

/-- ENCODE (R107): the engine step of the stage ENG is in. Each stage sees the state the one before it left, the layout that
CFG has loaded included. -/
def execEncode (s : State) : Host.Outcome State Fault Refusal :=
  let u := s.stageView
  match s.encodeStage with
  | .cfg => .next (s.performStage .cfg (cfgCheck u) (cfgEffect u))
  | .bitenc => .next (s.performStage .bitenc (bitencCheck u) (bitencEffect u))
  | .rsenc => .next (s.performStage .rsenc (layoutCheck false u.layout) (rsencEffect u))
  | .ileave => .next (s.performStage .ileave (layoutCheck true u.layout) (ileaveEffect u))

end Sys2Proof.Machine
end

