-- ==== Sys2Proof/Machine/Format.lean ====
section
/-! DEFINITION. Format and version words, FMTGEN (44_mask_format.md R176-R180). -/

namespace Sys2Proof.Machine

/-- R178: the number of bits of x; 0 for 0. -/
def bitLength (x : Nat) : Nat := if x = 0 then 0 else Nat.log2 x + 1

/-- R178: the loop of `bchrem(x, g)` for a generator of degree k, at most `fuel` rounds. -/
def bchLoop (g k : Nat) : Nat → Nat → Nat
  | 0, x => x
  | fuel + 1, x => if k < bitLength x then bchLoop g k fuel (x ^^^ (g <<< (bitLength x - 1 - k))) else x

/-- R178: `bchrem(x, g)`: each round shortens x, so as many rounds as x has bits are enough. -/
def bchRem (x g : Nat) : Nat := bchLoop g (bitLength g - 1) (bitLength x) x

/-- FMT_GEN, x¹⁰+x⁸+x⁵+x⁴+x²+x+1 (R6, R179). -/
def fmtGen : Nat := 0x537
/-- FMT_XOR (R6, R179). -/
def fmtXor : Nat := 0x5412
/-- VER_BCH_GEN, a parameter at its default, the standard's generator (R6, R180, 90_conflicts.md C1; log 10). -/
def verBchGen : Nat := 0x1F25

/-- R179: `format_word(ind, m)`. -/
def formatWord (ind m : Nat) : Nat :=
  let d := (ind <<< 3) ||| m
  ((d <<< 10) ||| bchRem (d <<< 10) fmtGen) ^^^ fmtXor

/-- R180: `version_word(v)` for a generator. -/
def versionWordWith (gen v : Nat) : Nat := (v <<< 12) ||| bchRem (v <<< 12) gen

/-- R180, R176: VER_WORD: 0 below version 7. -/
def versionWord (v : Nat) : Nat := if 7 ≤ v then versionWordWith verBchGen v else 0

/-- R176: the checks of FMTGEN in their order. -/
def fmtgenCheck (s : State) (op : MaskOperand) : Option CmdError :=
  if !s.versionOk then some (invalidParameter 1)
  else if 3 < s.level then some (invalidParameter 3)
  else if s.staleBest op then some (invalidParameter 5)
  else none

/-- The writes of FMTGEN (R176). -/
def fmtgenEffect (s : State) (m : BitVec 3) : State :=
  { s with
    fmtWord := BitVec.ofNat 15 (formatWord (ecInd s.level) m.toNat)
    verWord := BitVec.ofNat 18 (versionWord s.version) }

/-- FMTGEN with either operand form (R176). -/
def fmtgen (s : State) (op : MaskOperand) : State :=
  s.perform .fmtgen (fmtgenCheck s op) (fmtgenEffect s (s.effectiveMask op))

/-- FMTGEN m (R176). -/
def execFmtgenM (m : Nat) (s : State) : Host.Outcome State Fault Refusal := .next (fmtgen s (.explicit m))

/-- FMTGEN BEST (R176, R177). -/
def execFmtgenBest (s : State) : Host.Outcome State Fault Refusal := .next (fmtgen s .best)

end Sys2Proof.Machine
end

