-- ==== Sys2Proof/Machine/Mask.lean ====
section
/-! DEFINITION. Mask evaluation and application, MEVAL and MAPPLY (44_mask_format.md R157-R175). A candidate is a list of
rows of colours, `true` dark. -/

namespace Sys2Proof.Machine

/-- R158: `MASK_FN(m, i, j)`, a parameter at its default (log 9); i is the row, j the column. -/
def maskFn (m : BitVec 3) (i j : Nat) : Bool :=
  match m.toNat with
  | 0 => (i + j) % 2 == 0
  | 1 => i % 2 == 0
  | 2 => j % 3 == 0
  | 3 => (i + j) % 3 == 0
  | 4 => (i / 2 + j / 3) % 2 == 0
  | 5 => (i * j) % 2 + (i * j) % 3 == 0
  | 6 => ((i * j) % 2 + (i * j) % 3) % 2 == 0
  | _ => ((i + j) % 2 + (i * j) % 3) % 2 == 0

/-- R159: the candidate colour of a module. -/
def maskedColour (m : BitVec 3) (r c : Nat) (md : Module) : Bool := xor md.dark (maskFn m r c && !md.rsv)

/-- R159: `cand_m` of a symbol. -/
def candidate (m : BitVec 3) (sym : List (List Module)) : List (List Bool) :=
  List.zipWith (fun r row => List.zipWith (fun c md => maskedColour m r c md) (List.range row.length) row)
    (List.range sym.length) sym

/-- The columns of a square candidate. -/
def columns (g : List (List Bool)) : List (List Bool) :=
  (List.range g.length).map (fun c => g.map (fun row => row.getD c false))

/-- R160: the 2·N lines, rows then columns. -/
def scanLines (g : List (List Bool)) : List (List Bool) := g ++ columns g

/-- R167: lengths of the maximal runs, the first one already `n` long in a colour. -/
def runsFrom (colour : Bool) (n : Nat) : List Bool → List Nat
  | [] => [n]
  | b :: rest => if b = colour then runsFrom colour (n + 1) rest else n :: runsFrom b 1 rest

/-- R167: lengths of the maximal runs of a line. -/
def runLengths : List Bool → List Nat
  | [] => []
  | b :: rest => runsFrom b 1 rest

/-- R167: the rule 1 score of a line. -/
def runScore (line : List Bool) : Nat := ((runLengths line).map (fun n => if 5 ≤ n then n - 2 else 0)).sum

/-- R167: `p1`. -/
def penalty1 (g : List (List Bool)) : Nat := ((scanLines g).map runScore).sum

/-- R168: the uniform 2 × 2 positions between two neighbouring rows. -/
def uniformBlocks : List Bool → List Bool → Nat
  | a :: b :: xs, c :: d :: ys => (if a = b ∧ a = c ∧ a = d then 1 else 0) + uniformBlocks (b :: xs) (d :: ys)
  | _, _ => 0

/-- R168: the uniform 2 × 2 positions of a candidate. -/
def blockCount : List (List Bool) → Nat
  | r0 :: r1 :: rest => uniformBlocks r0 r1 + blockCount (r1 :: rest)
  | _ => 0

/-- R168: `p2`. -/
def penalty2 (g : List (List Bool)) : Nat := 3 * blockCount g

/-- R169: the core, dark-light-dark-dark-dark-light-dark. -/
def finderCore : List Bool := [true, false, true, true, true, false, true]

/-- R169: four light modules from position t on, all inside the line. -/
def lightMargin (line : List Bool) (t : Nat) : Bool := (line.drop t).take 4 == [false, false, false, false]

/-- R169: whether a core with a light margin on at least one side stands at position t. -/
def finderAt (line : List Bool) (t : Nat) : Bool :=
  ((line.drop t).take 7 == finderCore) && ((decide (4 ≤ t) && lightMargin line (t - 4)) || lightMargin line (t + 7))

/-- R169: the rule 3 score of a line. -/
def finderScore (line : List Bool) : Nat := 40 * ((List.range (line.length - 6)).filter (finderAt line)).length

/-- R169: `p3`. -/
def penalty3 (g : List (List Bool)) : Nat := ((scanLines g).map finderScore).sum

/-- R170: dk, the dark modules of a candidate. -/
def darkCount (g : List (List Bool)) : Nat := (g.map (fun row => (row.filter (fun b => b)).length)).sum

/-- R13: `|a − b|`. -/
def distance (a b : Nat) : Nat := (a - b) + (b - a)

/-- R170: `p4`. -/
def penalty4 (g : List (List Bool)) : Nat :=
  10 * (distance (100 * darkCount g) (50 * (g.length * g.length)) / (5 * (g.length * g.length)))

/-- R163, R166: one PEN record of a candidate. -/
def penRecord (g : List (List Bool)) : PenRecord where
  p1 := BitVec.ofNat 32 (penalty1 g)
  p2 := BitVec.ofNat 32 (penalty2 g)
  p3 := BitVec.ofNat 32 (penalty3 g)
  p4 := BitVec.ofNat 32 (penalty4 g)
  total := BitVec.ofNat 32 (penalty1 g + penalty2 g + penalty3 g + penalty4 g)

/-- R163, R165: PEN, all eight candidates of one snapshot of the symbol. -/
def penFile (sym : List (List Module)) : Vector PenRecord 8 :=
  #v[penRecord (candidate 0 sym), penRecord (candidate 1 sym), penRecord (candidate 2 sym), penRecord (candidate 3 sym),
     penRecord (candidate 4 sym), penRecord (candidate 5 sym), penRecord (candidate 6 sym), penRecord (candidate 7 sym)]

/-- R164: the index of the least total, the lowest on a tie. `best` is the index of the least so far, `i` the next. -/
def selectFrom (best : Nat) (least : Nat) (i : Nat) : List Nat → Nat
  | [] => best
  | t :: rest => if t < least then selectFrom i t (i + 1) rest else selectFrom best least (i + 1) rest

/-- R164: `BEST.MASK` from the eight totals alone. -/
def selectMask (pen : Vector PenRecord 8) : BitVec 3 :=
  match pen.toList.map (fun p => p.total.toNat) with
  | [] => 0
  | t :: rest => BitVec.ofNat 3 (selectFrom 0 t 1 rest)

/-- R162: the check of MEVAL. -/
def mevalCheck (s : State) : Option CmdError := if s.versionOk then none else some (invalidParameter 1)

/-- The writes of MEVAL (R163). -/
def mevalEffect (s : State) : State :=
  { s with pen := penFile s.symbol, best := selectMask (penFile s.symbol) }

/-- MEVAL (R163). -/
def execMeval (s : State) : Host.Outcome State Fault Refusal :=
  .next (s.perform .meval (mevalCheck s) (mevalEffect s))

/-- R173: the checks of MAPPLY, VERSION and then the validity of BEST. -/
def mapplyCheck (s : State) (op : MaskOperand) : Option CmdError :=
  if !s.versionOk then some (invalidParameter 1)
  else if s.staleBest op then some (invalidParameter 5)
  else none

/-- R173: module (r, c) after MAPPLY. -/
def State.maskedModule (s : State) (m : BitVec 3) (r c : Nat) : Byte :=
  Module.toByte ⟨maskedColour m r c (s.moduleAt r c), (s.moduleAt r c).rsv⟩

/-- R173: row r of the symbol after MAPPLY. -/
def State.maskedRow (s : State) (m : BitVec 3) (r : Nat) : List Byte :=
  (List.range s.side).map (s.maskedModule m r)

/-- The writes of MAPPLY (R173): every row of the symbol of `s`, masked. -/
def mapplyEffect (s : State) (m : BitVec 3) : State :=
  (List.range s.side).foldl (fun t r => t.store (moduleAddr r 0) (s.maskedRow m r)) s

/-- MAPPLY with either operand form (R173). -/
def mapply (s : State) (op : MaskOperand) : State :=
  s.perform .mapply (mapplyCheck s op) (mapplyEffect s (s.effectiveMask op))

/-- MAPPLY m (R173). -/
def execMapplyM (m : Nat) (s : State) : Host.Outcome State Fault Refusal := .next (mapply s (.explicit m))

/-- MAPPLY BEST (R173, R174). -/
def execMapplyBest (s : State) : Host.Outcome State Fault Refusal := .next (mapply s .best)

end Sys2Proof.Machine
end

