-- ==== Sys2Proof/Machine/Dispatch.lean ====
section
/-! DEFINITION. The engine step that performs a command, one arm per row of spec/opcode_table.json (R85, R97). -/

namespace Sys2Proof.Machine

def exec (i : Instr) (s : State) : Host.Outcome State Fault Refusal :=
  match i with
  | .nop => Sys2Proof.Machine.execNop s
  | .cfg => Sys2Proof.Machine.execCfg s
  | .bitenc => Sys2Proof.Machine.execBitenc s
  | .rsenc => Sys2Proof.Machine.execRsenc s
  | .ileave => Sys2Proof.Machine.execIleave s
  | .encode => Sys2Proof.Machine.execEncode s
  | .meval => Sys2Proof.Machine.execMeval s
  | .mapplyM mask => Sys2Proof.Machine.execMapplyM mask s
  | .mapplyBest => Sys2Proof.Machine.execMapplyBest s
  | .fmtgenM mask => Sys2Proof.Machine.execFmtgenM mask s
  | .fmtgenBest => Sys2Proof.Machine.execFmtgenBest s
  | .gfmul => Sys2Proof.Machine.execGfmul s

end Sys2Proof.Machine
end

