-- ==== Sys2Proof/Machine/Step.lean ====
section
/-! DEFINITION. One step of the machine: the host's next act or the engine's next step (20_memory.md R77,
40_control.md R97, 70_reset_and_hazards.md R214). -/

namespace Sys2Proof.Machine

/-- The engine step that performs the accepted word: `legal(w)`, then the body, then completion (R97). -/
def performWord (w : Word) (s : State) : Host.Outcome State Fault Refusal :=
  match decode w with
  | .ok i => exec i s
  | .error e => .next (s.performIllegal w e)

/-- The engine's next step: nothing when it is idle (R200); while LATENCY runs, time passes (R213); else the word is
performed. -/
def engineStep (s : State) : Host.Outcome State Fault Refusal :=
  match s.eng with
  | .idle => .next s
  | .running w _ => if 0 < s.stepsLeft then .next s.tick else performWord w s

/-- One step. The scheduler of R214 is `State.hostMoves`. -/
def step (s : State) : Host.Outcome State Fault Refusal :=
  if s.hostMoves then .next s.hostStep else engineStep s

/-- The state in which the command word `w` has been accepted and its engine step is the very next one: acceptance
(R97) with no step of LATENCY and no host step left to come. QRCE fetches nothing (R80), so this stands for the fetch
(log 12). -/
def State.withFetchWord (s : State) (nbits w : Nat) : State :=
  { s.accept (BitVec.ofNat 32 (w % 2 ^ nbits)) with stepsLeft := 0, hostTurns := 0, draws := s.draws }

end Sys2Proof.Machine
end

