-- ==== Sys2Proof/Safety.lean ====
section
/-! DEFINITION. What counts as a safe run, in the terms the statements use: the invariants of the machine (memory in
canonical form, the control registers consistent with ENG, every VALID bit true of what it names), and the mathematical
notions the rules of the spec are stated against (evaluation of a polynomial over GF(256), products over GF(2), maximal
runs). Nothing here is part of the machine. -/

namespace Sys2Proof.Machine

/-! ### Invariants -/

/-- ENG and the registers it governs agree (R59, R97, R186). A running command has DONE = 0, ERR_CODE = ERR_INFO = 0 and
FATAL = 0, CMD holds its word, and ENG names a stage exactly when the word is ENCODE's; the stages after CFG work with the
layout of a legal CONFIG (R104, R107, R207). Each PEN total is the sum of its
four penalties (R45). -/
def ControlOk (s : State) : Prop :=
  (∀ w st, s.eng = .running w st →
    s.status.done = false ∧ s.status.fatal = false ∧ s.errCode = ⟨0, 0⟩ ∧ s.errInfo = ⟨0, 0, 0⟩ ∧ s.cmd = w ∧
    (st.isSome = true ↔ decode w = .ok .encode) ∧
    (∀ x, st = some x → x ≠ .cfg → s.config.legal = true ∧ s.encodeLayout = romLayout s.config)) ∧
  (∀ m : Fin 8, s.pen[m].total = s.pen[m].p1 + s.pen[m].p2 + s.pen[m].p3 + s.pen[m].p4)

/-- R28: what each VALID bit says of the state, for the bits of `v`. SEQ's sequence ends with the zero remainder bits, which
stand in one more byte when there are any (R49, R155). -/
structure ValidMeans (v : Valid) (s : State) : Prop where
  cfg : v.cfg = true → cfgCheck s = none ∧ s.layout = romLayout s.config
  data : v.data = true → bitencCheck s = none ∧
    s.bytesAt dataBase s.layout.dcwTotal.toNat =
      dataCodewords s.mode s.layout.cciWidth.toNat s.layout.dcwTotal.toNat s.message
  ecc : v.ecc = true → layoutCheck false s.layout = none ∧ s.bytesAt eccBase s.layout.eccTotal = s.allEcc
  seq : v.seq = true → layoutCheck true s.layout = none ∧ s.bytesAt seqBase s.layout.seqTotal = s.interleaved ∧
    s.seqLen.toNat = s.layout.seqTotal ∧ s.seqBits.toNat = 8 * s.layout.seqTotal + s.layout.remBits.toNat ∧
    (0 < s.layout.remBits.toNat → s.byteAt (seqBase + s.layout.seqTotal) = 0)
  mask : v.mask = true → s.versionOk = true ∧ s.pen = penFile s.symbol ∧ s.best = selectMask s.pen
  fmt : v.fmt = true → s.versionOk = true ∧ s.level ≤ 3 ∧
    s.verWord = BitVec.ofNat 18 (versionWord s.version) ∧
    ∃ m : BitVec 3, s.fmtWord = BitVec.ofNat 15 (formatWord (ecInd s.level) m.toNat)
  gf : v.gf = true → s.gfRes = gfMul s.gfOp.a s.gfOp.b

/-- The VALID bits a state answers for: VALID itself, or, between two stages of ENCODE, the bits VALID would have if the
command ended now (R99, R107). -/
def State.standing (s : State) : Valid :=
  match s.eng with
  | .idle => s.valid
  | .running _ none => s.valid
  | .running _ (some st) => (s.valid.minus (clearSet .encode)).plus st.earlierSet

/-- R28: every standing VALID bit means what it says, of the state itself or, between two stages of ENCODE, of the state the
next stage sees. -/
def ValidOk (s : State) : Prop := ValidMeans s.standing s.stageView

/-! ### The ROMs -/

/-- R52: the column DCW_TOTAL, one row a version from 1 on, the levels L, M, Q, H. -/
def dcwColumn : List (List Nat) :=
  [[19, 16, 13, 9], [34, 28, 22, 16], [55, 44, 34, 26], [80, 64, 48, 36], [108, 86, 62, 46],
   [136, 108, 76, 60], [156, 124, 88, 66], [194, 154, 110, 86], [232, 182, 132, 100], [274, 216, 154, 122],
   [324, 254, 180, 140], [370, 290, 206, 158], [428, 334, 244, 180], [461, 365, 261, 197], [523, 415, 295, 223],
   [589, 453, 325, 253], [647, 507, 367, 283], [721, 563, 397, 313], [795, 627, 445, 341], [861, 669, 485, 385]] ++
  [[932, 714, 512, 406], [1006, 782, 568, 442], [1094, 860, 614, 464], [1174, 914, 664, 514], [1276, 1000, 718, 538],
   [1370, 1062, 754, 596], [1468, 1128, 808, 628], [1531, 1193, 871, 661], [1631, 1267, 911, 701], [1735, 1373, 985, 745],
   [1843, 1455, 1033, 793], [1955, 1541, 1115, 845], [2071, 1631, 1171, 901], [2191, 1725, 1231, 961], [2306, 1812, 1286, 986],
   [2434, 1914, 1354, 1054], [2566, 1992, 1426, 1096], [2702, 2102, 1502, 1142], [2812, 2216, 1582, 1222], [2956, 2334, 1666, 1276]]

/-- R52: the column ECW_BLK (E), one row a version from 1 on, the levels L, M, Q, H. -/
def ecwColumn : List (List Nat) :=
  [[7, 10, 13, 17], [10, 16, 22, 28], [15, 26, 18, 22], [20, 18, 26, 16], [26, 24, 18, 22],
   [18, 16, 24, 28], [20, 18, 18, 26], [24, 22, 22, 26], [30, 22, 20, 24], [18, 26, 24, 28],
   [20, 30, 28, 24], [24, 22, 26, 28], [26, 22, 24, 22], [30, 24, 20, 24], [22, 24, 30, 24],
   [24, 28, 24, 30], [28, 28, 28, 28], [30, 26, 28, 28], [28, 26, 26, 26], [28, 26, 30, 28]] ++
  [[28, 26, 28, 30], [28, 28, 30, 24], [30, 28, 30, 30], [30, 28, 30, 30], [26, 28, 30, 30],
   [28, 28, 28, 30], [30, 28, 30, 30], [30, 28, 30, 30], [30, 28, 30, 30], [30, 28, 30, 30],
   [30, 28, 30, 30], [30, 28, 30, 30], [30, 28, 30, 30], [30, 28, 30, 30], [30, 28, 30, 30],
   [30, 28, 30, 30], [30, 28, 30, 30], [30, 28, 30, 30], [30, 28, 30, 30], [30, 28, 30, 30]]

/-- R52: "the data-module count from the closed formula", which the spec does not print; this formula is PRESUMED
(log 9) and stands in no part of the machine. -/
def dataModules (v : Nat) : Nat :=
  let aligned := v / 7 + 2
  (16 * v + 128) * v + 64 - (if 2 ≤ v then (25 * aligned - 10) * aligned - 55 else 0) - (if 7 ≤ v then 36 else 0)

/-! ### Answers -/

/-- `s` with the response and the count of free values of `t`: all that a transaction without effect changes. -/
def State.answeredAs (s t : State) : State := { s with draws := t.draws, resp := t.resp }

/-- R67: the latest response is OKAY, with whatever rdata. -/
def State.answersOkay (t : State) : Prop := ∃ v, t.resp = some ⟨.okay, v⟩

/-! ### Access conditions -/

/-- R71: the unmapped ranges of R64. -/
def unmappedAddr (a : Nat) : Prop :=
  (0x0064 ≤ a ∧ a ≤ 0x00FF) ∨ (0x0420 ≤ a ∧ a ≤ 0x1FFF) ∨ (0x7000 ≤ a ∧ a ≤ 0x7FFF) ∨ 0xFA61 ≤ a

/-- R69-R71: the accesses answered ERROR. -/
def accessError (a n : Nat) : Prop :=
  a % n ≠ 0 ∨ ((a ≤ 0x0063 ∨ (0x0100 ≤ a ∧ a ≤ 0x01FF)) ∧ n ≠ 4) ∨ ∃ k, k < n ∧ unmappedAddr (a + k)

/-- The address, size and kind of an access. -/
def Access.addr : Access → Nat
  | .read a _ => a.toNat
  | .write a _ _ => a.toNat

/-- The number of bytes of an access. -/
def Access.size : Access → Nat
  | .read _ sz => sz.bytes
  | .write _ sz _ => sz.bytes

/-- An access that resets the machine: a write to CTRL with SRST = 1 (R203). -/
def Access.softResets : Access → Bool
  | .read _ _ => false
  | .write a sz v => a.toNat == 4 && sz.bytes == 4 && v.getLsbD 0

/-- An act that resets the machine (R201, R203, R206). -/
def HostAct.resets : HostAct → Bool
  | .access a => a.softResets
  | .wait => false
  | .powerOn => true
  | .powerOnDuring _ => true

/-- The state in which a command that failed with an error has ended (R98, R184, R185): ERR_CODE, ERR_INFO, STATUS, VALID
and ENG have changed and nothing else. `op` is the opcode reported, `kept` the VALID bits left. -/
def State.failed (s : State) (op : Byte) (code : BitVec 4) (detail : Byte) (pos : BitVec 16) (chr : Byte)
    (kept : Valid) : State :=
  { s with
    errCode := ⟨code, op⟩
    errInfo := ⟨pos, chr, detail⟩
    valid := kept
    eng := .idle
    status := { done := true, err := true, ovf := s.status.ovf || s.status.err, rej := s.status.rej,
                fatal := s.status.fatal || code == 4 } }

/-- The state in which a command that succeeded has ended, its outputs apart (R98): ENG is idle, DONE is set and VALID is
as given. -/
def State.succeeded (s : State) (valid : Valid) : State :=
  { s with valid := valid, eng := .idle, status := { s.status with done := true } }

/-! ### Polynomials -/

/-- The value at x of a polynomial over GF(256), coefficients highest degree first. -/
def polyEval (p : List Byte) (x : Byte) : Byte := p.foldl (fun acc c => gfMul acc x ^^^ c) 0

/-- R142: the value at x of (x ⊕ α^0) ⊗ … ⊗ (x ⊕ α^(E−1)). -/
def rootProduct (e : Nat) (x : Byte) : Byte := (List.range e).foldl (fun acc i => gfMul acc (x ^^^ gfPow i)) 1

/-- Multiplication by x modulo 0x11D (R131). -/
def timesX (a : Byte) : Byte := (a <<< 1) ^^^ (if a.getLsbD 7 then 0x1D else 0)

/-- The product of two polynomials over GF(2) modulo 0x11D, bit by bit of the second from its n-th downwards. -/
def polyProduct (a b : Byte) : Nat → Byte
  | 0 => 0
  | n + 1 => timesX (polyProduct a b n) ^^^ (if b.getMsbD n then a else 0)

/-- The product of a bit string of n bits and a generator, as polynomials over GF(2) (R178). -/
def bitProduct (q g : Nat) : Nat → Nat
  | 0 => 0
  | n + 1 => bitProduct q g n ^^^ (if q.testBit n then g <<< n else 0)

/-- R144: the product of a generator g of degree E and a polynomial q, as |q| + E coefficients: multiplication by x and
addition of one multiple of g for every coefficient of q. -/
def polyTimes (g q : List Byte) : List Byte :=
  q.foldl (fun acc c => addCoeffs (acc ++ [0]) (List.replicate (acc.length + 1 - g.length) 0 ++ scaleCoeffs c g))
    (List.replicate (g.length - 1) 0)

/-! ### Lines -/

/-- R160: row r of a candidate. -/
def gridRow (g : List (List Bool)) (r : Nat) : List Bool := g.getD r []

/-- R160: column c of an n × n candidate. -/
def gridColumn (g : List (List Bool)) (n c : Nat) : List Bool := (List.range n).map (fun r => (g.getD r []).getD c false)

/-- The sum of a score over the 2 n lines of an n × n candidate (R160). -/
def sumOverLines (score : List Bool → Nat) (g : List (List Bool)) (n : Nat) : Nat :=
  ((List.range n).map (fun r => score (gridRow g r))).sum + ((List.range n).map (fun c => score (gridColumn g n c))).sum

/-- R167: the L modules from i on are a maximal run of the line: inside it, of one colour, not extendable. -/
def maximalRun (line : List Bool) (i len : Nat) : Bool :=
  decide (0 < len) && decide (i + len ≤ line.length) &&
  (List.range len).all (fun k => line.getD (i + k) false == line.getD i false) &&
  (i == 0 || line.getD (i - 1) false != line.getD i false) &&
  (i + len == line.length || line.getD (i + len) false != line.getD i false)

/-- R167: the sum of L − 2 over the maximal runs of length L ≥ 5 of a line. -/
def maximalRunScore (line : List Bool) : Nat :=
  ((List.range line.length).map (fun i =>
    ((List.range (line.length + 1)).map (fun len => if maximalRun line i len && decide (5 ≤ len) then len - 2 else 0)).sum)).sum

/-- R168: whether the 2 × 2 position (r, c) of a candidate is uniform. -/
def uniformAt (g : List (List Bool)) (r c : Nat) : Bool :=
  let at' := fun i j => (g.getD i []).getD j false
  at' r c == at' r (c + 1) && at' r c == at' (r + 1) c && at' r c == at' (r + 1) (c + 1)

/-- R168: the number of uniform positions of an n × n candidate. -/
def uniformPositions (g : List (List Bool)) (n : Nat) : Nat :=
  ((List.range (n - 1)).map (fun r => ((List.range (n - 1)).filter (fun c => uniformAt g r c)).length)).sum

/-- R169: whether a core stands at position t of a line, with four light modules inside the line on one side at least. -/
def finderOccurrence (line : List Bool) (t : Nat) : Bool :=
  let dark := fun k => line.getD k false
  decide (t + 7 ≤ line.length) &&
  (dark t && !dark (t + 1) && dark (t + 2) && dark (t + 3) && dark (t + 4) && !dark (t + 5) && dark (t + 6)) &&
  ((decide (4 ≤ t) && !dark (t - 4) && !dark (t - 3) && !dark (t - 2) && !dark (t - 1)) ||
   (decide (t + 10 ≤ line.length - 1) && !dark (t + 7) && !dark (t + 8) && !dark (t + 9) && !dark (t + 10)))

/-- R169: 40 for each occurrence in a line. -/
def finderOccurrenceScore (line : List Bool) : Nat :=
  ((List.range line.length).map (fun t => if finderOccurrence line t then 40 else 0)).sum

/-- A grid of n rows of n entries. -/
def Square {α : Type} (n : Nat) (g : List (List α)) : Prop := g.length = n ∧ ∀ row ∈ g, row.length = n

end Sys2Proof.Machine
end

