-- ==== Sys2Proof/Certificates/Slice0/Obligations.lean ====
section
/-! DEFINITION. The statements about QRCE, for the provers. Each docstring names the rule of spec/ it formalises and, where
a clause rests on a choice of the model, the log entry. `State.failed` and `State.succeeded` (Sys2Proof/Safety.lean) are
the state in which a command has ended; both are record updates, so what they do not name is unchanged. -/

open Sys2Proof Sys2Proof.Machine

/-! ### Reset -/

/-- R202: every register and every PEN word after reset; every command that reads CONFIG then fails with
INVALID_PARAMETER. -/
def Obligations.ResetRegisterValues : Prop :=
  (∀ r : Reg, State.reset.readReg r = if r = .id then 0x51520107 else if r = .config then 0x00007300 else 0) ∧
  (∀ off, off < 0x100 → State.reset.penWord off = 0) ∧
  (∀ i : Instr, i ≠ .nop → i ≠ .rsenc → i ≠ .ileave → i ≠ .gfmul →
    ∃ t, exec i State.reset = .next t ∧ t.errCode.code = 1)

/-- The reset state meets the invariants of `MemoryStaysCanonical`, `ControlStaysConsistent` and
`ValidBitsStayTrue`. -/
def Obligations.ResetMeetsInvariants : Prop :=
  Memory.wf State.reset.mem ∧ ControlOk State.reset ∧ ValidOk State.reset

/-- R201, R206: what a pulse of rst_n leaves. Every register has its reset value, ENG is idle, irq is low, and every byte
of memory is a free value of this power-on, which neither the earlier contents nor an earlier power-on determines (logs 4,
11, 15). -/
def Obligations.PowerOnResetLeaves : Prop :=
  ∀ s : State, ∀ t, (t = s.act .powerOn ∨ ∃ a, t = s.act (.powerOnDuring a)) →
    (∀ r : Reg, t.readReg r = State.reset.readReg r) ∧ t.pen = State.reset.pen ∧ t.eng = .idle ∧ t.irq = false ∧
    t.resp = none ∧ t.powerOns = s.powerOns + 1 ∧
    (∀ a, (windowOf a).isRam = true → t.byteAt a = keepBits a (Config.powerOnByte (s.powerOns + 1) a))

/-- R22, R203, R204: a write to CTRL, at any time. SRST = 1 puts every register at its reset value, idles the engine and
keeps every byte of memory outside the write set of the command it abandons; each byte of that write set holds a free
value (logs 6, 7; `WriteSetsOfTheCommands` states the sets). SRST = 0 does nothing. CTRL reads 0. -/
def Obligations.CtrlWriteSoftResets : Prop :=
  ∀ (s : State) (v : Word),
    let t := s.transact (.write 4 .four v)
    (v.getLsbD 0 = true →
      t = { State.reset with
            mem := t.mem, draws := t.draws, powerOns := s.powerOns, inbox := s.inbox, resp := t.resp } ∧
      (∀ a, s.busyByte a = false → t.byteAt a = s.byteAt a) ∧
      (∀ a, s.busyByte a = true →
        ∃ n, s.draws ≤ n ∧ n < t.draws ∧ t.byteAt a = keepBits a (Config.freeByte n))) ∧
    (v.getLsbD 0 = false → t = s.answeredAs t) ∧
    t.answersOkay ∧ t.readReg .ctrl = 0

/-! ### Command words -/

/-- R90: the words of the commands, both ways. -/
def Obligations.CommandWordsDecode : Prop :=
  (∀ p ∈ [((0x00000000 : Word), Instr.nop), (0x00000001, .cfg), (0x00000002, .bitenc), (0x00000003, .rsenc),
          (0x00000004, .ileave), (0x00000005, .encode), (0x00000010, .meval), (0x00000811, .mapplyBest),
          (0x00000812, .fmtgenBest), (0x00000020, .gfmul), (0x00000311, .mapplyM 3), (0x00000212, .fmtgenM 2)],
    decode p.1 = .ok p.2 ∧ encode p.2 = p.1) ∧
  (∀ m, m < 8 →
    decode (BitVec.ofNat 32 (0x11 + 0x100 * m)) = .ok (.mapplyM m) ∧
    encode (.mapplyM m) = BitVec.ofNat 32 (0x11 + 0x100 * m) ∧
    decode (BitVec.ofNat 32 (0x12 + 0x100 * m)) = .ok (.fmtgenM m) ∧
    encode (.fmtgenM m) = BitVec.ofNat 32 (0x12 + 0x100 * m)) ∧
  ∃ e, decode 0x00000A11 = .error e ∧ e.detail = 4

/-- R83, R84: decoder and encoder agree, on every word and every command. -/
def Obligations.DecodeAndEncodeAgree : Prop :=
  ∀ (w : Word) (i : Instr), decode w = .ok i ↔ i.WellFormed ∧ encode i = w

/-- R89: a word is legal exactly when it is one of 26. -/
def Obligations.ExactlyTwentySixLegalWords : Prop :=
  ∃ legal : List Word, legal.length = 26 ∧ legal.Nodup ∧
    (∀ w, w ∈ legal ↔
      w ∈ [(0x00 : Word), 0x01, 0x02, 0x03, 0x04, 0x05, 0x10, 0x20, 0x811, 0x812] ∨
      ∃ m : Fin 8, w = BitVec.ofNat 32 (0x11 + 0x100 * m.val) ∨ w = BitVec.ofNat 32 (0x12 + 0x100 * m.val)) ∧
    ∀ w, w ∈ legal ↔ ∃ i, decode w = .ok i

/-- R86, R87, R88: the four checks in their order, on the fields of the word as numbers. An illegal word records
ILLEGAL_COMMAND with its OP field and does nothing else; a legal one runs its command. -/
def Obligations.IllegalWordsRecordTheirDetail : Prop :=
  ∀ (w : Word) (s : State),
    let op := w.toNat % 256
    let arg := w.toNat / 256 % 16
    let rsvd := w.toNat / 4096
    let bad : Option Byte :=
      if op ∉ [0x00, 0x01, 0x02, 0x03, 0x04, 0x05, 0x10, 0x11, 0x12, 0x20] then some 1
      else if rsvd ≠ 0 then some 2
      else if op ∉ [0x11, 0x12] ∧ arg ≠ 0 then some 3
      else if op ∈ [0x11, 0x12] ∧ 8 ≤ arg ∧ arg % 8 ≠ 0 then some 4
      else none
    match bad with
    | some d => performWord w s = .next (s.failed (BitVec.ofNat 8 op) 5 d 0 0 s.valid)
    | none => ∃ i, decode w = .ok i ∧ performWord w s = exec i s

/-! ### The step -/

/-- R86, R97: when it is the engine's turn and LATENCY has passed, the step is `exec` of the command that the accepted
word decodes to, at that state and with nothing around it; for an illegal word it records the error. The state
`withFetchWord` builds is such a state (log 12). -/
def Obligations.StepRunsTheDecodedCommand : Prop :=
  (∀ (s : State) (w : Word) (st : Option Stage), s.eng = .running w st → s.stepsLeft = 0 → s.hostMoves = false →
    (∀ i, decode w = .ok i → step s = exec i s) ∧
    (∀ i, i.WellFormed → w = encode i → step s = exec i s) ∧
    (∀ e, decode w = .error e → step s = .next (s.failed (w.setWidth 8) 5 e.detail 0 0 s.valid))) ∧
  (∀ (s : State) (i : Instr), i.WellFormed →
    let t := s.withFetchWord 32 (encode i).toNat
    t.eng = .running (encode i) (firstStage (encode i)) ∧ step t = exec i t)

/-- R77, R200, R213, R214: what a step is when it performs no command. The host's oldest act takes place when the engine
is idle or the scheduler grants the host a step (logs 1, 2); an idle engine does nothing (log 14); a step of LATENCY
changes the model's own counters alone (log 3). No step and no command ends in a fault or a refusal (R193, log 14). -/
def Obligations.OtherSteps : Prop :=
  ∀ s : State,
    (∀ a rest, s.inbox = a :: rest → (s.busy = false ∨ 0 < s.hostTurns) →
      step s = .next (({ s with inbox := rest, hostTurns := s.hostTurns - 1 } : State).act a)) ∧
    (s.inbox = [] → s.eng = .idle → step s = .next s) ∧
    (∀ w st, s.eng = .running w st → (s.inbox = [] ∨ s.hostTurns = 0) → 0 < s.stepsLeft →
      ∃ turns, step s = .next { s with stepsLeft := s.stepsLeft - 1, hostTurns := turns, draws := s.draws + 1 }) ∧
    (∃ t, step s = .next t) ∧ (∀ i, ∃ t, exec i s = .next t)

/-- R214: every accepted command completes. From any state with a command running, whatever accesses the host makes
meanwhile (only a reset is left out), some number of steps leads to its completion: ENG idle, DONE set, CMD unchanged. It
rests on the form the model gives R214's fairness and LATENCY: finitely many host steps before each engine step (log 2),
and finitely many engine steps before the one that performs the command or stage (log 3). -/
def Obligations.AcceptedCommandCompletes : Prop :=
  ∀ (s : State) (w : Word) (st : Option Stage), s.eng = .running w st → (∀ a ∈ s.inbox, a.resets = false) →
    ∃ (n : Nat) (t : State), Host.Core.run Sys2Proof.core n s = .next t ∧
      t.eng = .idle ∧ t.status.done = true ∧ t.cmd = s.cmd

/-! ### Bus -/

/-- R69, R70, R71, R72: which accesses are answered ERROR, and that they change nothing but the response. -/
def Obligations.ErrorAccessesChangeNothing : Prop :=
  ∀ (s : State) (x : Access),
    (accessError x.addr x.size → s.transact x = { s with resp := some ⟨.error, 0⟩ }) ∧
    (¬ accessError x.addr x.size → ∃ v, (s.transact x).resp = some ⟨.okay, v⟩)

/-- R37, R66, R68, R75, R76, R208: reads. A read changes nothing (the response and the counter of free values are the
model's). An OKAY read returns its location: the register, the PEN word, or the bytes, the first in bits 7:0, and zeros
above them; ECW_TOTAL always reads as the product of the layout registers. A register, PEN word or byte in the running
command's write set is instead a free value drawn by this read alone (log 5; `WriteSetsOfTheCommands` states the sets and
names logs 7 and 17); the reserved PEN words read 0 even then (log 8). While the engine is busy, STATUS reads with bit 0
set. -/
def Obligations.ReadsReturnTheLocation : Prop :=
  ∀ (s : State) (a : BitVec 16) (sz : Size),
    let t := s.transact (.read a sz)
    t = s.answeredAs t ∧
    (¬ accessError a.toNat sz.bytes → t.draws = s.draws + sz.bytes ∧ ∃ v, t.resp = some ⟨.okay, v⟩ ∧
      (a.toNat < 0x64 →
        (s.busyReg (regAt a.toNat) = true → v = Config.freeWord s.draws) ∧
        (s.busyReg (regAt a.toNat) = false → v = s.readReg (regAt a.toNat)) ∧
        (a.toNat = 0x40 →
          v.toNat = (s.layout.g1.count.toNat + s.layout.g2.count.toNat) * s.layout.ecwBlk.toNat)) ∧
      (0x100 ≤ a.toNat → a.toNat < 0x200 →
        (s.busyPen = true → a.toNat % 32 < 20 → v = Config.freeWord s.draws) ∧
        (s.busyPen = false → v = s.penWord (a.toNat - 0x100)) ∧
        (20 ≤ a.toNat % 32 → v = 0)) ∧
      (∀ k, 0x200 ≤ a.toNat → k < sz.bytes →
        v.extractLsb' (8 * k) 8 =
          if s.busyByte (a.toNat + k) then Config.freeByte (s.draws + k)
          else if a.toNat < 0x300 then expRom (a.toNat - 0x200 + k)
          else if a.toNat < 0x400 then logRom (a.toNat - 0x300 + k)
          else s.byteAt (a.toNat + k)) ∧
      (0x200 ≤ a.toNat → v.toNat < 2 ^ (8 * sz.bytes)) ∧
      (a.toNat = 8 → s.busy = true → v.getLsbD 0 = true)) ∧
    (s.busy = false → s.busyReg (regAt a.toNat) = false ∧ s.busyPen = false ∧ s.busyByte a.toNat = false)

/-- R67, R68, R74, R28: an OKAY host write to a byte window while the engine is idle sets byte k of the access to bits
8k+7:8k, of which MATRIX keeps two, leaves every other byte alone, and clears the VALID bits of R28's table. -/
def Obligations.MemoryWriteStoresItsBytes : Prop :=
  ∀ (s : State) (a : BitVec 16) (sz : Size) (v : Word), s.busy = false → ¬ accessError a.toNat sz.bytes →
    ((0x2000 ≤ a.toNat ∧ a.toNat < 0x7000) ∨ 0x8000 ≤ a.toNat) →
    let t := s.transact (.write a sz v)
    let c : Valid :=
      if a.toNat < 0x5000 then { data := true, ecc := true, seq := true }
      else if a.toNat < 0x6000 then { ecc := true, seq := true }
      else if a.toNat < 0x7000 then { seq := true }
      else { mask := true }
    t = ({ s with mem := t.mem, valid := s.valid.minus c } : State).answeredAs t ∧ t.answersOkay ∧
    ∀ x, t.byteAt x =
      if a.toNat ≤ x ∧ x < a.toNat + sz.bytes then
        (let b := v.extractLsb' (8 * (x - a.toNat)) 8
         if 0x8000 ≤ a.toNat then b &&& 3 else b)
      else s.byteAt x

/-- R20, R24, R28-R36, R44: a host write to an RW register while the engine is idle. It reads back without its reserved
bits, every other register but VALID (and ECW_TOTAL, which is computed) and every byte and PEN word keeps its value, and
VALID loses the bits of R28's table. -/
def Obligations.RegisterWritesReadBack : Prop :=
  ∀ (s : State) (v : Word), s.busy = false →
    ∀ p ∈ [(Reg.ie, (0x6 : Word), ({} : Valid)),
           (.config, 0x733F, { cfg := true, data := true, ecc := true, seq := true, mask := true, fmt := true }),
           (.msgLen, 0x3FFF, { data := true, ecc := true, seq := true }),
           (.dcwTotal, 0xFFF, { cfg := true, data := true, ecc := true, seq := true }),
           (.blkG1, 0xFFFF, { cfg := true, data := true, ecc := true, seq := true }),
           (.blkG2, 0xFFFF, { cfg := true, data := true, ecc := true, seq := true }),
           (.ecwBlk, 0xFF, { cfg := true, data := true, ecc := true, seq := true }),
           (.remBits, 0x7, { cfg := true, data := true, ecc := true, seq := true }),
           (.cciWidth, 0x1F, { cfg := true, data := true, ecc := true, seq := true }),
           (.gfOp, 0xFFFF, { gf := true })],
      let t := s.transact (.write (BitVec.ofNat 16 p.1.offset) .four v)
      t.readReg p.1 = v &&& p.2.1 ∧
      (∀ r : Reg, r ≠ p.1 → r ≠ .valid → r ≠ .ecwTotal → t.readReg r = s.readReg r) ∧
      t.valid = s.valid.minus p.2.2 ∧ t.eng = s.eng ∧ t.pen = s.pen ∧ (∀ a, t.byteAt a = s.byteAt a) ∧
      t.answersOkay

/-- 10_state.md R21-R45: the offset of every register, the value of every register in every state, by its fields at their bit
positions with all other bits reading 0 (ID and CTRL are constants, ECW_TOTAL is the product (BLK_G1.COUNT + BLK_G2.COUNT)
× ECW_BLK.E of R37), and the words of PEN. -/
def Obligations.RegisterMapAndFields : Prop :=
  (∀ p ∈ [(Reg.id, 0x00), (.ctrl, 0x04), (.status, 0x08), (.ie, 0x0C), (.cmd, 0x10), (.errCode, 0x14), (.errInfo, 0x18),
          (.valid, 0x1C), (.config, 0x20), (.msgLen, 0x24), (.dcwTotal, 0x28), (.blkG1, 0x2C), (.blkG2, 0x30),
          (.ecwBlk, 0x34), (.remBits, 0x38), (.cciWidth, 0x3C), (.ecwTotal, 0x40), (.statBits, 0x44), (.seqLen, 0x48),
          (.seqBits, 0x4C), (.best, 0x50), (.fmtWord, 0x54), (.verWord, 0x58), (.gfOp, 0x5C), (.gfRes, 0x60)],
    p.1.offset = p.2 ∧ regAt p.2 = p.1) ∧
  ∀ s : State,
    s.readReg .id = 0x51520107 ∧ s.readReg .ctrl = 0 ∧ s.readReg .cmd = s.cmd ∧
    (s.readReg .msgLen).toNat = s.msgLen.toNat ∧ (s.readReg .dcwTotal).toNat = s.layout.dcwTotal.toNat ∧
    (s.readReg .ecwBlk).toNat = s.layout.ecwBlk.toNat ∧ (s.readReg .remBits).toNat = s.layout.remBits.toNat ∧
    (s.readReg .cciWidth).toNat = s.layout.cciWidth.toNat ∧ (s.readReg .statBits).toNat = s.statBits.toNat ∧
    (s.readReg .seqLen).toNat = s.seqLen.toNat ∧ (s.readReg .seqBits).toNat = s.seqBits.toNat ∧
    (s.readReg .best).toNat = s.best.toNat ∧ (s.readReg .fmtWord).toNat = s.fmtWord.toNat ∧
    (s.readReg .verWord).toNat = s.verWord.toNat ∧ (s.readReg .gfRes).toNat = s.gfRes.toNat ∧
    (s.readReg .ecwTotal).toNat =
      (s.layout.g1.count.toNat + s.layout.g2.count.toNat) * s.layout.ecwBlk.toNat ∧
    (s.readReg .status).toNat = s.busy.toNat + 2 * s.status.done.toNat + 4 * s.status.err.toNat +
      8 * s.status.ovf.toNat + 16 * s.status.rej.toNat + 32 * s.status.fatal.toNat ∧
    (s.readReg .ie).toNat = 2 * s.ie.doneIe.toNat + 4 * s.ie.errIe.toNat ∧
    (s.readReg .errCode).toNat = s.errCode.code.toNat + 2 ^ 8 * s.errCode.op.toNat ∧
    (s.readReg .errInfo).toNat = s.errInfo.pos.toNat + 2 ^ 16 * s.errInfo.chr.toNat + 2 ^ 24 * s.errInfo.detail.toNat ∧
    (s.readReg .valid).toNat = s.valid.cfg.toNat + 2 * s.valid.data.toNat + 4 * s.valid.ecc.toNat +
      8 * s.valid.seq.toNat + 16 * s.valid.mask.toNat + 32 * s.valid.fmt.toNat + 64 * s.valid.gf.toNat ∧
    (s.readReg .config).toNat = s.config.version.toNat + 2 ^ 8 * s.config.mode.toNat + 2 ^ 12 * s.config.ecLevel.toNat ∧
    (s.readReg .blkG1).toNat = s.layout.g1.count.toNat + 2 ^ 8 * s.layout.g1.dcw.toNat ∧
    (s.readReg .blkG2).toNat = s.layout.g2.count.toNat + 2 ^ 8 * s.layout.g2.dcw.toNat ∧
    (s.readReg .gfOp).toNat = s.gfOp.a.toNat + 2 ^ 8 * s.gfOp.b.toNat ∧
    ∀ m : Fin 8, s.penWord (0x20 * m.val) = s.pen[m].p1 ∧ s.penWord (0x20 * m.val + 0x04) = s.pen[m].p2 ∧
      s.penWord (0x20 * m.val + 0x08) = s.pen[m].p3 ∧ s.penWord (0x20 * m.val + 0x0C) = s.pen[m].p4 ∧
      s.penWord (0x20 * m.val + 0x10) = s.pen[m].total ∧ s.penWord (0x20 * m.val + 0x14) = 0 ∧
      s.penWord (0x20 * m.val + 0x18) = 0 ∧ s.penWord (0x20 * m.val + 0x1C) = 0

/-- R73: writes to RO registers, to PEN, EXP, LOG and GEN and to reserved fields are answered OKAY and change nothing
there. -/
def Obligations.ReadOnlyWritesChangeNothing : Prop :=
  ∀ (s : State) (v : Word), s.busy = false →
    (∀ r ∈ [Reg.id, .errCode, .errInfo, .valid, .ecwTotal, .statBits, .seqLen, .seqBits, .best, .fmtWord, .verWord,
            .gfRes],
      let t := s.transact (.write (BitVec.ofNat 16 r.offset) .four v)
      t = s.answeredAs t ∧ t.answersOkay) ∧
    (∀ (a : BitVec 16) (sz : Size), 0x100 ≤ a.toNat → a.toNat < 0x420 → ¬ accessError a.toNat sz.bytes →
      let t := s.transact (.write a sz v)
      t = s.answeredAs t ∧ t.answersOkay) ∧
    (∀ p ∈ [(Reg.ctrl, (0x1 : Word)), (.status, 0x1E), (.ie, 0x6), (.config, 0x733F), (.msgLen, 0x3FFF),
            (.dcwTotal, 0xFFF), (.blkG1, 0xFFFF), (.blkG2, 0xFFFF), (.ecwBlk, 0xFF), (.remBits, 0x7),
            (.cciWidth, 0x1F), (.gfOp, 0xFFFF)],
      s.transact (.write (BitVec.ofNat 16 p.1.offset) .four v) =
        s.transact (.write (BitVec.ofNat 16 p.1.offset) .four (v &&& p.2)))

/-- R207: host writes while the engine is busy, and a write to CMD while FATAL = 1. That a write to a read-only location
sets REJ while the engine is busy, as one to any other mapped address does, is the model's reading of R207 against R73 and
U18 (log 21). -/
def Obligations.BusyWritesAreRefused : Prop :=
  ∀ (s : State) (a : BitVec 16) (sz : Size) (v : Word),
    let t := s.transact (.write a sz v)
    (s.busy = true →
      (accessError a.toNat sz.bytes → t = { s with resp := some ⟨.error, 0⟩ }) ∧
      (¬ accessError a.toNat sz.bytes → t.answersOkay ∧
        if a = 8 then
          t = ({ s with
                 status := { done := s.status.done && !v.getLsbD 1, err := s.status.err && !v.getLsbD 2,
                             ovf := s.status.ovf && !v.getLsbD 3, rej := s.status.rej && !v.getLsbD 4,
                             fatal := s.status.fatal } } : State).answeredAs t
        else if a = 4 then
          (if v.getLsbD 0 then t.eng = .idle ∧ (∀ r : Reg, t.readReg r = State.reset.readReg r)
           else t = s.answeredAs t)
        else t = ({ s with status := { s.status with rej := true } } : State).answeredAs t)) ∧
    (s.busy = false → s.status.fatal = true → a = 0x10 → sz = .four →
      t = ({ s with status := { s.status with rej := true } } : State).answeredAs t ∧ t.answersOkay)

/-- R82, R207: between acceptance and completion no host act but a reset changes anything of the machine except STATUS
(the model's inbox, turns, counter of free values and response apart). -/
def Obligations.NothingElseChangesWhileBusy : Prop :=
  ∀ (s : State) (a : HostAct) (rest : List HostAct),
    s.inbox = a :: rest → s.busy = true → 0 < s.hostTurns → a.resets = false →
    ∃ t, step s = .next t ∧
      t = { s with status := t.status, inbox := t.inbox, hostTurns := s.hostTurns - 1, draws := t.draws, resp := t.resp } ∧
      t.status.done = (s.status.done && t.status.done) ∧ t.status.err = (s.status.err && t.status.err) ∧
      t.status.fatal = s.status.fatal

/-- R97, R25: acceptance of a word, and its refusal while FATAL = 1 (R186). ENG names the stage CFG exactly for ENCODE's
word. -/
def Obligations.CommandAcceptance : Prop :=
  ∀ (s : State) (w : Word), s.busy = false →
    let t := s.transact (.write 0x10 .four w)
    (s.status.fatal = false →
      t = { s with
            cmd := w, eng := .running w (if w = 5 then some .cfg else none),
            status := { s.status with done := false }, errCode := ⟨0, 0⟩, errInfo := ⟨0, 0, 0⟩,
            stepsLeft := t.stepsLeft, hostTurns := t.hostTurns, draws := t.draws, resp := t.resp } ∧
      t.statusWord.getLsbD 0 = true ∧ t.readReg .cmd = w) ∧
    (s.status.fatal = true →
      t = ({ s with status := { s.status with rej := true } } : State).answeredAs t ∧ t.readReg .cmd = s.readReg .cmd) ∧
    t.answersOkay

/-! ### Errors, status and interrupt -/

/-- R186: FATAL falls at no step but one whose host act is a reset, and rises at no step but one that records
INTERNAL_CONSISTENCY. -/
def Obligations.FatalFallsOnlyAtReset : Prop :=
  ∀ s t : State, step s = .next t →
    (s.status.fatal = true → (∀ a rest, s.inbox = a :: rest → a.resets = false) → t.status.fatal = true) ∧
    (s.status.fatal = false → t.status.fatal = true → t.errCode.code = 4 ∧ t.status.err = true ∧ t.eng = .idle)

/-- R188: a host write to STATUS, whether or not the engine is busy: bits 1 to 4 are cleared where a 1 is written, and
nothing else changes. -/
def Obligations.StatusWriteOneClears : Prop :=
  ∀ (s : State) (v : Word),
    (let t := s.transact (.write 8 .four v)
     t = ({ s with
            status := { done := s.status.done && !v.getLsbD 1, err := s.status.err && !v.getLsbD 2,
                        ovf := s.status.ovf && !v.getLsbD 3, rej := s.status.rej && !v.getLsbD 4,
                        fatal := s.status.fatal } } : State).answeredAs t ∧ t.answersOkay) ∧
    (let t := s.transact (.write 8 .four 0x1E)
     t.status.done = false ∧ t.status.err = false ∧ t.status.ovf = false ∧ t.status.rej = false ∧
     t.status.fatal = s.status.fatal ∧ t.busy = s.busy)

/-- R184, R185: what a command that ends with an error leaves. For a command that starts with ERR_CODE = 0, as every
accepted one does, a nonzero ERR_CODE afterwards means that it has written nothing but the error registers, STATUS, VALID
and ENG; VALID has lost its clear set and, for ENCODE, got the bits of the stages that succeeded. A later stage of ENCODE
that fails leaves the layout registers as the stage CFG loaded them (R107, log 8). -/
def Obligations.FailedCommandWritesNothing : Prop :=
  ∀ (i : Instr) (s t : State), s.errCode = ⟨0, 0⟩ → exec i s = .next t → t.errCode ≠ ⟨0, 0⟩ →
    let u : State := if i = .encode ∧ s.encodeStage ≠ .cfg then { s with layout := s.encodeLayout } else s
    t = u.failed t.errCode.op t.errCode.code t.errInfo.detail t.errInfo.pos t.errInfo.chr t.valid ∧
    1 ≤ t.errCode.code.toNat ∧ t.errCode.code.toNat ≤ 4 ∧
    (i = .encode → t.errCode.op = s.encodeStage.opcode.code ∧
      t.valid = (s.valid.minus (clearSet .encode)).plus s.encodeStage.earlierSet) ∧
    (i ≠ .encode → t.errCode.op = i.opcode.code ∧ t.valid = s.valid.minus (clearSet i.opcode))

/-- R190: irq is the level of its formula. A step lowers it only by a reset or by a host write to STATUS, to IE or to CMD;
a step raises it only at a completion or by a host write to IE. -/
def Obligations.IrqIsALevel : Prop :=
  ∀ s t : State, step s = .next t →
    s.irq = ((s.status.done && s.ie.doneIe) || (s.status.err && s.ie.errIe)) ∧
    (s.irq = true → t.irq = false → ∃ a rest, s.inbox = a :: rest ∧
      (a.resets = true ∨ ∃ addr v, a = .access (.write addr .four v) ∧
        (addr.toNat = 8 ∨ addr.toNat = 12 ∨ addr.toNat = 16))) ∧
    (s.irq = false → t.irq = true → (s.busy = true ∧ t.busy = false) ∨
      ∃ rest v, s.inbox = .access (.write 12 .four v) :: rest)

/-! ### NOP, CFG -/

/-- R103: NOP completes and changes nothing but STATUS.DONE and ENG, so that, accepted, it zeroes ERR_CODE and ERR_INFO
and leaves STATUS as it was with DONE set. -/
def Obligations.NopOnlyCompletes : Prop :=
  (∀ s : State, exec .nop s = .next (s.succeeded s.valid)) ∧
  (∀ s : State, s.busy = false → s.status.fatal = false →
    ∃ t, exec .nop (s.transact (.write 0x10 .four 0)) = .next t ∧
      t.errCode = ⟨0, 0⟩ ∧ t.errInfo = ⟨0, 0, 0⟩ ∧ t.statusWord = s.statusWord ||| 2)

/-- R104, R105: CFG checks VERSION, MODE and ECLEVEL in that order; with all three legal it loads the six layout registers
with the ROM values, none of them cut. R52, R53, R54: what the ROMs hold, at the spec's defaults (log 9): DCW_TOTAL and E of
every row as in R52's columns, the blocks of each row as R52's check and the codewords to be divided among them fix them,
the remainder bits, the nine indicator widths, the 5-Q row, and the examples of R104 and R105. `dataModules` is the closed
formula R52 speaks of and does not print (log 9). -/
def Obligations.CfgLoadsTheLayout : Prop :=
  (∀ s : State,
    let v := s.config.version.toNat
    let md := s.config.mode.toNat
    let e := s.config.ecLevel.toNat
    let kept := s.valid.minus { cfg := true, data := true, ecc := true, seq := true }
    if v < 1 ∨ 40 < v then exec .cfg s = .next (s.failed 1 1 1 0 0 kept)
    else if 2 < md then exec .cfg s = .next (s.failed 1 1 2 0 0 kept)
    else if 3 < e then exec .cfg s = .next (s.failed 1 1 3 0 0 kept)
    else ∃ l : Layout,
      exec .cfg s = .next (({ s with layout := l } : State).succeeded { kept with cfg := true }) ∧
      l.dcwTotal.toNat = (capRow v e).dcw ∧
      l.g1.count.toNat = (capRow v e).g1Count ∧ l.g1.dcw.toNat = (capRow v e).g1Dcw ∧
      l.g2.count.toNat = (capRow v e).g2Count ∧ l.g2.dcw.toNat = (capRow v e).g2Dcw ∧
      l.ecwBlk.toNat = (capRow v e).e ∧ l.remBits.toNat = remRom v ∧
      l.cciWidth.toNat = cciRom md (if v ≤ 9 then 0 else if v ≤ 26 then 1 else 2)) ∧
  (∀ v e, 1 ≤ v → v ≤ 40 → e ≤ 3 →
    let r := capRow v e
    let nb := r.g1Count + r.g2Count
    r.dcw = (dcwColumn.getD (v - 1) []).getD e 0 ∧ r.e = (ecwColumn.getD (v - 1) []).getD e 0 ∧
    r.dcw + nb * r.e = dataModules v / 8 ∧ r.g2Count = r.dcw % nb ∧ r.g1Dcw = r.dcw / nb ∧
    r.g2Dcw = (if r.g2Count = 0 then 0 else r.g1Dcw + 1)) ∧
  (∀ v, 1 ≤ v → v ≤ 40 → remRom v = dataModules v % 8 ∧
    remRom v = if v = 1 then 0 else if v ≤ 6 then 7 else if v ≤ 13 then 0 else if v ≤ 20 then 3 else if v ≤ 27 then 4
      else if v ≤ 34 then 3 else 0) ∧
  capRow 5 2 = ⟨62, 2, 15, 2, 16, 18⟩ ∧
  (cciRom 0 0 = 10 ∧ cciRom 0 1 = 12 ∧ cciRom 0 2 = 14 ∧ cciRom 1 0 = 9 ∧ cciRom 1 1 = 11 ∧ cciRom 1 2 = 13 ∧
   cciRom 2 0 = 8 ∧ cciRom 2 1 = 16 ∧ cciRom 2 2 = 16) ∧
  (∀ p ∈ [((0x0209 : Word), 8), (0x020A, 16), (0x101A, 12), (0x101B, 14), (0x2005, 10)],
    ∃ t, exec .cfg { State.reset with config := ConfigReg.ofWord p.1 } = .next t ∧ (t.readReg .cciWidth).toNat = p.2)

/-! ### BITENC -/

/-- R114, R116: the alphabets and the Alphanumeric index: character k of the 45 has index k. -/
def Obligations.AlphabetsAndIndexes : Prop :=
  let chars : List Nat :=
    [0x30, 0x31, 0x32, 0x33, 0x34, 0x35, 0x36, 0x37, 0x38, 0x39,
     0x41, 0x42, 0x43, 0x44, 0x45, 0x46, 0x47, 0x48, 0x49, 0x4A, 0x4B, 0x4C, 0x4D,
     0x4E, 0x4F, 0x50, 0x51, 0x52, 0x53, 0x54, 0x55, 0x56, 0x57, 0x58, 0x59, 0x5A,
     0x20, 0x24, 0x25, 0x2A, 0x2B, 0x2D, 0x2E, 0x2F, 0x3A]
  ∀ b : Byte,
    (inAlphabet 0 b = true ↔ 0x30 ≤ b.toNat ∧ b.toNat ≤ 0x39) ∧
    (inAlphabet 1 b = true ↔ b.toNat ∈ chars) ∧
    inAlphabet 2 b = true ∧
    (b.toNat ∈ chars → chars[alnumIndex b]? = some b.toNat) ∧
    (inAlphabet 0 b = true → digitValue b = b.toNat - 0x30)

/-- R112, R113, R117, R118, R121, R183: BITENC's checks in their order. Of several bad characters the first is reported, with its
index, its value and the mode, before any capacity check. Nothing but the error is written. -/
def Obligations.BitencRejectsInOrder : Prop :=
  ∀ s : State,
    let md := s.config.mode
    let n := s.msgLen.toNat
    let d := s.layout.dcwTotal.toNat
    let w := s.layout.cciWidth.toNat
    let req := requiredBits md.toNat n w
    let pos := BitVec.ofNat 16 (if req ≤ 0xFFFF then req else 0xFFFF)
    let msg := fun i => s.byteAt (0x2000 + i)
    let fails := fun (code : BitVec 4) (detail : Byte) (pos : BitVec 16) (chr : Byte) =>
      exec .bitenc s = .next (s.failed 2 code detail pos chr (s.valid.minus { data := true, ecc := true, seq := true }))
    if 2 < md.toNat then fails 1 2 0 0
    else if 8192 < n then fails 1 4 0 0
    else if w < 1 ∨ 16 < w then fails 4 1 0 0
    else if d = 0 then fails 4 2 0 0
    else
      (∀ i, i < n → inAlphabet md.toNat (msg i) = false → (∀ j, j < i → inAlphabet md.toNat (msg j) = true) →
        fails 2 (md.setWidth 8) (BitVec.ofNat 16 i) (msg i)) ∧
      ((∀ i, i < n → inAlphabet md.toNat (msg i) = true) →
        (2 ^ w ≤ n → fails 3 1 pos 0) ∧ (n < 2 ^ w → 8 * d < req → fails 3 2 pos 0))

/-- R111, R129: a BITENC that passes its checks writes codeword j of the bit stream to DATA[j] for j < D, and no other
byte, and the required bit count to STAT_BITS. -/
def Obligations.BitencWritesTheCodewords : Prop :=
  ∀ s : State,
    let md := s.config.mode.toNat
    let n := s.msgLen.toNat
    let d := s.layout.dcwTotal.toNat
    let w := s.layout.cciWidth.toNat
    let msg := (List.range n).map (fun i => s.byteAt (0x2000 + i))
    md ≤ 2 → n ≤ 8192 → 1 ≤ w → w ≤ 16 → d ≠ 0 → (∀ b ∈ msg, inAlphabet md b = true) → n < 2 ^ w →
    requiredBits md n w ≤ 8 * d →
    ∃ t, exec .bitenc s = .next t ∧
      t = ({ s with mem := t.mem, statBits := t.statBits } : State).succeeded
        { s.valid with data := true, ecc := false, seq := false } ∧
      t.statBits.toNat = requiredBits md n w ∧
      ∀ a, t.byteAt a =
        if 0x4000 ≤ a ∧ a < 0x4000 + d then codeword (bitStream md w d msg) (a - 0x4000) else s.byteAt a

/-- R126, R127, R128: the stream of a segment that fits: 8·D bits, the segment first, zeros up to the first byte boundary
at or after the terminator, then 0xEC and 0x11 in turn, 0xEC first. R8: in every stream, bit 8k is bit 7 of codeword k and
bit 8k + 7 its bit 0. -/
def Obligations.StreamAfterTheSegment : Prop :=
  (∀ (bs : List Bool) (k i : Nat), 8 * k + 8 ≤ bs.length → i < 8 →
    some ((codeword bs k).getLsbD (7 - i)) = bs[8 * k + i]?) ∧
  ∀ (md w d : Nat) (msg : List Byte),
    let len := (segment md w msg).length
    let terminated := len + (if 4 ≤ 8 * d - len then 4 else 8 * d - len)
    let firstPad := (terminated + 7) / 8
    let bs := bitStream md w d msg
    len ≤ 8 * d →
    bs.length = 8 * d ∧ bs.take len = segment md w msg ∧
    (∀ i, len ≤ i → i < 8 * firstPad → bs[i]? = some false) ∧
    (∀ j, firstPad ≤ j → j < d → codeword bs j = if (j - firstPad) % 2 = 0 then 0xEC else 0x11)

/-- R7: the first bit of `bits(v, w)` is the most significant. R119, R120, R122-R125: the segment has the required bit count,
which is `requiredBits`; it starts with the mode and count indicators, and every
group of characters stands at its place. MODE_IND is at the spec's default (log 9). -/
def Obligations.SegmentLayout : Prop :=
  (∀ v w, (bits v w).length = w ∧ ∀ i, i < w → (bits v w)[i]? = some (v.testBit (w - 1 - i))) ∧
  ∀ (w : Nat) (msg : List Byte),
    let n := msg.length
    let byte := fun k => msg.getD k 0
    (∀ md, md < 3 →
      (segment md w msg).length =
        4 + w + (if md = 0 then 10 * (n / 3) + (if n % 3 = 2 then 7 else if n % 3 = 1 then 4 else 0)
                 else if md = 1 then 11 * (n / 2) + 6 * (n % 2) else 8 * n) ∧
      requiredBits md n w = (segment md w msg).length ∧
      (segment md w msg).take 4 = bits (if md = 0 then 1 else if md = 1 then 2 else 4) 4 ∧
      ((segment md w msg).drop 4).take w = bits n w) ∧
    (∀ g, g < n / 3 → ((segment 0 w msg).drop (4 + w + 10 * g)).take 10 =
      bits (100 * digitValue (byte (3 * g)) + 10 * digitValue (byte (3 * g + 1)) + digitValue (byte (3 * g + 2))) 10) ∧
    (n % 3 = 2 → (segment 0 w msg).drop (4 + w + 10 * (n / 3)) =
      bits (10 * digitValue (byte (n - 2)) + digitValue (byte (n - 1))) 7) ∧
    (n % 3 = 1 → (segment 0 w msg).drop (4 + w + 10 * (n / 3)) = bits (digitValue (byte (n - 1))) 4) ∧
    (∀ p, p < n / 2 → ((segment 1 w msg).drop (4 + w + 11 * p)).take 11 =
      bits (45 * alnumIndex (byte (2 * p)) + alnumIndex (byte (2 * p + 1))) 11) ∧
    (n % 2 = 1 → (segment 1 w msg).drop (4 + w + 11 * (n / 2)) = bits (alnumIndex (byte (n - 1))) 6) ∧
    (∀ i, i < n → ((segment 2 w msg).drop (4 + w + 8 * i)).take 8 = bits (byte i).toNat 8)

/-- R118, R121: with a layout CFG loads, a message length whose required bits pass the capacity check also fits the count
indicator. So CAPACITY with detail 1, which R111 checks first, is raised only for messages that the capacity check would
refuse too. The ROMs are at the spec's defaults (log 9). -/
def Obligations.RomCapacityFitsTheCount : Prop :=
  ∀ c : ConfigReg, 1 ≤ c.version.toNat → c.version.toNat ≤ 40 → c.mode.toNat ≤ 2 → c.ecLevel.toNat ≤ 3 →
    ∀ n, requiredBits c.mode.toNat n (romLayout c).cciWidth.toNat ≤ 8 * (romLayout c).dcwTotal.toNat →
      n < 2 ^ (romLayout c).cciWidth.toNat

/-! ### GF(256) -/

/-- R131, R132, R57, R58: the two tables as they are read. -/
def Obligations.FieldTables : Prop :=
  expRom 0 = 1 ∧ (∀ i, i < 254 → expRom (i + 1) = (expRom i <<< 1) ^^^ (if (expRom i).getLsbD 7 then 0x1D else 0)) ∧
  (∀ a : Byte, a ≠ 0 → (logRom a.toNat).toNat < 255 ∧ expRom (logRom a.toNat).toNat = a) ∧
  (∀ i, i < 255 → (logRom (expRom i).toNat).toNat = i) ∧ expRom 255 = 1 ∧ logRom 0 = 0

/-- R135: the laws of the field. -/
def Obligations.FieldLaws : Prop :=
  (∀ a b, gfMul a b = gfMul b a) ∧ (∀ a b c, gfMul (gfMul a b) c = gfMul a (gfMul b c)) ∧
  (∀ a b c, gfMul a (b ^^^ c) = gfMul a b ^^^ gfMul a c) ∧ (∀ a, gfMul 1 a = a) ∧
  (∀ i j, gfMul (gfPow i) (gfPow j) = gfPow (i + j)) ∧
  (∀ a, a ≠ 0 → gfMul a (gfPow ((255 - (logRom a.toNat).toNat) % 255)) = 1)

/-- R131, R134: the table product is the product of polynomials over GF(2) modulo x⁸ + x⁴ + x³ + x² + 1, computed without
any table. -/
def Obligations.FieldProductIsPolynomialProduct : Prop := ∀ a b : Byte, gfMul a b = polyProduct a b 8

/-- R138: GFMUL writes the product to GF_RES, sets VALID.GF and changes nothing else; two of the spec's products. -/
def Obligations.GfmulWritesTheProduct : Prop :=
  (∀ s : State, exec .gfmul s =
    .next (({ s with gfRes := gfMul s.gfOp.a s.gfOp.b } : State).succeeded { s.valid with gf := true })) ∧
  gfMul 0x02 0x80 = 0x1D ∧ gfMul 0xFF 0xFF = 0xE2 ∧ (∀ a, gfMul a 0 = 0 ∧ gfMul 0 a = 0)

/-! ### Reed-Solomon -/

/-- R142, R143: the generator has E + 1 coefficients, the first 1 and the last α^(0 + … + (E−1)), and as a function it is
the product of the (x ⊕ α^i) for i < E. -/
def Obligations.GeneratorIsTheRootProduct : Prop :=
  ∀ e : Nat, (genPoly e).length = e + 1 ∧ (genPoly e).head? = some 1 ∧
    (genPoly e).getLast? = some (gfPow (e * (e - 1) / 2)) ∧ (∀ x, polyEval (genPoly e) x = rootProduct e x)

/-- R144: the EC codewords of a block are E in number and make, behind the block, a multiple of the generator: the block
with its EC codewords is g_E times a polynomial with as many coefficients as the block, so it vanishes at every root. -/
def Obligations.CodewordIsAMultipleOfTheGenerator : Prop :=
  ∀ (e : Nat) (block : List Byte), 1 ≤ e →
    let r := ecCodewords e block
    r.length = e ∧
    (∃ q : List Byte, q.length = block.length ∧ polyTimes (genPoly e) q = block ++ r) ∧
    (∀ i, i < e → polyEval (block ++ r) (gfPow i) = 0)

/-- R151: the corner cases of the EC codewords. -/
def Obligations.EcCornerCases : Prop :=
  (∀ block : List Byte, ecCodewords 1 block = [block.foldl (· ^^^ ·) 0]) ∧
  (∀ e n, ecCodewords e (List.replicate n 0) = List.replicate e 0) ∧
  (∀ (e : Nat) (a b : List Byte), a.length = b.length →
    ecCodewords e (List.zipWith (· ^^^ ·) a b) = List.zipWith (· ^^^ ·) (ecCodewords e a) (ecCodewords e b)) ∧
  (∀ e, ecCodewords e [1] = (genPoly e).tail) ∧
  (∀ (ileave : Bool) (l : Layout), l.dcwTotal = 0 → ∃ e, layoutCheck ileave l = some e)

/-- R145: RSENC's and ILEAVE's layout checks in their order, and that every row CFG loads passes them all. The ROMs are at
the spec's defaults (log 9). -/
def Obligations.LayoutChecksInOrder : Prop :=
  (∀ s : State,
    let c1 := s.layout.g1.count.toNat
    let d1 := s.layout.g1.dcw.toNat
    let c2 := s.layout.g2.count.toNat
    let d2 := s.layout.g2.dcw.toNat
    let d := s.layout.dcwTotal.toNat
    let e := s.layout.ecwBlk.toNat
    let rem := if s.layout.remBits = 0 then 0 else 1
    let detail : Bool → Option Byte := fun ileave =>
      if c1 = 0 then some 3
      else if d1 = 0 then some 4
      else if 0 < c2 ∧ d2 ≠ d1 + 1 then some 5
      else if c1 * d1 + (if 0 < c2 then c2 * d2 else 0) ≠ d then some 6
      else if e < 1 ∨ 31 < e then some 7
      else if 4096 < (c1 + c2) * e then some 8
      else if ileave = true ∧ 4096 < d + (c1 + c2) * e + rem then some 9
      else none
    (∀ x, detail false = some x →
      exec .rsenc s = .next (s.failed 3 4 x 0 0 (s.valid.minus { ecc := true, seq := true }))) ∧
    (detail false = none → layoutCheck false s.layout = none) ∧
    (∀ x, detail true = some x → exec .ileave s = .next (s.failed 4 4 x 0 0 (s.valid.minus { seq := true }))) ∧
    (detail true = none → layoutCheck true s.layout = none)) ∧
  (∀ c : ConfigReg, 1 ≤ c.version.toNat → c.version.toNat ≤ 40 → c.ecLevel.toNat ≤ 3 →
    layoutCheck true (romLayout c) = none ∧ (romLayout c).ecwBlk.toNat ≤ 30 ∧ (romLayout c).seqTotal ≤ 3706)

/-- R146, R147, R149, R150: an RSENC that passes its checks. GEN holds the generator and zeros; ECC[b·E + k] is EC codeword
k of block b, the c1 blocks of d1 codewords first, then the c2 blocks of d2; every other byte, and all else, is kept. -/
def Obligations.RsencWritesTheEcCodewords : Prop :=
  ∀ s : State, layoutCheck false s.layout = none →
    let c1 := s.layout.g1.count.toNat
    let d1 := s.layout.g1.dcw.toNat
    let d2 := s.layout.g2.dcw.toNat
    let nb := c1 + s.layout.g2.count.toNat
    let e := s.layout.ecwBlk.toNat
    let block := fun b =>
      if b < c1 then (List.range d1).map (fun j => s.byteAt (0x4000 + (b * d1 + j)))
      else (List.range d2).map (fun j => s.byteAt (0x4000 + (c1 * d1 + (b - c1) * d2 + j)))
    ∃ t, exec .rsenc s = .next t ∧
      t = ({ s with mem := t.mem } : State).succeeded { s.valid with ecc := true, seq := false } ∧
      (∀ i, i < 32 → t.byteAt (0x400 + i) = if i ≤ e then (genPoly e).getD i 0 else 0) ∧
      (∀ b k, b < nb → k < e → t.byteAt (0x5000 + (b * e + k)) = (ecCodewords e (block b)).getD k 0) ∧
      (∀ a, ¬ (0x400 ≤ a ∧ a < 0x420) → ¬ (0x5000 ≤ a ∧ a < 0x5000 + nb * e) → t.byteAt a = s.byteAt a)

/-- R153, R154, R155: an ILEAVE that passes its checks. SEQ in closed form, the zero remainder byte when REM > 0, SEQ_LEN and
SEQ_BITS; every other byte, and all else, is kept. -/
def Obligations.IleaveClosedForm : Prop :=
  ∀ s : State, layoutCheck true s.layout = none →
    let c1 := s.layout.g1.count.toNat
    let d1 := s.layout.g1.dcw.toNat
    let c2 := s.layout.g2.count.toNat
    let d2 := s.layout.g2.dcw.toNat
    let nb := c1 + c2
    let e := s.layout.ecwBlk.toNat
    let d := s.layout.dcwTotal.toNat
    let rem := s.layout.remBits.toNat
    let start := fun b => if b < c1 then b * d1 else c1 * d1 + (b - c1) * d2
    ∃ t, exec .ileave s = .next t ∧
      t = ({ s with mem := t.mem, seqLen := t.seqLen, seqBits := t.seqBits } : State).succeeded
        { s.valid with seq := true } ∧
      t.seqLen.toNat = d + nb * e ∧ t.seqBits.toNat = 8 * (d + nb * e) + rem ∧
      (∀ j b, j < d1 → b < nb → t.byteAt (0x6000 + (j * nb + b)) = s.byteAt (0x4000 + (start b + j))) ∧
      (∀ k, k < c2 → t.byteAt (0x6000 + (d1 * nb + k)) = s.byteAt (0x4000 + (start (c1 + k) + d1))) ∧
      (∀ j b, j < e → b < nb → t.byteAt (0x6000 + (d + (j * nb + b))) = s.byteAt (0x5000 + (b * e + j))) ∧
      (0 < rem → t.byteAt (0x6000 + (d + nb * e)) = 0) ∧
      (∀ a, ¬ (0x6000 ≤ a ∧ a < 0x6000 + (d + nb * e) + (if 0 < rem then 1 else 0)) → t.byteAt a = s.byteAt a)

/-! ### ENCODE -/

/-- R107, R99: one engine step of ENCODE performs the stage ENG names: its body, then the next stage, or completion. An
error ends the command with the stage's opcode and the bits of the stages before it. The stage's effect is the effect of the
command of its name, which `CfgLoadsTheLayout`, `BitencWritesTheCodewords`, `RsencWritesTheEcCodewords` and
`IleaveClosedForm` state, on what the stage before it left: the layout that CFG has loaded, which the layout registers take
when ENCODE ends (R77 (b), (d), log 8). -/
def Obligations.EncodePerformsItsStages : Prop :=
  ∀ (s : State) (w : Word) (st : Stage), s.eng = .running w (some st) →
    let cleared := s.valid.minus { cfg := true, data := true, ecc := true, seq := true }
    let u : State := if st = .cfg then s else { s with layout := s.encodeLayout }
    let check := match st with
      | .cfg => cfgCheck u | .bitenc => bitencCheck u
      | .rsenc => layoutCheck false u.layout | .ileave => layoutCheck true u.layout
    let after := match st with
      | .cfg => cfgEffect u | .bitenc => bitencEffect u | .rsenc => rsencEffect u | .ileave => ileaveEffect u
    (∀ e, check = some e → exec .encode s = .next (match st with
      | .cfg => u.failed 1 e.cls.code e.detail e.pos e.chr cleared
      | .bitenc => u.failed 2 e.cls.code e.detail e.pos e.chr { cleared with cfg := true }
      | .rsenc => u.failed 3 e.cls.code e.detail e.pos e.chr { cleared with cfg := true, data := true }
      | .ileave => u.failed 4 e.cls.code e.detail e.pos e.chr { cleared with cfg := true, data := true, ecc := true })) ∧
    (check = none → st ≠ .ileave → ∃ t, exec .encode s = .next t ∧
      t = { after with
            eng := .running 5 (match st with | .cfg => some .bitenc | .bitenc => some .rsenc | _ => some .ileave),
            layout := s.layout, encodeLayout := after.layout,
            stepsLeft := t.stepsLeft, hostTurns := t.hostTurns, draws := s.draws + 1 }) ∧
    (check = none → st = .ileave → exec .encode s =
      .next (after.succeeded { s.valid with cfg := true, data := true, ecc := true, seq := true }))

/-- R107: ENCODE is the pipeline. Run without host acts from its first stage, it ends in the state in which CFG, BITENC, RSENC
and ILEAVE end when they are performed one after the other and stop at the first error; the model's timing fields
(log 3) and the engine's working copy of the layout (R60, log 8) apart. -/
def Obligations.EncodeIsThePipeline : Prop :=
  ∀ s s1 s2 s3 s4 : State, s.eng = .running (encode .encode) (some .cfg) → s.inbox = [] →
    exec .cfg s = .next s1 → exec .bitenc s1 = .next s2 → exec .rsenc s2 = .next s3 → exec .ileave s3 = .next s4 →
    let u := if cfgCheck s ≠ none then s1 else if bitencCheck s1 ≠ none then s2
      else if layoutCheck false s2.layout ≠ none then s3 else s4
    ∃ (n : Nat) (t : State), Host.Core.run Sys2Proof.core n s = .next t ∧
      t = { u with stepsLeft := t.stepsLeft, hostTurns := t.hostTurns, draws := t.draws, encodeLayout := t.encodeLayout }

/-! ### Mask evaluation and application -/

/-- R158, R159, R161: candidate m of the symbol is N × N, and its module (r, c) is the stored colour XOR (the mask formula and
not reserved). MASK_FN is at the spec's default (log 9). -/
def Obligations.CandidateColours : Prop :=
  ∀ (s : State) (m : Fin 8) (n : Nat), n = 4 * s.config.version.toNat + 17 →
    let g := candidate (BitVec.ofNat 3 m.val) s.symbol
    Square n g ∧
    ∀ i j, i < n → j < n →
      let f : Bool := match m.val with
        | 0 => decide ((i + j) % 2 = 0)
        | 1 => decide (i % 2 = 0)
        | 2 => decide (j % 3 = 0)
        | 3 => decide ((i + j) % 3 = 0)
        | 4 => decide ((i / 2 + j / 3) % 2 = 0)
        | 5 => decide (i * j % 2 + i * j % 3 = 0)
        | 6 => decide ((i * j % 2 + i * j % 3) % 2 = 0)
        | _ => decide (((i + j) % 2 + i * j % 3) % 2 = 0)
      let b := s.byteAt (0x8000 + 177 * i + j)
      (g.getD i []).getD j false = xor (b.getLsbD 0) (f && !b.getLsbD 1)

/-- R162, R163, R165: MEVAL with a legal VERSION writes the four penalties of the eight candidates of the symbol as it stands
and their exact sum to PEN, and the selection to BEST; no byte of memory changes. With an illegal VERSION it fails. -/
def Obligations.MevalScoresTheCandidates : Prop :=
  ∀ s : State,
    if s.config.version.toNat < 1 ∨ 40 < s.config.version.toNat then
      exec .meval s = .next (s.failed 0x10 1 1 0 0 (s.valid.minus { mask := true }))
    else ∃ p : Vector PenRecord 8,
      exec .meval s = .next (({ s with pen := p, best := selectMask p } : State).succeeded { s.valid with mask := true }) ∧
      ∀ m : Fin 8,
        let g := candidate (BitVec.ofNat 3 m.val) s.symbol
        p[m].p1.toNat = penalty1 g ∧ p[m].p2.toNat = penalty2 g ∧ p[m].p3.toNat = penalty3 g ∧
        p[m].p4.toNat = penalty4 g ∧ p[m].total.toNat = penalty1 g + penalty2 g + penalty3 g + penalty4 g

/-- R164: the selected mask has the least total, and every lower index has a greater one. -/
def Obligations.SelectionIsTheFirstLeast : Prop :=
  ∀ pen : Vector PenRecord 8, ∃ b : Fin 8, selectMask pen = BitVec.ofNat 3 b.val ∧
    (∀ k : Fin 8, pen[b].total.toNat ≤ pen[k].total.toNat) ∧
    (∀ k : Fin 8, k < b → pen[b].total.toNat < pen[k].total.toNat)

/-- R167, R168, R169, R170, R160: the four penalties of a square candidate. Rule 1: L − 2 for every maximal run of length
L ≥ 5 of every row and column. Rule 2: 3 for every uniform 2 × 2 position. Rule 3: 40 for every core of a row or column
with a light margin inside the line on one side at least. Rule 4: the balance, in integers. -/
def Obligations.PenaltyRules : Prop :=
  ∀ (g : List (List Bool)) (n : Nat), Square n g →
    penalty1 g = sumOverLines maximalRunScore g n ∧
    penalty2 g = 3 * uniformPositions g n ∧
    penalty3 g = sumOverLines finderOccurrenceScore g n ∧
    (let dk : Int := ((List.range n).map (fun r => ((List.range n).filter (fun c => (g.getD r []).getD c false)).length)).sum
     (penalty4 g : Int) = 10 * (|100 * dk - 50 * (n * n : Int)| / (5 * (n * n : Int))))

/-- R166: the bounds of the four penalties for N ≤ 177, so that no PEN word is cut. -/
def Obligations.PenaltiesFitTheirWords : Prop :=
  ∀ (g : List (List Bool)) (n : Nat), Square n g → n ≤ 177 →
    penalty1 g ≤ 2 * 177 * 175 ∧ penalty2 g ≤ 3 * 176 ^ 2 ∧ penalty3 g ≤ 40 * 2 * 177 * 171 ∧ penalty4 g ≤ 100 ∧
    penalty1 g + penalty2 g + penalty3 g + penalty4 g < 2 ^ 32

/-- R173, R174: both forms of MAPPLY. The checks in their order; else every module of the symbol takes its candidate colour
and keeps RSV, and every byte outside the symbol is kept. `maskFn` is MASK_FN, whose values `CandidateColours` states. -/
def Obligations.MapplyMasksTheSymbol : Prop :=
  ∀ (s : State) (i : Instr) (m : BitVec 3),
    ((∃ k, k < 8 ∧ i = .mapplyM k ∧ m = BitVec.ofNat 3 k) ∨ (i = .mapplyBest ∧ m = s.best)) →
    let n := 4 * s.config.version.toNat + 17
    let kept := s.valid.minus { mask := true }
    if s.config.version.toNat < 1 ∨ 40 < s.config.version.toNat then
      exec i s = .next (s.failed 0x11 1 1 0 0 kept)
    else if i = .mapplyBest ∧ s.valid.mask = false then exec i s = .next (s.failed 0x11 1 5 0 0 kept)
    else ∃ t, exec i s = .next t ∧ t = ({ s with mem := t.mem } : State).succeeded kept ∧
      (∀ r c, r < n → c < n →
        let b := s.byteAt (0x8000 + 177 * r + c)
        t.byteAt (0x8000 + 177 * r + c) =
          (if b.getLsbD 1 then 2 else 0) ||| (if xor (b.getLsbD 0) (maskFn m r c && !b.getLsbD 1) then 1 else 0)) ∧
      (∀ a, (∀ r c, r < n → c < n → a ≠ 0x8000 + 177 * r + c) → t.byteAt a = s.byteAt a)

/-- R175: MAPPLY m twice restores every byte, for memory in canonical form (`MemoryStaysCanonical`). -/
def Obligations.MapplyTwiceRestores : Prop :=
  ∀ (s : State) (m : Nat), m < 8 → Memory.wf s.mem → 1 ≤ s.config.version.toNat → s.config.version.toNat ≤ 40 →
    ∃ t u, exec (.mapplyM m) s = .next t ∧ exec (.mapplyM m) t = .next u ∧
      u = ({ s with mem := u.mem } : State).succeeded (s.valid.minus { mask := true }) ∧
      ∀ a, u.byteAt a = s.byteAt a

/-! ### Format and version words -/

/-- R176, R177: both forms of FMTGEN. The checks in their order; else FMT_WORD and VER_WORD, neither cut, and nothing else.
The EC-level indicators of L, M, Q and H are R56's. EC_IND and VER_BCH_GEN are at the spec's defaults (logs 9, 10). -/
def Obligations.FmtgenWritesTheWords : Prop :=
  ∀ (s : State) (i : Instr) (m : BitVec 3),
    ((∃ k, k < 8 ∧ i = .fmtgenM k ∧ m = BitVec.ofNat 3 k) ∨ (i = .fmtgenBest ∧ m = s.best)) →
    let v := s.config.version.toNat
    let e := s.config.ecLevel.toNat
    let kept := s.valid.minus { fmt := true }
    if v < 1 ∨ 40 < v then exec i s = .next (s.failed 0x12 1 1 0 0 kept)
    else if 3 < e then exec i s = .next (s.failed 0x12 1 3 0 0 kept)
    else if i = .fmtgenBest ∧ s.valid.mask = false then exec i s = .next (s.failed 0x12 1 5 0 0 kept)
    else ∃ f x, exec i s = .next (({ s with fmtWord := f, verWord := x } : State).succeeded { s.valid with fmt := true }) ∧
      f.toNat = formatWord (if e = 0 then 0b01 else if e = 1 then 0b00 else if e = 2 then 0b11 else 0b10) m.toNat ∧ x.toNat = if 7 ≤ v then versionWordWith 0x1F25 v else 0

/-- R178: the remainder is shorter than the generator and differs from x by a multiple of the generator over GF(2). -/
def Obligations.BchRemainderIsTheRemainder : Prop :=
  ∀ x g : Nat, 0 < g → bitLength (bchRem x g) < bitLength g ∧ ∃ q n, x = bitProduct q g n ^^^ bchRem x g

/-- R179: the 32 format words of the rule's table, and that any two differ in at least 7 bits. -/
def Obligations.FormatWordTable : Prop :=
  let table : List (List Nat) :=
    [[0x77C4, 0x72F3, 0x7DAA, 0x789D, 0x662F, 0x6318, 0x6C41, 0x6976],
     [0x5412, 0x5125, 0x5E7C, 0x5B4B, 0x45F9, 0x40CE, 0x4F97, 0x4AA0],
     [0x355F, 0x3068, 0x3F31, 0x3A06, 0x24B4, 0x2183, 0x2EDA, 0x2BED],
     [0x1689, 0x13BE, 0x1CE7, 0x19D0, 0x0762, 0x0255, 0x0D0C, 0x083B]]
  (∀ e m, e < 4 → m < 8 →
    formatWord (if e = 0 then 1 else if e = 1 then 0 else if e = 2 then 3 else 2) m = (table.getD e []).getD m 0) ∧
  (∀ d m, d < 4 → m < 8 →
    formatWord d m = (((8 * d + m) * 1024) ^^^ bchRem ((8 * d + m) * 1024) 0x537) ^^^ 0x5412) ∧
  (∀ a b, a < 32 → b < 32 → a ≠ b →
    7 ≤ ((List.range 15).filter (fun k =>
      (formatWord (a / 8) (a % 8)).testBit k != (formatWord (b / 8) (b % 8)).testBit k)).length)

/-- R180: the 34 version words with the default generator (log 10), their distance, and the words of DOC0's literal
generator that the rule gives. -/
def Obligations.VersionWordTable : Prop :=
  let table : List Nat :=
    [0x07C94, 0x085BC, 0x09A99, 0x0A4D3, 0x0BBF6, 0x0C762, 0x0D847, 0x0E60D, 0x0F928,
     0x10B78, 0x1145D, 0x12A17, 0x13532, 0x149A6, 0x15683, 0x168C9, 0x177EC, 0x18EC4,
     0x191E1, 0x1AFAB, 0x1B08E, 0x1CC1A, 0x1D33F, 0x1ED75, 0x1F250, 0x209D5, 0x216F0,
     0x228BA, 0x2379F, 0x24B0B, 0x2542E, 0x26A64, 0x27541, 0x28C69]
  (∀ v, v < 7 → versionWord v = 0) ∧
  (∀ v, 7 ≤ v → v ≤ 40 → versionWord v = table.getD (v - 7) 0) ∧
  (∀ v, v ≤ 40 → versionWordWith 0x1F25 v = (v * 4096) ^^^ bchRem (v * 4096) 0x1F25) ∧
  (∀ a b, 7 ≤ a → a < b → b ≤ 40 →
    8 ≤ ((List.range 18).filter (fun k => (versionWord a).testBit k != (versionWord b).testBit k)).length) ∧
  versionWordWith 0x1F65 7 = 0x07D94 ∧ versionWordWith 0x1F65 8 = 0x086BC ∧ versionWordWith 0x1F65 40 = 0x28329

/-! ### Whole-machine rules -/

/-- R96, R98: a command changes nothing outside its write set but STATUS, ERR_CODE, ERR_INFO, VALID and ENG (and ECW_TOTAL,
which is computed from the layout registers). The write sets are those the bus reads of R208 use, which
`WriteSetsOfTheCommands` states (logs 7, 8). R77 (d): a stage of ENCODE that does not end the command changes no register
outside the write set, ECW_TOTAL included, nor the layout registers (log 8). -/
def Obligations.CommandsChangeOnlyTheirWriteSet : Prop :=
  ∀ (s t : State) (i : Instr) (st : Option Stage), i.WellFormed → s.eng = .running (encode i) st → exec i s = .next t →
    (∀ a, s.busyByte a = false → t.byteAt a = s.byteAt a) ∧
    (∀ r : Reg, s.busyReg r = false → r ≠ .status → r ≠ .errCode → r ≠ .errInfo → r ≠ .ecwTotal →
      t.readReg r = s.readReg r) ∧
    (s.busyPen = false → t.pen = s.pen) ∧
    (t.busy = true → t.layout = s.layout ∧ ∀ r : Reg, s.busyReg r = false → t.readReg r = s.readReg r)

/-- Memory stays in canonical form: addresses strictly rising and mapped (R64), module bytes of two bits (R51, R74). -/
def Obligations.MemoryStaysCanonical : Prop :=
  ∀ s t : State, Memory.wf s.mem → step s = .next t → Memory.wf t.mem

/-- The control registers stay consistent with ENG (R59, R97, R186), the stages of ENCODE after CFG work with the ROM layout of
a legal CONFIG (R104, R107, R207), and every PEN total stays the sum of its penalties (R45). -/
def Obligations.ControlStaysConsistent : Prop :=
  ∀ s t : State, ControlOk s → step s = .next t → ControlOk t

/-- R28: every standing VALID bit says what its meaning says, after every step: VALID never vouches for a stale result,
whatever host and engine do. The standing bits (`State.standing`) are those of the VALID register; between two stages of
ENCODE they are the bits the register would get if the command ended now (R99), because until the command ends the register
keeps its old bits, which can be stale there (R98, log 18); they speak of the state the next stage sees, with the layout that
CFG has loaded (`State.stageView`, log 8). A standing SEQ speaks of the zero remainder byte too (R49, R155). -/
def Obligations.ValidBitsStayTrue : Prop :=
  ∀ s t : State, ControlOk s → ValidOk s → step s = .next t → ValidOk t

/-- R96: the write sets, command by command, as the reads during BUSY, the abandoned commands and
`CommandsChangeOnlyTheirWriteSet` use them. A set ends where its memory ends (log 6). ENCODE's counts under the layout of the
layout registers, that of the present stage and, with a legal CONFIG, the one its CFG stage loads (log 7). An idle engine and an illegal word have none
(log 17). -/
def Obligations.WriteSetsOfTheCommands : Prop :=
  ∀ s : State,
    let layoutRegs := [Reg.dcwTotal, .blkG1, .blkG2, .ecwBlk, .remBits, .cciWidth]
    let ecc := fun (l : Layout) => (l.g1.count.toNat + l.g2.count.toNat) * l.ecwBlk.toNat
    let seq := fun (l : Layout) => l.dcwTotal.toNat + ecc l + if l.remBits = 0 then 0 else 1
    let inData := fun (l : Layout) (a : Nat) => 0x4000 ≤ a ∧ a < 0x4000 + l.dcwTotal.toNat
    let inEcc := fun (l : Layout) (a : Nat) => 0x5000 ≤ a ∧ a < 0x5000 + ecc l ∧ a < 0x6000
    let inGen := fun (a : Nat) => 0x400 ≤ a ∧ a < 0x420
    let inSeq := fun (l : Layout) (a : Nat) => 0x6000 ≤ a ∧ a < 0x6000 + seq l ∧ a < 0x7000
    let inAny := fun (l : Layout) (a : Nat) => inData l a ∨ inEcc l a ∨ inGen a ∨ inSeq l a
    let n := 4 * s.config.version.toNat + 17
    let inSymbol := fun (a : Nat) => ∃ r c, r < n ∧ c < n ∧ r < 177 ∧ c < 177 ∧ a = 0x8000 + 177 * r + c
    let legal := 1 ≤ s.config.version.toNat ∧ s.config.version.toNat ≤ 40 ∧ s.config.mode.toNat ≤ 2 ∧
      s.config.ecLevel.toNat ≤ 3
    (∀ (i : Instr) (st : Option Stage), i.WellFormed → s.eng = .running (encode i) st →
      (∀ r : Reg, s.busyReg r = true ↔
        match i with
        | .nop => False
        | .cfg => r ∈ layoutRegs ∨ r = .valid
        | .bitenc => r = .statBits ∨ r = .valid
        | .rsenc => r = .valid
        | .ileave => r = .seqLen ∨ r = .seqBits ∨ r = .valid
        | .encode => r ∈ layoutRegs ∨ r = .statBits ∨ r = .seqLen ∨ r = .seqBits ∨ r = .valid
        | .meval => r = .best ∨ r = .valid
        | .mapplyM _ => r = .valid
        | .mapplyBest => r = .valid
        | .fmtgenM _ => r = .fmtWord ∨ r = .verWord ∨ r = .valid
        | .fmtgenBest => r = .fmtWord ∨ r = .verWord ∨ r = .valid
        | .gfmul => r = .gfRes ∨ r = .valid) ∧
      (s.busyPen = true ↔ i = .meval) ∧
      (∀ a : Nat, s.busyByte a = true ↔
        match i with
        | .nop => False
        | .cfg => False
        | .bitenc => inData s.layout a
        | .rsenc => inEcc s.layout a ∨ inGen a
        | .ileave => inSeq s.layout a
        | .encode => inAny s.layout a ∨ inAny (if st = none ∨ st = some .cfg then s.layout else s.encodeLayout) a ∨ (legal ∧ inAny (romLayout s.config) a)
        | .meval => False
        | .mapplyM _ => inSymbol a
        | .mapplyBest => inSymbol a
        | .fmtgenM _ => False
        | .fmtgenBest => False
        | .gfmul => False)) ∧
    ((s.eng = .idle ∨ ∃ w st e, s.eng = .running w st ∧ decode w = .error e) →
      (∀ r : Reg, s.busyReg r = false) ∧ s.busyPen = false ∧ ∀ a : Nat, s.busyByte a = false)
end

