-- ==== Sys2Proof/Laws/Decode.lean ====
section
/-! SUPPORT. The decoder and the encoder: what each word stands for (30_encoding.md R83-R90). -/

namespace Sys2Proof

theorem opField_toNat (w : Word) : (opField w).toNat = w.toNat % 256 := by
  simp [opField, BitVec.extractLsb'_toNat]

theorem argField_toNat (w : Word) : (argField w).toNat = w.toNat / 256 % 16 := by
  simp [argField, BitVec.extractLsb'_toNat, Nat.shiftRight_eq_div_pow]

theorem rsvdField_toNat (w : Word) : (rsvdField w).toNat = w.toNat / 4096 := by
  have := w.isLt
  simp [rsvdField, BitVec.extractLsb'_toNat, Nat.shiftRight_eq_div_pow]
  omega

theorem argMask_toNat (w : Word) : (argMask w).toNat = w.toNat / 256 % 8 := by
  simp [argMask, BitVec.extractLsb'_toNat, Nat.shiftRight_eq_div_pow]

theorem argBest_eq (w : Word) : argBest w = decide (8 ≤ w.toNat / 256 % 16) := by
  unfold argBest
  rw [BitVec.getLsbD, Nat.testBit_eq_decide_div_mod_eq]
  congr 1
  apply propext
  omega

/-- A word is determined by its three fields. -/
theorem word_ext {v w : Word} (h1 : opField v = opField w) (h2 : argField v = argField w)
    (h3 : rsvdField v = rsvdField w) : v = w := by
  apply BitVec.eq_of_toNat_eq
  have e1 := congrArg BitVec.toNat h1
  have e2 := congrArg BitVec.toNat h2
  have e3 := congrArg BitVec.toNat h3
  rw [opField_toNat, opField_toNat] at e1
  rw [argField_toNat, argField_toNat] at e2
  rw [rsvdField_toNat, rsvdField_toNat] at e3
  omega

theorem ofCode_code (op : Opcode) : Opcode.ofCode op.code = some op := by cases op <;> rfl

theorem ofCode_eq_some_iff (b : Byte) (op : Opcode) : Opcode.ofCode b = some op ↔ b = op.code := by
  constructor
  · intro h
    apply BitVec.eq_of_toNat_eq
    unfold Opcode.ofCode at h
    split at h <;> simp_all [Opcode.code] <;> subst h <;> rfl
  · rintro rfl; exact ofCode_code op

theorem noArgument_ok_iff {w : Word} {i j : Instr} : noArgument w i = .ok j ↔ argField w = 0 ∧ i = j := by
  unfold noArgument; split <;> simp_all

theorem maskArgument_ok_iff {w : Word} {f : Nat → Instr} {b j : Instr} : maskArgument w f b = .ok j ↔
    (argBest w = true ∧ argMask w = 0 ∧ b = j) ∨ (argBest w = false ∧ f (argMask w).toNat = j) := by
  unfold maskArgument; split <;> (try split) <;> simp_all

theorem argMask_of_argField (w : Word) : (argMask w).toNat = (argField w).toNat % 8 := by rw [argMask_toNat, argField_toNat]; omega
theorem argBest_of_argField (w : Word) : argBest w = decide (8 ≤ (argField w).toNat) := by rw [argBest_eq, argField_toNat]

/-- R86: the words of a command: its opcode, no reserved bit, its ARG; and only a well-formed command has one. -/
theorem decode_ok_iff (w : Word) (i : Instr) : decode w = .ok i ↔
    opField w = i.opcode.code ∧ rsvdField w = 0 ∧ argField w = i.arg ∧ i.WellFormed := by
  unfold decode
  constructor
  · intro h
    split at h
    · cases h
    · next op hop =>
      rw [ofCode_eq_some_iff] at hop
      split at h
      · next hr =>
        rw [hop]
        have ha := (argField w).isLt
        cases op <;> simp only [decodeArg, noArgument_ok_iff, maskArgument_ok_iff] at h
        case mapply =>
          rcases h with ⟨h1, h2, rfl⟩ | ⟨h1, rfl⟩
          · refine ⟨rfl, hr, ?_, rfl⟩
            apply BitVec.eq_of_toNat_eq
            rw [argBest_of_argField] at h1; have := congrArg BitVec.toNat h2; rw [argMask_of_argField] at this
            simp [Instr.arg] at *; omega
          · refine ⟨rfl, hr, ?_, ?_⟩
            · apply BitVec.eq_of_toNat_eq
              rw [argBest_of_argField] at h1
              simp [Instr.arg, argMask_of_argField] at *; omega
            · have := (argMask w).isLt
              simpa [Instr.WellFormed, Instr.wellFormed, maskOk] using this
        case fmtgen =>
          rcases h with ⟨h1, h2, rfl⟩ | ⟨h1, rfl⟩
          · refine ⟨rfl, hr, ?_, rfl⟩
            apply BitVec.eq_of_toNat_eq
            rw [argBest_of_argField] at h1; have := congrArg BitVec.toNat h2; rw [argMask_of_argField] at this
            simp [Instr.arg] at *; omega
          · refine ⟨rfl, hr, ?_, ?_⟩
            · apply BitVec.eq_of_toNat_eq
              rw [argBest_of_argField] at h1
              simp [Instr.arg, argMask_of_argField] at *; omega
            · have := (argMask w).isLt
              simpa [Instr.WellFormed, Instr.wellFormed, maskOk] using this
        all_goals (obtain ⟨h, rfl⟩ := h; exact ⟨rfl, hr, h, rfl⟩)
      · cases h
  · rintro ⟨h1, h2, h3, h4⟩
    rw [h1, ofCode_code]
    simp only [h2, if_true]
    cases i <;> simp only [Instr.opcode, decodeArg, noArgument_ok_iff, maskArgument_ok_iff, h3, Instr.arg, true_and]
    case mapplyM m =>
      right
      simp [Instr.WellFormed, Instr.wellFormed, maskOk] at h4
      rw [argBest_of_argField, h3]
      simp [Instr.arg]
      refine ⟨by omega, ?_⟩
      rw [argMask_of_argField, h3]; simp [Instr.arg]; omega
    case fmtgenM m =>
      right
      simp [Instr.WellFormed, Instr.wellFormed, maskOk] at h4
      rw [argBest_of_argField, h3]
      simp [Instr.arg]
      refine ⟨by omega, ?_⟩
      rw [argMask_of_argField, h3]; simp [Instr.arg]; omega
    all_goals
      left
      refine ⟨by rw [argBest_of_argField, h3]; rfl, ?_, trivial⟩
      apply BitVec.eq_of_toNat_eq; rw [argMask_of_argField, h3]; rfl

end Sys2Proof
end

