-- ==== Sys2Proof/Laws/Lists.lean ====
section
/-! SUPPORT. Lists cut into parts of one length. -/

namespace Sys2Proof

/-- Parts of one length, one behind the other: the length of the whole. -/
theorem flatMap_range_length {α : Type} (f : Nat → List α) (e n : Nat) (h : ∀ b, b < n → (f b).length = e) :
    ((List.range n).flatMap f).length = n * e := by
  induction n with
  | zero => simp
  | succ n ih =>
    rw [List.range_succ, List.flatMap_append, List.length_append, ih fun b hb => h b (by omega)]
    simp [h n (by omega), Nat.add_mul]

/-- Parts of one length, one behind the other: element k of part b. -/
theorem flatMap_range_getD {α : Type} (f : Nat → List α) (e n : Nat) (d : α) (h : ∀ b, b < n → (f b).length = e)
    (b k : Nat) (hb : b < n) (hk : k < e) : ((List.range n).flatMap f).getD (b * e + k) d = (f b).getD k d := by
  induction n with
  | zero => omega
  | succ n ih =>
    have hl := flatMap_range_length f e n fun b hb => h b (by omega)
    rw [List.range_succ, List.flatMap_append]
    by_cases hbn : b = n
    · subst hbn
      rw [List.getD_append_right _ _ _ _ (by rw [hl]; omega), hl]
      simp
    · have : b * e + e ≤ n * e := by
        rw [← Nat.succ_mul]; exact Nat.mul_le_mul_right _ (by omega)
      rw [List.getD_append _ _ _ _ (by rw [hl]; omega)]
      exact ih (fun b hb => h b (by omega)) (by omega)

/-- An index of parts of one length is an element of one part. -/
theorem exists_part {a e n : Nat} (h : a < n * e) : ∃ b k, b < n ∧ k < e ∧ a = b * e + k := by
  have he : 0 < e := by
    rcases Nat.eq_zero_or_pos e with rfl | he
    · simp at h
    · exact he
  exact ⟨a / e, a % e, (Nat.div_lt_iff_lt_mul he).2 h, Nat.mod_lt _ he, by rw [Nat.mul_comm, Nat.div_add_mod]⟩

end Sys2Proof
end

