-- ==== Sys2Proof/Laws/Memory.lean ====
section
/-! SUPPORT. What the one read and the one write of memory bytes do: a read after a write, what a write leaves alone, and
that every write keeps the canonical form (20_memory.md R64-R74, 10_state.md R61). -/

namespace Sys2Proof.Machine

theorem byte?_append (m n : Memory) (x : Nat) :
    Memory.byte? (m ++ n) x = (Memory.byte? m x).or (Memory.byte? n x) := by
  induction m with
  | nil => rfl
  | cons c rest ih =>
    simp only [List.cons_append, Memory.byte?]
    split
    · rfl
    · exact ih

theorem byte?_filter_of_kept (p : Host.Cell → Bool) (m : Memory) (x : Nat) (h : ∀ b, p (x, b) = true) :
    Memory.byte? (m.filter p) x = Memory.byte? m x := by
  induction m with
  | nil => rfl
  | cons c rest ih =>
    obtain ⟨a, b⟩ := c
    by_cases hx : a = x
    · subst hx; simp [Memory.byte?, h]
    · by_cases hp : p (a, b) = true
      · simp [hp, Memory.byte?, hx, ih]
      · simp [hp, Memory.byte?, hx, ih]

theorem byte?_filter_of_dropped (p : Host.Cell → Bool) (m : Memory) (x : Nat) (h : ∀ b, p (x, b) = false) :
    Memory.byte? (m.filter p) x = none := by
  induction m with
  | nil => rfl
  | cons c rest ih =>
    obtain ⟨a, b⟩ := c
    by_cases hx : a = x
    · subst hx; simp [h, ih]
    · by_cases hp : p (a, b) = true
      · simp [hp, Memory.byte?, hx, ih]
      · simp [hp, ih]

theorem byte?_cells (bytes : List Byte) (a x : Nat) :
    Memory.byte? (Memory.cells a bytes) x =
      if a ≤ x ∧ x < a + bytes.length then some (keepBits x (bytes.getD (x - a) 0)) else none := by
  induction bytes generalizing a with
  | nil => simp [Memory.cells, Memory.byte?]
  | cons b rest ih =>
    simp only [Memory.cells, Memory.byte?, List.length_cons, ih]
    by_cases hx : a = x
    · subst hx; simp
    · by_cases hlt : a + 1 ≤ x ∧ x < a + 1 + rest.length
      · obtain ⟨k, rfl⟩ : ∃ k, x = a + 1 + k := ⟨x - (a + 1), by omega⟩
        rw [if_neg hx, if_pos hlt, if_pos (by omega), show a + 1 + k - (a + 1) = k by omega,
          show a + 1 + k - a = k + 1 by omega, List.getD_cons_succ]
      · rw [if_neg hx, if_neg hlt, if_neg (by omega)]

/-- Everything a write does to the listed bytes. -/
theorem byte?_store (m : Memory) (a : Nat) (bytes : List Byte) (x : Nat) :
    Memory.byte? (Memory.store m a bytes) x =
      if a ≤ x ∧ x < a + bytes.length then some (keepBits x (bytes.getD (x - a) 0)) else Memory.byte? m x := by
  unfold Memory.store
  rw [byte?_append, byte?_append, byte?_cells]
  by_cases h1 : x < a
  · rw [byte?_filter_of_kept _ _ _ (by simpa using h1), byte?_filter_of_dropped _ _ _ (by simp; omega),
      if_neg (by omega), if_neg (by omega)]
    simp
  · rw [byte?_filter_of_dropped _ _ _ (by simpa using h1)]
    by_cases h2 : x < a + bytes.length
    · rw [if_pos (by omega), if_pos (by omega)]; simp
    · rw [if_neg (by omega), if_neg (by omega), byte?_filter_of_kept _ _ _ (by simp; omega)]; simp

/-- Everything a write does to what the engine reads. -/
theorem byteAt_store (s : State) (a : Nat) (bytes : List Byte) (x : Nat) :
    (s.store a bytes).byteAt x =
      if a ≤ x ∧ x < a + bytes.length then keepBits x (bytes.getD (x - a) 0) else s.byteAt x := by
  unfold State.byteAt State.store
  simp only [byte?_store]
  by_cases h : a ≤ x ∧ x < a + bytes.length
  · rw [if_pos h, if_pos h]
  · rw [if_neg h, if_neg h]

theorem byteAt_store_outside (s : State) (a : Nat) (bytes : List Byte) (x : Nat)
    (h : ¬ (a ≤ x ∧ x < a + bytes.length)) : (s.store a bytes).byteAt x = s.byteAt x := by
  rw [byteAt_store, if_neg h]

/-- A read depends on the listed bytes and on the number of power-on resets alone. -/
theorem byteAt_congr {s t : State} (hm : t.mem = s.mem) (hp : t.powerOns = s.powerOns) (x : Nat) :
    t.byteAt x = s.byteAt x := by
  unfold State.byteAt; rw [hm, hp]

theorem bytesAt_congr {s t : State} {a n : Nat} (h : ∀ k, k < n → t.byteAt (a + k) = s.byteAt (a + k)) :
    t.bytesAt a n = s.bytesAt a n := by
  unfold State.bytesAt
  exact List.map_congr_left fun k hk => h k (List.mem_range.mp hk)

@[simp] theorem bytesAt_length (s : State) (a n : Nat) : (s.bytesAt a n).length = n := by simp [State.bytesAt]

/-- Bytes written outside MATRIX read back as written. -/
theorem bytesAt_store_same (s : State) (a : Nat) (bytes : List Byte)
    (h : ∀ k, k < bytes.length → windowOf (a + k) ≠ .matrix) : (s.store a bytes).bytesAt a bytes.length = bytes := by
  apply List.ext_getElem (by simp)
  intro k h1 h2
  have hk : a ≤ a + k ∧ a + k < a + bytes.length := by omega
  simp only [State.bytesAt, List.getElem_map, List.getElem_range, byteAt_store, if_pos hk, keepBits, if_neg (h k h2)]
  simp [h2]

/-! ### The windows -/

/-- One comparison of the address map. -/
theorem window_ite_iff {P : Window → Prop} {c : Prop} [Decidable c] {w v : Window} {Q : Prop}
    (hw : c → (P w ↔ Q)) (hv : ¬ c → (P v ↔ Q)) : P (if c then w else v) ↔ Q := by
  by_cases h : c
  · rw [if_pos h]; exact hw h
  · rw [if_neg h]; exact hv h

theorem windowOf_isRam_iff (a : Nat) : (windowOf a).isRam = true ↔
    (0x400 ≤ a ∧ a < 0x420) ∨ (0x2000 ≤ a ∧ a < 0x7000) ∨ (0x8000 ≤ a ∧ a < 0xFA61) := by
  simp only [windowOf, penBase, expBase, logBase, genBase, msgBase, dataBase, eccBase, seqBase, matrixBase, matrixBytes,
    Config.genBytes, Config.msgBytes, Config.cwBytes, Config.nMax, Nat.reduceAdd, Nat.reduceMul]
  iterate 13 (refine window_ite_iff (P := fun w => w.isRam = true) (fun h => ?_) (fun h => ?_) ; rotate_left)
  all_goals first | exact ⟨fun h => absurd h (by decide), fun h => by omega⟩ | exact ⟨fun h => by omega, fun h => rfl⟩

theorem windowOf_regs_iff (a : Nat) : windowOf a = .regs ↔ a < 0x64 := by
  simp only [windowOf, penBase, expBase, logBase, genBase, msgBase, dataBase, eccBase, seqBase, matrixBase, matrixBytes,
    Config.genBytes, Config.msgBytes, Config.cwBytes, Config.nMax, Nat.reduceAdd, Nat.reduceMul]
  iterate 13 (refine window_ite_iff (P := fun w => w = .regs) (fun h => ?_) (fun h => ?_) ; rotate_left)
  all_goals first | exact ⟨fun h => absurd h (by decide), fun h => by omega⟩ | exact ⟨fun h => by omega, fun h => rfl⟩

theorem windowOf_pen_iff (a : Nat) : windowOf a = .pen ↔ 0x100 ≤ a ∧ a < 0x200 := by
  simp only [windowOf, penBase, expBase, logBase, genBase, msgBase, dataBase, eccBase, seqBase, matrixBase, matrixBytes,
    Config.genBytes, Config.msgBytes, Config.cwBytes, Config.nMax, Nat.reduceAdd, Nat.reduceMul]
  iterate 13 (refine window_ite_iff (P := fun w => w = .pen) (fun h => ?_) (fun h => ?_) ; rotate_left)
  all_goals first | exact ⟨fun h => absurd h (by decide), fun h => by omega⟩ | exact ⟨fun h => by omega, fun h => rfl⟩

theorem windowOf_exp_iff (a : Nat) : windowOf a = .exp ↔ 0x200 ≤ a ∧ a < 0x300 := by
  simp only [windowOf, penBase, expBase, logBase, genBase, msgBase, dataBase, eccBase, seqBase, matrixBase, matrixBytes,
    Config.genBytes, Config.msgBytes, Config.cwBytes, Config.nMax, Nat.reduceAdd, Nat.reduceMul]
  iterate 13 (refine window_ite_iff (P := fun w => w = .exp) (fun h => ?_) (fun h => ?_) ; rotate_left)
  all_goals first | exact ⟨fun h => absurd h (by decide), fun h => by omega⟩ | exact ⟨fun h => by omega, fun h => rfl⟩

theorem windowOf_log_iff (a : Nat) : windowOf a = .log ↔ 0x300 ≤ a ∧ a < 0x400 := by
  simp only [windowOf, penBase, expBase, logBase, genBase, msgBase, dataBase, eccBase, seqBase, matrixBase, matrixBytes,
    Config.genBytes, Config.msgBytes, Config.cwBytes, Config.nMax, Nat.reduceAdd, Nat.reduceMul]
  iterate 13 (refine window_ite_iff (P := fun w => w = .log) (fun h => ?_) (fun h => ?_) ; rotate_left)
  all_goals first | exact ⟨fun h => absurd h (by decide), fun h => by omega⟩ | exact ⟨fun h => by omega, fun h => rfl⟩

theorem windowOf_gen_iff (a : Nat) : windowOf a = .gen ↔ 0x400 ≤ a ∧ a < 0x420 := by
  simp only [windowOf, penBase, expBase, logBase, genBase, msgBase, dataBase, eccBase, seqBase, matrixBase, matrixBytes,
    Config.genBytes, Config.msgBytes, Config.cwBytes, Config.nMax, Nat.reduceAdd, Nat.reduceMul]
  iterate 13 (refine window_ite_iff (P := fun w => w = .gen) (fun h => ?_) (fun h => ?_) ; rotate_left)
  all_goals first | exact ⟨fun h => absurd h (by decide), fun h => by omega⟩ | exact ⟨fun h => by omega, fun h => rfl⟩

theorem windowOf_msg_iff (a : Nat) : windowOf a = .msg ↔ 0x2000 ≤ a ∧ a < 0x4000 := by
  simp only [windowOf, penBase, expBase, logBase, genBase, msgBase, dataBase, eccBase, seqBase, matrixBase, matrixBytes,
    Config.genBytes, Config.msgBytes, Config.cwBytes, Config.nMax, Nat.reduceAdd, Nat.reduceMul]
  iterate 13 (refine window_ite_iff (P := fun w => w = .msg) (fun h => ?_) (fun h => ?_) ; rotate_left)
  all_goals first | exact ⟨fun h => absurd h (by decide), fun h => by omega⟩ | exact ⟨fun h => by omega, fun h => rfl⟩

theorem windowOf_data_iff (a : Nat) : windowOf a = .data ↔ 0x4000 ≤ a ∧ a < 0x5000 := by
  simp only [windowOf, penBase, expBase, logBase, genBase, msgBase, dataBase, eccBase, seqBase, matrixBase, matrixBytes,
    Config.genBytes, Config.msgBytes, Config.cwBytes, Config.nMax, Nat.reduceAdd, Nat.reduceMul]
  iterate 13 (refine window_ite_iff (P := fun w => w = .data) (fun h => ?_) (fun h => ?_) ; rotate_left)
  all_goals first | exact ⟨fun h => absurd h (by decide), fun h => by omega⟩ | exact ⟨fun h => by omega, fun h => rfl⟩

theorem windowOf_ecc_iff (a : Nat) : windowOf a = .ecc ↔ 0x5000 ≤ a ∧ a < 0x6000 := by
  simp only [windowOf, penBase, expBase, logBase, genBase, msgBase, dataBase, eccBase, seqBase, matrixBase, matrixBytes,
    Config.genBytes, Config.msgBytes, Config.cwBytes, Config.nMax, Nat.reduceAdd, Nat.reduceMul]
  iterate 13 (refine window_ite_iff (P := fun w => w = .ecc) (fun h => ?_) (fun h => ?_) ; rotate_left)
  all_goals first | exact ⟨fun h => absurd h (by decide), fun h => by omega⟩ | exact ⟨fun h => by omega, fun h => rfl⟩

theorem windowOf_seq_iff (a : Nat) : windowOf a = .seq ↔ 0x6000 ≤ a ∧ a < 0x7000 := by
  simp only [windowOf, penBase, expBase, logBase, genBase, msgBase, dataBase, eccBase, seqBase, matrixBase, matrixBytes,
    Config.genBytes, Config.msgBytes, Config.cwBytes, Config.nMax, Nat.reduceAdd, Nat.reduceMul]
  iterate 13 (refine window_ite_iff (P := fun w => w = .seq) (fun h => ?_) (fun h => ?_) ; rotate_left)
  all_goals first | exact ⟨fun h => absurd h (by decide), fun h => by omega⟩ | exact ⟨fun h => by omega, fun h => rfl⟩

theorem windowOf_matrix_iff (a : Nat) : windowOf a = .matrix ↔ 0x8000 ≤ a ∧ a < 0xFA61 := by
  simp only [windowOf, penBase, expBase, logBase, genBase, msgBase, dataBase, eccBase, seqBase, matrixBase, matrixBytes,
    Config.genBytes, Config.msgBytes, Config.cwBytes, Config.nMax, Nat.reduceAdd, Nat.reduceMul]
  iterate 13 (refine window_ite_iff (P := fun w => w = .matrix) (fun h => ?_) (fun h => ?_) ; rotate_left)
  all_goals first | exact ⟨fun h => absurd h (by decide), fun h => by omega⟩ | exact ⟨fun h => by omega, fun h => rfl⟩

theorem windowOf_unmapped_iff (a : Nat) : windowOf a = .unmapped ↔
    (0x64 ≤ a ∧ a < 0x100) ∨ (0x420 ≤ a ∧ a < 0x2000) ∨ (0x7000 ≤ a ∧ a < 0x8000) ∨ 0xFA61 ≤ a := by
  simp only [windowOf, penBase, expBase, logBase, genBase, msgBase, dataBase, eccBase, seqBase, matrixBase, matrixBytes,
    Config.genBytes, Config.msgBytes, Config.cwBytes, Config.nMax, Nat.reduceAdd, Nat.reduceMul]
  iterate 13 (refine window_ite_iff (P := fun w => w = .unmapped) (fun h => ?_) (fun h => ?_) ; rotate_left)
  all_goals first | exact ⟨fun h => absurd h (by decide), fun h => by omega⟩ | exact ⟨fun h => by omega, fun h => rfl⟩

/-! ### The canonical form -/

@[simp] theorem keepBits_idem (a : Nat) (b : Byte) : keepBits a (keepBits a b) = keepBits a b := by
  unfold keepBits
  split
  · rw [BitVec.and_assoc]; rfl
  · rfl

theorem mem_cells {a : Nat} {bytes : List Byte} {c : Host.Cell} (h : c ∈ Memory.cells a bytes) :
    a ≤ c.1 ∧ c.1 < a + bytes.length ∧ keepBits c.1 c.2 = c.2 := by
  induction bytes generalizing a with
  | nil => simp [Memory.cells] at h
  | cons b rest ih =>
    simp only [Memory.cells, List.mem_cons] at h
    rcases h with rfl | h
    · refine ⟨le_rfl, by simp, ?_⟩; exact keepBits_idem _ _
    · obtain ⟨h1, h2, h3⟩ := ih h
      simp only [List.length_cons]
      exact ⟨by omega, by omega, h3⟩

theorem cells_pairwise (a : Nat) (bytes : List Byte) :
    (Memory.cells a bytes).Pairwise (fun c d => c.1 < d.1) := by
  induction bytes generalizing a with
  | nil => simp [Memory.cells]
  | cons b rest ih =>
    simp only [Memory.cells, List.pairwise_cons]
    refine ⟨fun c hc => ?_, ih _⟩
    have := mem_cells hc
    omega

/-- A write to addresses that exist keeps the canonical form. -/
theorem store_wf {m : Memory} (hm : Memory.wf m) (a : Nat) (bytes : List Byte)
    (ha : ∀ k, k < bytes.length → (windowOf (a + k)).isRam = true) : Memory.wf (Memory.store m a bytes) := by
  obtain ⟨hs, hc⟩ := hm
  refine ⟨?_, ?_⟩
  · unfold Memory.store
    simp only [List.pairwise_append, List.mem_append, List.mem_filter, decide_eq_true_eq]
    refine ⟨⟨hs.filter _, cells_pairwise _ _, ?_⟩, hs.filter _, ?_⟩
    · rintro c ⟨_, hc1⟩ d hd
      have := mem_cells hd
      omega
    · rintro c (⟨_, hc1⟩ | hc1) d ⟨_, hd⟩
      · omega
      · have := mem_cells hc1
        omega
  · intro c hcm
    unfold Memory.store at hcm
    simp only [List.mem_append, List.mem_filter] at hcm
    rcases hcm with (⟨hcm, _⟩ | hcm) | ⟨hcm, _⟩
    · exact hc c hcm
    · obtain ⟨h1, h2, h3⟩ := mem_cells hcm
      have := ha (c.1 - a) (by omega)
      rw [show a + (c.1 - a) = c.1 by omega] at this
      simp [cellOk, this, h3]
    · exact hc c hcm

theorem nil_wf : Memory.wf [] := ⟨List.Pairwise.nil, fun _ h => absurd h List.not_mem_nil⟩

end Sys2Proof.Machine
end

