-- ==== Sys2Proof/Laws/State.lean ====
section
/-! SUPPORT. What each named operation does to each field of the state, one lemma per field per update. -/

namespace Sys2Proof.Machine

variable (s : State)

/-! ### Memory bytes written -/

@[simp] theorem store_status (a : Nat) (bytes : List Byte) : (s.store a bytes).status = s.status := rfl
@[simp] theorem store_ie (a : Nat) (bytes : List Byte) : (s.store a bytes).ie = s.ie := rfl
@[simp] theorem store_cmd (a : Nat) (bytes : List Byte) : (s.store a bytes).cmd = s.cmd := rfl
@[simp] theorem store_errCode (a : Nat) (bytes : List Byte) : (s.store a bytes).errCode = s.errCode := rfl
@[simp] theorem store_errInfo (a : Nat) (bytes : List Byte) : (s.store a bytes).errInfo = s.errInfo := rfl
@[simp] theorem store_valid (a : Nat) (bytes : List Byte) : (s.store a bytes).valid = s.valid := rfl
@[simp] theorem store_config (a : Nat) (bytes : List Byte) : (s.store a bytes).config = s.config := rfl
@[simp] theorem store_msgLen (a : Nat) (bytes : List Byte) : (s.store a bytes).msgLen = s.msgLen := rfl
@[simp] theorem store_layout (a : Nat) (bytes : List Byte) : (s.store a bytes).layout = s.layout := rfl
@[simp] theorem store_statBits (a : Nat) (bytes : List Byte) : (s.store a bytes).statBits = s.statBits := rfl
@[simp] theorem store_seqLen (a : Nat) (bytes : List Byte) : (s.store a bytes).seqLen = s.seqLen := rfl
@[simp] theorem store_seqBits (a : Nat) (bytes : List Byte) : (s.store a bytes).seqBits = s.seqBits := rfl
@[simp] theorem store_best (a : Nat) (bytes : List Byte) : (s.store a bytes).best = s.best := rfl
@[simp] theorem store_fmtWord (a : Nat) (bytes : List Byte) : (s.store a bytes).fmtWord = s.fmtWord := rfl
@[simp] theorem store_verWord (a : Nat) (bytes : List Byte) : (s.store a bytes).verWord = s.verWord := rfl
@[simp] theorem store_gfOp (a : Nat) (bytes : List Byte) : (s.store a bytes).gfOp = s.gfOp := rfl
@[simp] theorem store_gfRes (a : Nat) (bytes : List Byte) : (s.store a bytes).gfRes = s.gfRes := rfl
@[simp] theorem store_pen (a : Nat) (bytes : List Byte) : (s.store a bytes).pen = s.pen := rfl
@[simp] theorem store_mem (a : Nat) (bytes : List Byte) : (s.store a bytes).mem = Memory.store s.mem a bytes := rfl
@[simp] theorem store_eng (a : Nat) (bytes : List Byte) : (s.store a bytes).eng = s.eng := rfl
@[simp] theorem store_stepsLeft (a : Nat) (bytes : List Byte) : (s.store a bytes).stepsLeft = s.stepsLeft := rfl
@[simp] theorem store_hostTurns (a : Nat) (bytes : List Byte) : (s.store a bytes).hostTurns = s.hostTurns := rfl
@[simp] theorem store_encodeLayout (a : Nat) (bytes : List Byte) : (s.store a bytes).encodeLayout = s.encodeLayout := rfl
@[simp] theorem store_draws (a : Nat) (bytes : List Byte) : (s.store a bytes).draws = s.draws := rfl
@[simp] theorem store_powerOns (a : Nat) (bytes : List Byte) : (s.store a bytes).powerOns = s.powerOns := rfl
@[simp] theorem store_inbox (a : Nat) (bytes : List Byte) : (s.store a bytes).inbox = s.inbox := rfl
@[simp] theorem store_resp (a : Nat) (bytes : List Byte) : (s.store a bytes).resp = s.resp := rfl

/-! ### An error recorded (R184) -/

@[simp] theorem recordError_status (op : Byte) (e : CmdError) : (s.recordError op e).status = s.status.recordError e.cls := rfl
@[simp] theorem recordError_ie (op : Byte) (e : CmdError) : (s.recordError op e).ie = s.ie := rfl
@[simp] theorem recordError_cmd (op : Byte) (e : CmdError) : (s.recordError op e).cmd = s.cmd := rfl
@[simp] theorem recordError_errCode (op : Byte) (e : CmdError) : (s.recordError op e).errCode = ⟨e.cls.code, op⟩ := rfl
@[simp] theorem recordError_errInfo (op : Byte) (e : CmdError) : (s.recordError op e).errInfo = ⟨e.pos, e.chr, e.detail⟩ := rfl
@[simp] theorem recordError_valid (op : Byte) (e : CmdError) : (s.recordError op e).valid = s.valid := rfl
@[simp] theorem recordError_config (op : Byte) (e : CmdError) : (s.recordError op e).config = s.config := rfl
@[simp] theorem recordError_msgLen (op : Byte) (e : CmdError) : (s.recordError op e).msgLen = s.msgLen := rfl
@[simp] theorem recordError_layout (op : Byte) (e : CmdError) : (s.recordError op e).layout = s.layout := rfl
@[simp] theorem recordError_statBits (op : Byte) (e : CmdError) : (s.recordError op e).statBits = s.statBits := rfl
@[simp] theorem recordError_seqLen (op : Byte) (e : CmdError) : (s.recordError op e).seqLen = s.seqLen := rfl
@[simp] theorem recordError_seqBits (op : Byte) (e : CmdError) : (s.recordError op e).seqBits = s.seqBits := rfl
@[simp] theorem recordError_best (op : Byte) (e : CmdError) : (s.recordError op e).best = s.best := rfl
@[simp] theorem recordError_fmtWord (op : Byte) (e : CmdError) : (s.recordError op e).fmtWord = s.fmtWord := rfl
@[simp] theorem recordError_verWord (op : Byte) (e : CmdError) : (s.recordError op e).verWord = s.verWord := rfl
@[simp] theorem recordError_gfOp (op : Byte) (e : CmdError) : (s.recordError op e).gfOp = s.gfOp := rfl
@[simp] theorem recordError_gfRes (op : Byte) (e : CmdError) : (s.recordError op e).gfRes = s.gfRes := rfl
@[simp] theorem recordError_pen (op : Byte) (e : CmdError) : (s.recordError op e).pen = s.pen := rfl
@[simp] theorem recordError_mem (op : Byte) (e : CmdError) : (s.recordError op e).mem = s.mem := rfl
@[simp] theorem recordError_eng (op : Byte) (e : CmdError) : (s.recordError op e).eng = s.eng := rfl
@[simp] theorem recordError_stepsLeft (op : Byte) (e : CmdError) : (s.recordError op e).stepsLeft = s.stepsLeft := rfl
@[simp] theorem recordError_hostTurns (op : Byte) (e : CmdError) : (s.recordError op e).hostTurns = s.hostTurns := rfl
@[simp] theorem recordError_encodeLayout (op : Byte) (e : CmdError) : (s.recordError op e).encodeLayout = s.encodeLayout := rfl
@[simp] theorem recordError_draws (op : Byte) (e : CmdError) : (s.recordError op e).draws = s.draws := rfl
@[simp] theorem recordError_powerOns (op : Byte) (e : CmdError) : (s.recordError op e).powerOns = s.powerOns := rfl
@[simp] theorem recordError_inbox (op : Byte) (e : CmdError) : (s.recordError op e).inbox = s.inbox := rfl
@[simp] theorem recordError_resp (op : Byte) (e : CmdError) : (s.recordError op e).resp = s.resp := rfl

/-! ### Completion (R98) -/

@[simp] theorem complete_status (c d : Valid) : (s.complete c d).status = { s.status with done := true } := rfl
@[simp] theorem complete_ie (c d : Valid) : (s.complete c d).ie = s.ie := rfl
@[simp] theorem complete_cmd (c d : Valid) : (s.complete c d).cmd = s.cmd := rfl
@[simp] theorem complete_errCode (c d : Valid) : (s.complete c d).errCode = s.errCode := rfl
@[simp] theorem complete_errInfo (c d : Valid) : (s.complete c d).errInfo = s.errInfo := rfl
@[simp] theorem complete_valid (c d : Valid) : (s.complete c d).valid = (s.valid.minus c).plus d := rfl
@[simp] theorem complete_config (c d : Valid) : (s.complete c d).config = s.config := rfl
@[simp] theorem complete_msgLen (c d : Valid) : (s.complete c d).msgLen = s.msgLen := rfl
@[simp] theorem complete_layout (c d : Valid) : (s.complete c d).layout = s.layout := rfl
@[simp] theorem complete_statBits (c d : Valid) : (s.complete c d).statBits = s.statBits := rfl
@[simp] theorem complete_seqLen (c d : Valid) : (s.complete c d).seqLen = s.seqLen := rfl
@[simp] theorem complete_seqBits (c d : Valid) : (s.complete c d).seqBits = s.seqBits := rfl
@[simp] theorem complete_best (c d : Valid) : (s.complete c d).best = s.best := rfl
@[simp] theorem complete_fmtWord (c d : Valid) : (s.complete c d).fmtWord = s.fmtWord := rfl
@[simp] theorem complete_verWord (c d : Valid) : (s.complete c d).verWord = s.verWord := rfl
@[simp] theorem complete_gfOp (c d : Valid) : (s.complete c d).gfOp = s.gfOp := rfl
@[simp] theorem complete_gfRes (c d : Valid) : (s.complete c d).gfRes = s.gfRes := rfl
@[simp] theorem complete_pen (c d : Valid) : (s.complete c d).pen = s.pen := rfl
@[simp] theorem complete_mem (c d : Valid) : (s.complete c d).mem = s.mem := rfl
@[simp] theorem complete_eng (c d : Valid) : (s.complete c d).eng = .idle := rfl
@[simp] theorem complete_stepsLeft (c d : Valid) : (s.complete c d).stepsLeft = s.stepsLeft := rfl
@[simp] theorem complete_hostTurns (c d : Valid) : (s.complete c d).hostTurns = s.hostTurns := rfl
@[simp] theorem complete_encodeLayout (c d : Valid) : (s.complete c d).encodeLayout = s.encodeLayout := rfl
@[simp] theorem complete_draws (c d : Valid) : (s.complete c d).draws = s.draws := rfl
@[simp] theorem complete_powerOns (c d : Valid) : (s.complete c d).powerOns = s.powerOns := rfl
@[simp] theorem complete_inbox (c d : Valid) : (s.complete c d).inbox = s.inbox := rfl
@[simp] theorem complete_resp (c d : Valid) : (s.complete c d).resp = s.resp := rfl

/-! ### Timing drawn (R213) -/

@[simp] theorem drawTiming_status (w : Word) : (s.drawTiming w).status = s.status := rfl
@[simp] theorem drawTiming_ie (w : Word) : (s.drawTiming w).ie = s.ie := rfl
@[simp] theorem drawTiming_cmd (w : Word) : (s.drawTiming w).cmd = s.cmd := rfl
@[simp] theorem drawTiming_errCode (w : Word) : (s.drawTiming w).errCode = s.errCode := rfl
@[simp] theorem drawTiming_errInfo (w : Word) : (s.drawTiming w).errInfo = s.errInfo := rfl
@[simp] theorem drawTiming_valid (w : Word) : (s.drawTiming w).valid = s.valid := rfl
@[simp] theorem drawTiming_config (w : Word) : (s.drawTiming w).config = s.config := rfl
@[simp] theorem drawTiming_msgLen (w : Word) : (s.drawTiming w).msgLen = s.msgLen := rfl
@[simp] theorem drawTiming_layout (w : Word) : (s.drawTiming w).layout = s.layout := rfl
@[simp] theorem drawTiming_statBits (w : Word) : (s.drawTiming w).statBits = s.statBits := rfl
@[simp] theorem drawTiming_seqLen (w : Word) : (s.drawTiming w).seqLen = s.seqLen := rfl
@[simp] theorem drawTiming_seqBits (w : Word) : (s.drawTiming w).seqBits = s.seqBits := rfl
@[simp] theorem drawTiming_best (w : Word) : (s.drawTiming w).best = s.best := rfl
@[simp] theorem drawTiming_fmtWord (w : Word) : (s.drawTiming w).fmtWord = s.fmtWord := rfl
@[simp] theorem drawTiming_verWord (w : Word) : (s.drawTiming w).verWord = s.verWord := rfl
@[simp] theorem drawTiming_gfOp (w : Word) : (s.drawTiming w).gfOp = s.gfOp := rfl
@[simp] theorem drawTiming_gfRes (w : Word) : (s.drawTiming w).gfRes = s.gfRes := rfl
@[simp] theorem drawTiming_pen (w : Word) : (s.drawTiming w).pen = s.pen := rfl
@[simp] theorem drawTiming_mem (w : Word) : (s.drawTiming w).mem = s.mem := rfl
@[simp] theorem drawTiming_eng (w : Word) : (s.drawTiming w).eng = s.eng := rfl
@[simp] theorem drawTiming_stepsLeft (w : Word) : (s.drawTiming w).stepsLeft = Config.extraSteps w s.draws := rfl
@[simp] theorem drawTiming_hostTurns (w : Word) : (s.drawTiming w).hostTurns = Config.hostTurns s.draws := rfl
@[simp] theorem drawTiming_encodeLayout (w : Word) : (s.drawTiming w).encodeLayout = s.encodeLayout := rfl
@[simp] theorem drawTiming_draws (w : Word) : (s.drawTiming w).draws = s.draws + 1 := rfl
@[simp] theorem drawTiming_powerOns (w : Word) : (s.drawTiming w).powerOns = s.powerOns := rfl
@[simp] theorem drawTiming_inbox (w : Word) : (s.drawTiming w).inbox = s.inbox := rfl
@[simp] theorem drawTiming_resp (w : Word) : (s.drawTiming w).resp = s.resp := rfl

/-! ### A stage of ENCODE entered (R107) -/

@[simp] theorem enterStage_status (st : Stage) (regs : Layout) : (s.enterStage st regs).status = s.status := rfl
@[simp] theorem enterStage_ie (st : Stage) (regs : Layout) : (s.enterStage st regs).ie = s.ie := rfl
@[simp] theorem enterStage_cmd (st : Stage) (regs : Layout) : (s.enterStage st regs).cmd = s.cmd := rfl
@[simp] theorem enterStage_errCode (st : Stage) (regs : Layout) : (s.enterStage st regs).errCode = s.errCode := rfl
@[simp] theorem enterStage_errInfo (st : Stage) (regs : Layout) : (s.enterStage st regs).errInfo = s.errInfo := rfl
@[simp] theorem enterStage_valid (st : Stage) (regs : Layout) : (s.enterStage st regs).valid = s.valid := rfl
@[simp] theorem enterStage_config (st : Stage) (regs : Layout) : (s.enterStage st regs).config = s.config := rfl
@[simp] theorem enterStage_msgLen (st : Stage) (regs : Layout) : (s.enterStage st regs).msgLen = s.msgLen := rfl
@[simp] theorem enterStage_layout (st : Stage) (regs : Layout) : (s.enterStage st regs).layout = regs := rfl
@[simp] theorem enterStage_statBits (st : Stage) (regs : Layout) : (s.enterStage st regs).statBits = s.statBits := rfl
@[simp] theorem enterStage_seqLen (st : Stage) (regs : Layout) : (s.enterStage st regs).seqLen = s.seqLen := rfl
@[simp] theorem enterStage_seqBits (st : Stage) (regs : Layout) : (s.enterStage st regs).seqBits = s.seqBits := rfl
@[simp] theorem enterStage_best (st : Stage) (regs : Layout) : (s.enterStage st regs).best = s.best := rfl
@[simp] theorem enterStage_fmtWord (st : Stage) (regs : Layout) : (s.enterStage st regs).fmtWord = s.fmtWord := rfl
@[simp] theorem enterStage_verWord (st : Stage) (regs : Layout) : (s.enterStage st regs).verWord = s.verWord := rfl
@[simp] theorem enterStage_gfOp (st : Stage) (regs : Layout) : (s.enterStage st regs).gfOp = s.gfOp := rfl
@[simp] theorem enterStage_gfRes (st : Stage) (regs : Layout) : (s.enterStage st regs).gfRes = s.gfRes := rfl
@[simp] theorem enterStage_pen (st : Stage) (regs : Layout) : (s.enterStage st regs).pen = s.pen := rfl
@[simp] theorem enterStage_mem (st : Stage) (regs : Layout) : (s.enterStage st regs).mem = s.mem := rfl
@[simp] theorem enterStage_eng (st : Stage) (regs : Layout) : (s.enterStage st regs).eng = .running (encode .encode) (some st) := rfl
@[simp] theorem enterStage_stepsLeft (st : Stage) (regs : Layout) : (s.enterStage st regs).stepsLeft = Config.extraSteps (encode .encode) s.draws := rfl
@[simp] theorem enterStage_hostTurns (st : Stage) (regs : Layout) : (s.enterStage st regs).hostTurns = Config.hostTurns s.draws := rfl
@[simp] theorem enterStage_encodeLayout (st : Stage) (regs : Layout) : (s.enterStage st regs).encodeLayout = s.layout := rfl
@[simp] theorem enterStage_draws (st : Stage) (regs : Layout) : (s.enterStage st regs).draws = s.draws + 1 := rfl
@[simp] theorem enterStage_powerOns (st : Stage) (regs : Layout) : (s.enterStage st regs).powerOns = s.powerOns := rfl
@[simp] theorem enterStage_inbox (st : Stage) (regs : Layout) : (s.enterStage st regs).inbox = s.inbox := rfl
@[simp] theorem enterStage_resp (st : Stage) (regs : Layout) : (s.enterStage st regs).resp = s.resp := rfl

/-! ### Acceptance (R97) -/

@[simp] theorem accept_status (w : Word) : (s.accept w).status = { s.status with done := false } := rfl
@[simp] theorem accept_ie (w : Word) : (s.accept w).ie = s.ie := rfl
@[simp] theorem accept_cmd (w : Word) : (s.accept w).cmd = w := rfl
@[simp] theorem accept_errCode (w : Word) : (s.accept w).errCode = ⟨0, 0⟩ := rfl
@[simp] theorem accept_errInfo (w : Word) : (s.accept w).errInfo = ⟨0, 0, 0⟩ := rfl
@[simp] theorem accept_valid (w : Word) : (s.accept w).valid = s.valid := rfl
@[simp] theorem accept_config (w : Word) : (s.accept w).config = s.config := rfl
@[simp] theorem accept_msgLen (w : Word) : (s.accept w).msgLen = s.msgLen := rfl
@[simp] theorem accept_layout (w : Word) : (s.accept w).layout = s.layout := rfl
@[simp] theorem accept_statBits (w : Word) : (s.accept w).statBits = s.statBits := rfl
@[simp] theorem accept_seqLen (w : Word) : (s.accept w).seqLen = s.seqLen := rfl
@[simp] theorem accept_seqBits (w : Word) : (s.accept w).seqBits = s.seqBits := rfl
@[simp] theorem accept_best (w : Word) : (s.accept w).best = s.best := rfl
@[simp] theorem accept_fmtWord (w : Word) : (s.accept w).fmtWord = s.fmtWord := rfl
@[simp] theorem accept_verWord (w : Word) : (s.accept w).verWord = s.verWord := rfl
@[simp] theorem accept_gfOp (w : Word) : (s.accept w).gfOp = s.gfOp := rfl
@[simp] theorem accept_gfRes (w : Word) : (s.accept w).gfRes = s.gfRes := rfl
@[simp] theorem accept_pen (w : Word) : (s.accept w).pen = s.pen := rfl
@[simp] theorem accept_mem (w : Word) : (s.accept w).mem = s.mem := rfl
@[simp] theorem accept_eng (w : Word) : (s.accept w).eng = .running w (firstStage w) := rfl
@[simp] theorem accept_stepsLeft (w : Word) : (s.accept w).stepsLeft = Config.extraSteps w s.draws := rfl
@[simp] theorem accept_hostTurns (w : Word) : (s.accept w).hostTurns = Config.hostTurns s.draws := rfl
@[simp] theorem accept_encodeLayout (w : Word) : (s.accept w).encodeLayout = s.encodeLayout := rfl
@[simp] theorem accept_draws (w : Word) : (s.accept w).draws = s.draws + 1 := rfl
@[simp] theorem accept_powerOns (w : Word) : (s.accept w).powerOns = s.powerOns := rfl
@[simp] theorem accept_inbox (w : Word) : (s.accept w).inbox = s.inbox := rfl
@[simp] theorem accept_resp (w : Word) : (s.accept w).resp = s.resp := rfl

/-! ### A refused write (R207) -/

@[simp] theorem refuse_status : (s.refuse).status = { s.status with rej := true } := rfl
@[simp] theorem refuse_ie : (s.refuse).ie = s.ie := rfl
@[simp] theorem refuse_cmd : (s.refuse).cmd = s.cmd := rfl
@[simp] theorem refuse_errCode : (s.refuse).errCode = s.errCode := rfl
@[simp] theorem refuse_errInfo : (s.refuse).errInfo = s.errInfo := rfl
@[simp] theorem refuse_valid : (s.refuse).valid = s.valid := rfl
@[simp] theorem refuse_config : (s.refuse).config = s.config := rfl
@[simp] theorem refuse_msgLen : (s.refuse).msgLen = s.msgLen := rfl
@[simp] theorem refuse_layout : (s.refuse).layout = s.layout := rfl
@[simp] theorem refuse_statBits : (s.refuse).statBits = s.statBits := rfl
@[simp] theorem refuse_seqLen : (s.refuse).seqLen = s.seqLen := rfl
@[simp] theorem refuse_seqBits : (s.refuse).seqBits = s.seqBits := rfl
@[simp] theorem refuse_best : (s.refuse).best = s.best := rfl
@[simp] theorem refuse_fmtWord : (s.refuse).fmtWord = s.fmtWord := rfl
@[simp] theorem refuse_verWord : (s.refuse).verWord = s.verWord := rfl
@[simp] theorem refuse_gfOp : (s.refuse).gfOp = s.gfOp := rfl
@[simp] theorem refuse_gfRes : (s.refuse).gfRes = s.gfRes := rfl
@[simp] theorem refuse_pen : (s.refuse).pen = s.pen := rfl
@[simp] theorem refuse_mem : (s.refuse).mem = s.mem := rfl
@[simp] theorem refuse_eng : (s.refuse).eng = s.eng := rfl
@[simp] theorem refuse_stepsLeft : (s.refuse).stepsLeft = s.stepsLeft := rfl
@[simp] theorem refuse_hostTurns : (s.refuse).hostTurns = s.hostTurns := rfl
@[simp] theorem refuse_encodeLayout : (s.refuse).encodeLayout = s.encodeLayout := rfl
@[simp] theorem refuse_draws : (s.refuse).draws = s.draws := rfl
@[simp] theorem refuse_powerOns : (s.refuse).powerOns = s.powerOns := rfl
@[simp] theorem refuse_inbox : (s.refuse).inbox = s.inbox := rfl
@[simp] theorem refuse_resp : (s.refuse).resp = s.resp := rfl

/-! ### The W1C write (R188) -/

@[simp] theorem clearStatus_status (v : Word) : (s.clearStatus v).status = s.status.writeOneToClear v := rfl
@[simp] theorem clearStatus_ie (v : Word) : (s.clearStatus v).ie = s.ie := rfl
@[simp] theorem clearStatus_cmd (v : Word) : (s.clearStatus v).cmd = s.cmd := rfl
@[simp] theorem clearStatus_errCode (v : Word) : (s.clearStatus v).errCode = s.errCode := rfl
@[simp] theorem clearStatus_errInfo (v : Word) : (s.clearStatus v).errInfo = s.errInfo := rfl
@[simp] theorem clearStatus_valid (v : Word) : (s.clearStatus v).valid = s.valid := rfl
@[simp] theorem clearStatus_config (v : Word) : (s.clearStatus v).config = s.config := rfl
@[simp] theorem clearStatus_msgLen (v : Word) : (s.clearStatus v).msgLen = s.msgLen := rfl
@[simp] theorem clearStatus_layout (v : Word) : (s.clearStatus v).layout = s.layout := rfl
@[simp] theorem clearStatus_statBits (v : Word) : (s.clearStatus v).statBits = s.statBits := rfl
@[simp] theorem clearStatus_seqLen (v : Word) : (s.clearStatus v).seqLen = s.seqLen := rfl
@[simp] theorem clearStatus_seqBits (v : Word) : (s.clearStatus v).seqBits = s.seqBits := rfl
@[simp] theorem clearStatus_best (v : Word) : (s.clearStatus v).best = s.best := rfl
@[simp] theorem clearStatus_fmtWord (v : Word) : (s.clearStatus v).fmtWord = s.fmtWord := rfl
@[simp] theorem clearStatus_verWord (v : Word) : (s.clearStatus v).verWord = s.verWord := rfl
@[simp] theorem clearStatus_gfOp (v : Word) : (s.clearStatus v).gfOp = s.gfOp := rfl
@[simp] theorem clearStatus_gfRes (v : Word) : (s.clearStatus v).gfRes = s.gfRes := rfl
@[simp] theorem clearStatus_pen (v : Word) : (s.clearStatus v).pen = s.pen := rfl
@[simp] theorem clearStatus_mem (v : Word) : (s.clearStatus v).mem = s.mem := rfl
@[simp] theorem clearStatus_eng (v : Word) : (s.clearStatus v).eng = s.eng := rfl
@[simp] theorem clearStatus_stepsLeft (v : Word) : (s.clearStatus v).stepsLeft = s.stepsLeft := rfl
@[simp] theorem clearStatus_hostTurns (v : Word) : (s.clearStatus v).hostTurns = s.hostTurns := rfl
@[simp] theorem clearStatus_encodeLayout (v : Word) : (s.clearStatus v).encodeLayout = s.encodeLayout := rfl
@[simp] theorem clearStatus_draws (v : Word) : (s.clearStatus v).draws = s.draws := rfl
@[simp] theorem clearStatus_powerOns (v : Word) : (s.clearStatus v).powerOns = s.powerOns := rfl
@[simp] theorem clearStatus_inbox (v : Word) : (s.clearStatus v).inbox = s.inbox := rfl
@[simp] theorem clearStatus_resp (v : Word) : (s.clearStatus v).resp = s.resp := rfl

/-! ### A waiting engine step (R213) -/

@[simp] theorem tick_status : (s.tick).status = s.status := rfl
@[simp] theorem tick_ie : (s.tick).ie = s.ie := rfl
@[simp] theorem tick_cmd : (s.tick).cmd = s.cmd := rfl
@[simp] theorem tick_errCode : (s.tick).errCode = s.errCode := rfl
@[simp] theorem tick_errInfo : (s.tick).errInfo = s.errInfo := rfl
@[simp] theorem tick_valid : (s.tick).valid = s.valid := rfl
@[simp] theorem tick_config : (s.tick).config = s.config := rfl
@[simp] theorem tick_msgLen : (s.tick).msgLen = s.msgLen := rfl
@[simp] theorem tick_layout : (s.tick).layout = s.layout := rfl
@[simp] theorem tick_statBits : (s.tick).statBits = s.statBits := rfl
@[simp] theorem tick_seqLen : (s.tick).seqLen = s.seqLen := rfl
@[simp] theorem tick_seqBits : (s.tick).seqBits = s.seqBits := rfl
@[simp] theorem tick_best : (s.tick).best = s.best := rfl
@[simp] theorem tick_fmtWord : (s.tick).fmtWord = s.fmtWord := rfl
@[simp] theorem tick_verWord : (s.tick).verWord = s.verWord := rfl
@[simp] theorem tick_gfOp : (s.tick).gfOp = s.gfOp := rfl
@[simp] theorem tick_gfRes : (s.tick).gfRes = s.gfRes := rfl
@[simp] theorem tick_pen : (s.tick).pen = s.pen := rfl
@[simp] theorem tick_mem : (s.tick).mem = s.mem := rfl
@[simp] theorem tick_eng : (s.tick).eng = s.eng := rfl
@[simp] theorem tick_stepsLeft : (s.tick).stepsLeft = s.stepsLeft - 1 := rfl
@[simp] theorem tick_hostTurns : (s.tick).hostTurns = Config.hostTurns s.draws := rfl
@[simp] theorem tick_encodeLayout : (s.tick).encodeLayout = s.encodeLayout := rfl
@[simp] theorem tick_draws : (s.tick).draws = s.draws + 1 := rfl
@[simp] theorem tick_powerOns : (s.tick).powerOns = s.powerOns := rfl
@[simp] theorem tick_inbox : (s.tick).inbox = s.inbox := rfl
@[simp] theorem tick_resp : (s.tick).resp = s.resp := rfl

/-! ### The registers reset (R202) -/

@[simp] theorem resetRegisters_status : (s.resetRegisters).status = State.reset.status := rfl
@[simp] theorem resetRegisters_ie : (s.resetRegisters).ie = State.reset.ie := rfl
@[simp] theorem resetRegisters_cmd : (s.resetRegisters).cmd = State.reset.cmd := rfl
@[simp] theorem resetRegisters_errCode : (s.resetRegisters).errCode = State.reset.errCode := rfl
@[simp] theorem resetRegisters_errInfo : (s.resetRegisters).errInfo = State.reset.errInfo := rfl
@[simp] theorem resetRegisters_valid : (s.resetRegisters).valid = State.reset.valid := rfl
@[simp] theorem resetRegisters_config : (s.resetRegisters).config = State.reset.config := rfl
@[simp] theorem resetRegisters_msgLen : (s.resetRegisters).msgLen = State.reset.msgLen := rfl
@[simp] theorem resetRegisters_layout : (s.resetRegisters).layout = State.reset.layout := rfl
@[simp] theorem resetRegisters_statBits : (s.resetRegisters).statBits = State.reset.statBits := rfl
@[simp] theorem resetRegisters_seqLen : (s.resetRegisters).seqLen = State.reset.seqLen := rfl
@[simp] theorem resetRegisters_seqBits : (s.resetRegisters).seqBits = State.reset.seqBits := rfl
@[simp] theorem resetRegisters_best : (s.resetRegisters).best = State.reset.best := rfl
@[simp] theorem resetRegisters_fmtWord : (s.resetRegisters).fmtWord = State.reset.fmtWord := rfl
@[simp] theorem resetRegisters_verWord : (s.resetRegisters).verWord = State.reset.verWord := rfl
@[simp] theorem resetRegisters_gfOp : (s.resetRegisters).gfOp = State.reset.gfOp := rfl
@[simp] theorem resetRegisters_gfRes : (s.resetRegisters).gfRes = State.reset.gfRes := rfl
@[simp] theorem resetRegisters_pen : (s.resetRegisters).pen = State.reset.pen := rfl
@[simp] theorem resetRegisters_mem : (s.resetRegisters).mem = s.mem := rfl
@[simp] theorem resetRegisters_eng : (s.resetRegisters).eng = State.reset.eng := rfl
@[simp] theorem resetRegisters_stepsLeft : (s.resetRegisters).stepsLeft = State.reset.stepsLeft := rfl
@[simp] theorem resetRegisters_hostTurns : (s.resetRegisters).hostTurns = State.reset.hostTurns := rfl
@[simp] theorem resetRegisters_encodeLayout : (s.resetRegisters).encodeLayout = State.reset.encodeLayout := rfl
@[simp] theorem resetRegisters_draws : (s.resetRegisters).draws = s.draws := rfl
@[simp] theorem resetRegisters_powerOns : (s.resetRegisters).powerOns = s.powerOns := rfl
@[simp] theorem resetRegisters_inbox : (s.resetRegisters).inbox = s.inbox := rfl
@[simp] theorem resetRegisters_resp : (s.resetRegisters).resp = s.resp := rfl

/-! ### Power-on reset (R201) -/

@[simp] theorem powerOn_status : (s.powerOn).status = State.reset.status := rfl
@[simp] theorem powerOn_ie : (s.powerOn).ie = State.reset.ie := rfl
@[simp] theorem powerOn_cmd : (s.powerOn).cmd = State.reset.cmd := rfl
@[simp] theorem powerOn_errCode : (s.powerOn).errCode = State.reset.errCode := rfl
@[simp] theorem powerOn_errInfo : (s.powerOn).errInfo = State.reset.errInfo := rfl
@[simp] theorem powerOn_valid : (s.powerOn).valid = State.reset.valid := rfl
@[simp] theorem powerOn_config : (s.powerOn).config = State.reset.config := rfl
@[simp] theorem powerOn_msgLen : (s.powerOn).msgLen = State.reset.msgLen := rfl
@[simp] theorem powerOn_layout : (s.powerOn).layout = State.reset.layout := rfl
@[simp] theorem powerOn_statBits : (s.powerOn).statBits = State.reset.statBits := rfl
@[simp] theorem powerOn_seqLen : (s.powerOn).seqLen = State.reset.seqLen := rfl
@[simp] theorem powerOn_seqBits : (s.powerOn).seqBits = State.reset.seqBits := rfl
@[simp] theorem powerOn_best : (s.powerOn).best = State.reset.best := rfl
@[simp] theorem powerOn_fmtWord : (s.powerOn).fmtWord = State.reset.fmtWord := rfl
@[simp] theorem powerOn_verWord : (s.powerOn).verWord = State.reset.verWord := rfl
@[simp] theorem powerOn_gfOp : (s.powerOn).gfOp = State.reset.gfOp := rfl
@[simp] theorem powerOn_gfRes : (s.powerOn).gfRes = State.reset.gfRes := rfl
@[simp] theorem powerOn_pen : (s.powerOn).pen = State.reset.pen := rfl
@[simp] theorem powerOn_mem : (s.powerOn).mem = [] := rfl
@[simp] theorem powerOn_eng : (s.powerOn).eng = State.reset.eng := rfl
@[simp] theorem powerOn_stepsLeft : (s.powerOn).stepsLeft = State.reset.stepsLeft := rfl
@[simp] theorem powerOn_hostTurns : (s.powerOn).hostTurns = State.reset.hostTurns := rfl
@[simp] theorem powerOn_encodeLayout : (s.powerOn).encodeLayout = State.reset.encodeLayout := rfl
@[simp] theorem powerOn_draws : (s.powerOn).draws = s.draws := rfl
@[simp] theorem powerOn_powerOns : (s.powerOn).powerOns = s.powerOns + 1 := rfl
@[simp] theorem powerOn_inbox : (s.powerOn).inbox = s.inbox := rfl
@[simp] theorem powerOn_resp : (s.powerOn).resp = none := rfl

/-! ### A response (R63) -/

@[simp] theorem respond_status (r : Resp) (v : Word) : (s.respond r v).status = s.status := rfl
@[simp] theorem respond_ie (r : Resp) (v : Word) : (s.respond r v).ie = s.ie := rfl
@[simp] theorem respond_cmd (r : Resp) (v : Word) : (s.respond r v).cmd = s.cmd := rfl
@[simp] theorem respond_errCode (r : Resp) (v : Word) : (s.respond r v).errCode = s.errCode := rfl
@[simp] theorem respond_errInfo (r : Resp) (v : Word) : (s.respond r v).errInfo = s.errInfo := rfl
@[simp] theorem respond_valid (r : Resp) (v : Word) : (s.respond r v).valid = s.valid := rfl
@[simp] theorem respond_config (r : Resp) (v : Word) : (s.respond r v).config = s.config := rfl
@[simp] theorem respond_msgLen (r : Resp) (v : Word) : (s.respond r v).msgLen = s.msgLen := rfl
@[simp] theorem respond_layout (r : Resp) (v : Word) : (s.respond r v).layout = s.layout := rfl
@[simp] theorem respond_statBits (r : Resp) (v : Word) : (s.respond r v).statBits = s.statBits := rfl
@[simp] theorem respond_seqLen (r : Resp) (v : Word) : (s.respond r v).seqLen = s.seqLen := rfl
@[simp] theorem respond_seqBits (r : Resp) (v : Word) : (s.respond r v).seqBits = s.seqBits := rfl
@[simp] theorem respond_best (r : Resp) (v : Word) : (s.respond r v).best = s.best := rfl
@[simp] theorem respond_fmtWord (r : Resp) (v : Word) : (s.respond r v).fmtWord = s.fmtWord := rfl
@[simp] theorem respond_verWord (r : Resp) (v : Word) : (s.respond r v).verWord = s.verWord := rfl
@[simp] theorem respond_gfOp (r : Resp) (v : Word) : (s.respond r v).gfOp = s.gfOp := rfl
@[simp] theorem respond_gfRes (r : Resp) (v : Word) : (s.respond r v).gfRes = s.gfRes := rfl
@[simp] theorem respond_pen (r : Resp) (v : Word) : (s.respond r v).pen = s.pen := rfl
@[simp] theorem respond_mem (r : Resp) (v : Word) : (s.respond r v).mem = s.mem := rfl
@[simp] theorem respond_eng (r : Resp) (v : Word) : (s.respond r v).eng = s.eng := rfl
@[simp] theorem respond_stepsLeft (r : Resp) (v : Word) : (s.respond r v).stepsLeft = s.stepsLeft := rfl
@[simp] theorem respond_hostTurns (r : Resp) (v : Word) : (s.respond r v).hostTurns = s.hostTurns := rfl
@[simp] theorem respond_encodeLayout (r : Resp) (v : Word) : (s.respond r v).encodeLayout = s.encodeLayout := rfl
@[simp] theorem respond_draws (r : Resp) (v : Word) : (s.respond r v).draws = s.draws := rfl
@[simp] theorem respond_powerOns (r : Resp) (v : Word) : (s.respond r v).powerOns = s.powerOns := rfl
@[simp] theorem respond_inbox (r : Resp) (v : Word) : (s.respond r v).inbox = s.inbox := rfl
@[simp] theorem respond_resp (r : Resp) (v : Word) : (s.respond r v).resp = some ⟨r, v⟩ := rfl

/-! ### The answer to a write (R67) -/

@[simp] theorem answerWrite_status : s.answerWrite.status = s.status := rfl
@[simp] theorem answerWrite_ie : s.answerWrite.ie = s.ie := rfl
@[simp] theorem answerWrite_cmd : s.answerWrite.cmd = s.cmd := rfl
@[simp] theorem answerWrite_errCode : s.answerWrite.errCode = s.errCode := rfl
@[simp] theorem answerWrite_errInfo : s.answerWrite.errInfo = s.errInfo := rfl
@[simp] theorem answerWrite_valid : s.answerWrite.valid = s.valid := rfl
@[simp] theorem answerWrite_config : s.answerWrite.config = s.config := rfl
@[simp] theorem answerWrite_msgLen : s.answerWrite.msgLen = s.msgLen := rfl
@[simp] theorem answerWrite_layout : s.answerWrite.layout = s.layout := rfl
@[simp] theorem answerWrite_statBits : s.answerWrite.statBits = s.statBits := rfl
@[simp] theorem answerWrite_seqLen : s.answerWrite.seqLen = s.seqLen := rfl
@[simp] theorem answerWrite_seqBits : s.answerWrite.seqBits = s.seqBits := rfl
@[simp] theorem answerWrite_best : s.answerWrite.best = s.best := rfl
@[simp] theorem answerWrite_fmtWord : s.answerWrite.fmtWord = s.fmtWord := rfl
@[simp] theorem answerWrite_verWord : s.answerWrite.verWord = s.verWord := rfl
@[simp] theorem answerWrite_gfOp : s.answerWrite.gfOp = s.gfOp := rfl
@[simp] theorem answerWrite_gfRes : s.answerWrite.gfRes = s.gfRes := rfl
@[simp] theorem answerWrite_pen : s.answerWrite.pen = s.pen := rfl
@[simp] theorem answerWrite_mem : s.answerWrite.mem = s.mem := rfl
@[simp] theorem answerWrite_eng : s.answerWrite.eng = s.eng := rfl
@[simp] theorem answerWrite_stepsLeft : s.answerWrite.stepsLeft = s.stepsLeft := rfl
@[simp] theorem answerWrite_hostTurns : s.answerWrite.hostTurns = s.hostTurns := rfl
@[simp] theorem answerWrite_encodeLayout : s.answerWrite.encodeLayout = s.encodeLayout := rfl
@[simp] theorem answerWrite_draws : s.answerWrite.draws = s.draws + 1 := rfl
@[simp] theorem answerWrite_powerOns : s.answerWrite.powerOns = s.powerOns := rfl
@[simp] theorem answerWrite_inbox : s.answerWrite.inbox = s.inbox := rfl
@[simp] theorem answerWrite_resp : s.answerWrite.resp = some ⟨.okay, Config.freeWord s.draws⟩ := rfl

/-! ### VALID bits cleared (R28) -/

@[simp] theorem clearValid_status (c : Valid) : (s.clearValid c).status = s.status := rfl
@[simp] theorem clearValid_ie (c : Valid) : (s.clearValid c).ie = s.ie := rfl
@[simp] theorem clearValid_cmd (c : Valid) : (s.clearValid c).cmd = s.cmd := rfl
@[simp] theorem clearValid_errCode (c : Valid) : (s.clearValid c).errCode = s.errCode := rfl
@[simp] theorem clearValid_errInfo (c : Valid) : (s.clearValid c).errInfo = s.errInfo := rfl
@[simp] theorem clearValid_valid (c : Valid) : (s.clearValid c).valid = s.valid.minus c := rfl
@[simp] theorem clearValid_config (c : Valid) : (s.clearValid c).config = s.config := rfl
@[simp] theorem clearValid_msgLen (c : Valid) : (s.clearValid c).msgLen = s.msgLen := rfl
@[simp] theorem clearValid_layout (c : Valid) : (s.clearValid c).layout = s.layout := rfl
@[simp] theorem clearValid_statBits (c : Valid) : (s.clearValid c).statBits = s.statBits := rfl
@[simp] theorem clearValid_seqLen (c : Valid) : (s.clearValid c).seqLen = s.seqLen := rfl
@[simp] theorem clearValid_seqBits (c : Valid) : (s.clearValid c).seqBits = s.seqBits := rfl
@[simp] theorem clearValid_best (c : Valid) : (s.clearValid c).best = s.best := rfl
@[simp] theorem clearValid_fmtWord (c : Valid) : (s.clearValid c).fmtWord = s.fmtWord := rfl
@[simp] theorem clearValid_verWord (c : Valid) : (s.clearValid c).verWord = s.verWord := rfl
@[simp] theorem clearValid_gfOp (c : Valid) : (s.clearValid c).gfOp = s.gfOp := rfl
@[simp] theorem clearValid_gfRes (c : Valid) : (s.clearValid c).gfRes = s.gfRes := rfl
@[simp] theorem clearValid_pen (c : Valid) : (s.clearValid c).pen = s.pen := rfl
@[simp] theorem clearValid_mem (c : Valid) : (s.clearValid c).mem = s.mem := rfl
@[simp] theorem clearValid_eng (c : Valid) : (s.clearValid c).eng = s.eng := rfl
@[simp] theorem clearValid_stepsLeft (c : Valid) : (s.clearValid c).stepsLeft = s.stepsLeft := rfl
@[simp] theorem clearValid_hostTurns (c : Valid) : (s.clearValid c).hostTurns = s.hostTurns := rfl
@[simp] theorem clearValid_encodeLayout (c : Valid) : (s.clearValid c).encodeLayout = s.encodeLayout := rfl
@[simp] theorem clearValid_draws (c : Valid) : (s.clearValid c).draws = s.draws := rfl
@[simp] theorem clearValid_powerOns (c : Valid) : (s.clearValid c).powerOns = s.powerOns := rfl
@[simp] theorem clearValid_inbox (c : Valid) : (s.clearValid c).inbox = s.inbox := rfl
@[simp] theorem clearValid_resp (c : Valid) : (s.clearValid c).resp = s.resp := rfl

/-! ### What a stage of ENCODE sees (R107) -/

@[simp] theorem stageView_status : s.stageView.status = s.status := rfl
@[simp] theorem stageView_ie : s.stageView.ie = s.ie := rfl
@[simp] theorem stageView_cmd : s.stageView.cmd = s.cmd := rfl
@[simp] theorem stageView_errCode : s.stageView.errCode = s.errCode := rfl
@[simp] theorem stageView_errInfo : s.stageView.errInfo = s.errInfo := rfl
@[simp] theorem stageView_valid : s.stageView.valid = s.valid := rfl
@[simp] theorem stageView_config : s.stageView.config = s.config := rfl
@[simp] theorem stageView_msgLen : s.stageView.msgLen = s.msgLen := rfl
@[simp] theorem stageView_layout : s.stageView.layout = s.stageLayout := rfl
@[simp] theorem stageView_statBits : s.stageView.statBits = s.statBits := rfl
@[simp] theorem stageView_seqLen : s.stageView.seqLen = s.seqLen := rfl
@[simp] theorem stageView_seqBits : s.stageView.seqBits = s.seqBits := rfl
@[simp] theorem stageView_best : s.stageView.best = s.best := rfl
@[simp] theorem stageView_fmtWord : s.stageView.fmtWord = s.fmtWord := rfl
@[simp] theorem stageView_verWord : s.stageView.verWord = s.verWord := rfl
@[simp] theorem stageView_gfOp : s.stageView.gfOp = s.gfOp := rfl
@[simp] theorem stageView_gfRes : s.stageView.gfRes = s.gfRes := rfl
@[simp] theorem stageView_pen : s.stageView.pen = s.pen := rfl
@[simp] theorem stageView_mem : s.stageView.mem = s.mem := rfl
@[simp] theorem stageView_eng : s.stageView.eng = s.eng := rfl
@[simp] theorem stageView_stepsLeft : s.stageView.stepsLeft = s.stepsLeft := rfl
@[simp] theorem stageView_hostTurns : s.stageView.hostTurns = s.hostTurns := rfl
@[simp] theorem stageView_encodeLayout : s.stageView.encodeLayout = s.encodeLayout := rfl
@[simp] theorem stageView_draws : s.stageView.draws = s.draws := rfl
@[simp] theorem stageView_powerOns : s.stageView.powerOns = s.powerOns := rfl
@[simp] theorem stageView_inbox : s.stageView.inbox = s.inbox := rfl
@[simp] theorem stageView_resp : s.stageView.resp = s.resp := rfl

/-! ### BUSY follows ENG (R59) -/

theorem busy_iff : s.busy = true ↔ s.eng ≠ .idle := by
  unfold State.busy; split <;> simp_all

theorem not_busy_iff : s.busy = false ↔ s.eng = .idle := by
  unfold State.busy; split <;> simp_all

/-- Outside ENCODE, and in its stage CFG, the state a stage sees is the state itself. -/
theorem stageView_of_cfg (h : s.encodeStage = .cfg) : s.stageView = s := by
  unfold State.stageView State.stageLayout; rw [h]

theorem stageView_of_idle (h : s.eng = .idle) : s.stageView = s :=
  stageView_of_cfg s (by unfold State.encodeStage; rw [h])

/-- A later stage sees the layout that CFG has loaded. -/
theorem stageLayout_of_running {w : Word} {st : Stage} (h : s.eng = .running w (some st)) (hc : st ≠ .cfg) :
    s.stageLayout = s.encodeLayout := by
  unfold State.stageLayout State.encodeStage
  rw [h]
  cases st <;> first | rfl | exact absurd rfl hc

/-! ### VALID -/

@[simp] theorem minus_empty (v : Valid) : v.minus {} = v := by simp [Valid.minus]

@[simp] theorem plus_empty (v : Valid) : v.plus {} = v := by simp [Valid.plus]

@[simp] theorem clearValid_empty : s.clearValid {} = s := by simp [State.clearValid]

end Sys2Proof.Machine
end

