-- ==== Sys2Proof/Laws/Ops.lean ====
section
/-! SUPPORT. What the shared operations of a command's life do: an error, a success, a stage of ENCODE (40_control.md R97-R99,
R107; 60_exceptions.md R184, R185), and `exec` as one check and one effect for every command. -/

namespace Sys2Proof.Machine

/-! ### How a command ends -/

/-- R98, R184: an error recorded and the command completed. -/
theorem recordError_complete (s : State) (op : Byte) (e : CmdError) (c k : Valid) :
    (s.recordError op e).complete c k =
      s.failed op e.cls.code e.detail e.pos e.chr ((s.valid.minus c).plus k) := by
  obtain ⟨cls, d, p, ch⟩ := e
  cases cls <;> rfl

theorem complete_eq_succeeded (s : State) (c k : Valid) : s.complete c k = s.succeeded ((s.valid.minus c).plus k) := rfl

theorem perform_some (s : State) (op : Opcode) (e : CmdError) (u : State) :
    s.perform op (some e) u = s.failed op.code e.cls.code e.detail e.pos e.chr (s.valid.minus (clearSet op)) := by
  simp [State.perform, recordError_complete]

theorem perform_none (s : State) (op : Opcode) (u : State) :
    s.perform op none u = u.succeeded ((u.valid.minus (clearSet op)).plus (setSet op)) := rfl

theorem performStage_some (s : State) (st : Stage) (e : CmdError) (u : State) :
    s.performStage st (some e) u = s.stageView.failed st.opcode.code e.cls.code e.detail e.pos e.chr
      ((s.valid.minus (clearSet .encode)).plus st.earlierSet) := by
  simp [State.performStage, recordError_complete]

theorem performIllegal_eq (s : State) (w : Word) (e : Illegal) :
    s.performIllegal w e = s.failed (opField w) 5 e.detail 0 0 s.valid := by
  simp [State.performIllegal, recordError_complete, ErrorClass.code]

/-! ### `exec` as a check and an effect -/

/-- The check of a stage of ENCODE. -/
def stageCheck (s : State) : Stage → Option CmdError
  | .cfg => cfgCheck s
  | .bitenc => bitencCheck s
  | .rsenc => layoutCheck false s.layout
  | .ileave => layoutCheck true s.layout

/-- The effect of a stage of ENCODE. -/
def stageEffect (s : State) : Stage → State
  | .cfg => cfgEffect s
  | .bitenc => bitencEffect s
  | .rsenc => rsencEffect s
  | .ileave => ileaveEffect s

/-- The check of a command of one stage; ENCODE's is that of the stage ENG names, on the state the stage sees. -/
def checkOf (s : State) : Instr → Option CmdError
  | .nop => none
  | .cfg => cfgCheck s
  | .bitenc => bitencCheck s
  | .rsenc => layoutCheck false s.layout
  | .ileave => layoutCheck true s.layout
  | .encode => stageCheck s.stageView s.encodeStage
  | .meval => mevalCheck s
  | .mapplyM m => mapplyCheck s (.explicit m)
  | .mapplyBest => mapplyCheck s .best
  | .fmtgenM m => fmtgenCheck s (.explicit m)
  | .fmtgenBest => fmtgenCheck s .best
  | .gfmul => none

/-- The effect of a command of one stage; ENCODE's is that of the stage ENG names, on the state the stage sees. -/
def effectOf (s : State) : Instr → State
  | .nop => s
  | .cfg => cfgEffect s
  | .bitenc => bitencEffect s
  | .rsenc => rsencEffect s
  | .ileave => ileaveEffect s
  | .encode => stageEffect s.stageView s.encodeStage
  | .meval => mevalEffect s
  | .mapplyM m => mapplyEffect s (BitVec.ofNat 3 m)
  | .mapplyBest => mapplyEffect s s.best
  | .fmtgenM m => fmtgenEffect s (BitVec.ofNat 3 m)
  | .fmtgenBest => fmtgenEffect s s.best
  | .gfmul => gfmulEffect s

theorem exec_eq_perform (s : State) {i : Instr} (h : i ≠ .encode) :
    exec i s = .next (s.perform i.opcode (checkOf s i) (effectOf s i)) := by
  cases i <;> first | rfl | exact absurd rfl h

theorem exec_encode (s : State) : exec .encode s =
    .next (s.performStage s.encodeStage (stageCheck s.stageView s.encodeStage)
      (stageEffect s.stageView s.encodeStage)) := by
  show execEncode s = _
  unfold execEncode
  cases s.encodeStage <;> rfl

/-- Every command answers a next state. -/
theorem exec_answers (i : Instr) (s : State) : ∃ t, exec i s = .next t := by
  by_cases h : i = .encode
  · exact h ▸ ⟨_, exec_encode s⟩
  · exact ⟨_, exec_eq_perform s h⟩

/-- Everything a command can do: it fails and writes nothing (a later stage of ENCODE leaves the layout CFG has loaded), it
enters the next stage of ENCODE with the layout registers as they were, or it succeeds. -/
theorem exec_cases {i : Instr} {s t : State} (h : exec i s = .next t) :
    (∃ e op k l, checkOf s i = some e ∧
      t = ({ s with layout := l } : State).failed op e.cls.code e.detail e.pos e.chr k ∧
      (i ≠ .encode → l = s.layout ∧ op = i.opcode.code ∧ k = s.valid.minus (clearSet i.opcode)) ∧
      (i = .encode → l = s.stageLayout ∧ op = s.encodeStage.opcode.code ∧
        k = (s.valid.minus (clearSet .encode)).plus s.encodeStage.earlierSet)) ∨
    (i = .encode ∧ checkOf s i = none ∧ ∃ st, s.encodeStage.next = some st ∧ t = (effectOf s i).enterStage st s.layout) ∨
    (checkOf s i = none ∧ (i = .encode → s.encodeStage = .ileave) ∧
      t = (effectOf s i).succeeded (((effectOf s i).valid.minus (clearSet i.opcode)).plus (setSet i.opcode))) := by
  by_cases hi : i = .encode
  · subst hi
    rw [exec_encode] at h
    injection h with h
    subst h
    show _ ∨ (_ ∧ stageCheck s.stageView s.encodeStage = none ∧ _) ∨ (stageCheck s.stageView s.encodeStage = none ∧ _)
    cases hc : stageCheck s.stageView s.encodeStage with
    | some e => exact .inl ⟨e, _, _, s.stageLayout, hc, performStage_some .., fun h => absurd rfl h, fun _ => ⟨rfl, rfl, rfl⟩⟩
    | none =>
      cases hn : s.encodeStage.next with
      | some st => exact .inr (.inl ⟨rfl, rfl, st, rfl, by simp [State.performStage, hn, effectOf]⟩)
      | none =>
        refine .inr (.inr ⟨rfl, fun _ => ?_, by simp [State.performStage, hn, effectOf]; rfl⟩)
        revert hn
        cases s.encodeStage <;> simp [Stage.next]
  · rw [exec_eq_perform s hi] at h
    injection h with h
    subst h
    cases hc : checkOf s i with
    | some e => exact .inl ⟨e, _, _, s.layout, rfl, perform_some .., fun _ => ⟨rfl, rfl, rfl⟩, fun h => absurd h hi⟩
    | none => exact .inr (.inr ⟨rfl, fun h => absurd h hi, rfl⟩)

end Sys2Proof.Machine
end

