-- ==== Sys2Proof/Laws/Effects.lean ====
section
/-! SUPPORT. What the effect of each command does: the bytes it writes, the registers it keeps, and that memory stays in
canonical form. -/

namespace Sys2Proof.Machine

/-! ### BITENC -/

@[simp] theorem dataCodewords_length (md w d : Nat) (msg : List Byte) : (dataCodewords md w d msg).length = d := by
  simp [dataCodewords]

theorem dataCodewords_getD (md w d : Nat) (msg : List Byte) (j : Nat) (h : j < d) :
    (dataCodewords md w d msg).getD j 0 = codeword (bitStream md w d msg) j := by
  simp [dataCodewords, List.getD, h]

theorem keepBits_of_ne {a : Nat} {b : Byte} (h : windowOf a ≠ .matrix) : keepBits a b = b := if_neg h

/-- R129: every byte after BITENC. -/
theorem bitencEffect_byteAt (s : State) (a : Nat) : (bitencEffect s).byteAt a =
    if dataBase ≤ a ∧ a < dataBase + s.layout.dcwTotal.toNat then
      codeword (bitStream s.mode s.layout.cciWidth.toNat s.layout.dcwTotal.toNat s.message) (a - dataBase)
    else s.byteAt a := by
  have hd : s.layout.dcwTotal.toNat < 2 ^ 12 := BitVec.isLt _
  have : (bitencEffect s).byteAt a = (s.store dataBase
      (dataCodewords s.mode s.layout.cciWidth.toNat s.layout.dcwTotal.toNat s.message)).byteAt a := byteAt_congr rfl rfl a
  rw [this, byteAt_store, dataCodewords_length]
  split
  · next h =>
    rw [keepBits_of_ne, dataCodewords_getD _ _ _ _ _ (by omega)]
    rw [ne_eq, windowOf_matrix_iff]
    simp only [dataBase] at h
    omega
  · rfl

/-! ### RSENC -/

@[simp] theorem addCoeffs_length (p q : List Byte) : (addCoeffs p q).length = min p.length q.length := by simp [addCoeffs]

@[simp] theorem scaleCoeffs_length (c : Byte) (p : List Byte) : (scaleCoeffs c p).length = p.length := by
  simp [scaleCoeffs]

@[simp] theorem genPoly_length (e : Nat) : (genPoly e).length = e + 1 := by
  induction e with
  | zero => rfl
  | succ e ih => simp [genPoly, mulByRoot, ih]

theorem divStep_length (g r : List Byte) (m : Byte) (h : g.length = r.length + 1) (hr : 0 < r.length) :
    (divStep g r m).length = r.length := by
  simp [divStep, h]; omega

@[simp] theorem ecCodewords_length (e : Nat) (block : List Byte) (he : 1 ≤ e) : (ecCodewords e block).length = e := by
  unfold ecCodewords
  have : ∀ (b : List Byte) (r : List Byte), r.length = e → (b.foldl (divStep (genPoly e)) r).length = e := by
    intro b
    induction b with
    | nil => intro r hr; exact hr
    | cons m rest ih =>
      intro r hr
      exact ih _ (by rw [divStep_length _ _ _ (by simp [hr]) (by omega), hr])
  exact this _ _ (by simp)

theorem ite_some_eq_none {α : Type} {c : Prop} [Decidable c] {x : α} {y : Option α} :
    (if c then some x else y) = none ↔ ¬ c ∧ y = none := by split <;> simp_all

/-- R145: what the layout check says when it passes. -/
theorem layoutCheck_none_iff {ileave : Bool} {l : Layout} : layoutCheck ileave l = none ↔
    0 < l.g1.count.toNat ∧ 0 < l.g1.dcw.toNat ∧ (0 < l.g2.count.toNat → l.g2.dcw.toNat = l.g1.dcw.toNat + 1) ∧
    l.g1.count.toNat * l.g1.dcw.toNat + l.g2.count.toNat * l.g2.dcw.toNat = l.dcwTotal.toNat ∧
    1 ≤ l.ecwBlk.toNat ∧ l.ecwBlk.toNat ≤ 31 ∧ l.eccTotal ≤ 4096 ∧
    (ileave = true → l.seqTotal + (if 0 < l.remBits.toNat then 1 else 0) ≤ 4096) := by
  have h4 : l.g2.count.toNat * (if 0 < l.g2.count.toNat then l.g2.dcw.toNat else 0) =
      l.g2.count.toNat * l.g2.dcw.toNat := by
    split
    · rfl
    · next hz => rw [show l.g2.count.toNat = 0 by omega]; simp
  unfold layoutCheck
  simp only [ite_some_eq_none, h4]
  simp only [Config.eMax, Config.cwBytes]
  generalize l.g1.count.toNat * l.g1.dcw.toNat + l.g2.count.toNat * l.g2.dcw.toNat = total
  generalize (if 0 < l.remBits.toNat then 1 else 0) = rem
  constructor
  · rintro ⟨h1, h2, h3, h4, h5, h6, h7⟩
    refine ⟨by omega, by omega, by omega, by omega, by omega, by omega, by omega, fun hi => ?_⟩
    by_contra hc
    exact h7.1 ⟨hi, by omega⟩
  · rintro ⟨h1, h2, h3, h4, h5, h6, h7, h8⟩
    refine ⟨by omega, by omega, by omega, by omega, by omega, by omega, ?_, trivial⟩
    rintro ⟨hi, hc⟩
    have := h8 hi
    omega

theorem layoutCheck_none {ileave : Bool} {l : Layout} (h : layoutCheck ileave l = none) :
    0 < l.g1.count.toNat ∧ 0 < l.g1.dcw.toNat ∧ (0 < l.g2.count.toNat → l.g2.dcw.toNat = l.g1.dcw.toNat + 1) ∧
    l.g1.count.toNat * l.g1.dcw.toNat + l.g2.count.toNat * l.g2.dcw.toNat = l.dcwTotal.toNat ∧
    1 ≤ l.ecwBlk.toNat ∧ l.ecwBlk.toNat ≤ 31 ∧ l.eccTotal ≤ 4096 ∧
    (ileave = true → l.seqTotal + (if 0 < l.remBits.toNat then 1 else 0) ≤ 4096) := layoutCheck_none_iff.1 h

theorem layoutCheck_false_of_true {l : Layout} (h : layoutCheck true l = none) : layoutCheck false l = none := by
  rw [layoutCheck_none_iff] at h ⊢
  exact ⟨h.1, h.2.1, h.2.2.1, h.2.2.2.1, h.2.2.2.2.1, h.2.2.2.2.2.1, h.2.2.2.2.2.2.1, fun h => absurd h (by decide)⟩

@[simp] theorem genBuffer_length (e : Nat) (h : e ≤ 31) : (genBuffer e).length = 32 := by
  simp [genBuffer, Config.genBytes]; omega

theorem genBuffer_getD (e i : Nat) : (genBuffer e).getD i 0 = if i ≤ e then (genPoly e).getD i 0 else 0 := by
  unfold genBuffer
  split
  · rw [List.getD_append _ _ _ _ (by simp; omega)]
  · rw [List.getD_append_right _ _ _ _ (by simp; omega)]
    simp [List.getD, List.getElem?_replicate]
    split <;> rfl

theorem allEcc_length (s : State) (he : 1 ≤ s.layout.ecwBlk.toNat) : s.allEcc.length = s.layout.eccTotal := by
  unfold State.allEcc Layout.eccTotal
  exact flatMap_range_length _ _ _ fun b _ => ecCodewords_length _ _ he

theorem allEcc_getD (s : State) (he : 1 ≤ s.layout.ecwBlk.toNat) (b k : Nat) (hb : b < s.layout.nb)
    (hk : k < s.layout.ecwBlk.toNat) : s.allEcc.getD (b * s.layout.ecwBlk.toNat + k) 0 =
      (ecCodewords s.layout.ecwBlk.toNat (s.blockData b)).getD k 0 := by
  unfold State.allEcc
  exact flatMap_range_getD _ _ _ _ (fun b _ => ecCodewords_length _ _ he) b k hb hk

/-- R146, R149, R150: every byte after RSENC. -/
theorem rsencEffect_byteAt (s : State) (h : layoutCheck false s.layout = none) (a : Nat) : (rsencEffect s).byteAt a =
    if eccBase ≤ a ∧ a < eccBase + s.layout.eccTotal then s.allEcc.getD (a - eccBase) 0
    else if genBase ≤ a ∧ a < genBase + 32 then (genBuffer s.layout.ecwBlk.toNat).getD (a - genBase) 0
    else s.byteAt a := by
  obtain ⟨-, -, -, -, he, he', hc, -⟩ := layoutCheck_none h
  unfold rsencEffect
  rw [byteAt_store, byteAt_store, allEcc_length s he, genBuffer_length _ he']
  split
  · next h => rw [keepBits_of_ne]; rw [ne_eq, windowOf_matrix_iff]; simp only [eccBase] at h; omega
  · split
    · next h => rw [keepBits_of_ne]; rw [ne_eq, windowOf_matrix_iff]; simp only [genBase] at h; omega
    · rfl

/-! ### ILEAVE -/

theorem dataColumn_length (s : State) (h : layoutCheck false s.layout = none) (j : Nat) (hj : j < s.layout.g1.dcw.toNat) :
    s.dataColumn j = (List.range s.layout.nb).map (fun b => s.byteAt (dataBase + (s.layout.blockStart b + j))) := by
  obtain ⟨-, -, h2, -⟩ := layoutCheck_none h
  unfold State.dataColumn
  rw [List.filter_eq_self.2]
  intro b hb
  have hb := List.mem_range.1 hb
  unfold Layout.nb at hb
  refine decide_eq_true ?_
  unfold Layout.blockLength
  split
  · exact hj
  · have := h2 (by omega)
    omega

/-- R154: the extra column of the longer blocks. -/
theorem dataColumn_extra (s : State) (h : layoutCheck false s.layout = none) :
    s.dataColumn s.layout.g1.dcw.toNat = (List.range s.layout.g2.count.toNat).map (fun k =>
      s.byteAt (dataBase + (s.layout.blockStart (s.layout.g1.count.toNat + k) + s.layout.g1.dcw.toNat))) := by
  obtain ⟨-, -, h2, -⟩ := layoutCheck_none h
  unfold State.dataColumn Layout.nb
  rw [List.range_add, List.filter_append, List.filter_eq_nil_iff.2, List.nil_append, List.filter_eq_self.2, List.map_map]
  · rfl
  · intro b hb
    simp only [List.mem_map, List.mem_range] at hb
    obtain ⟨k, hk, rfl⟩ := hb
    refine decide_eq_true ?_
    have := h2 (by omega)
    rw [Layout.blockLength, if_neg (by omega)]; omega
  · intro b hb
    have := List.mem_range.1 hb
    simp [Layout.blockLength, this]

@[simp] theorem eccColumn_length (s : State) (j : Nat) : (s.eccColumn j).length = s.layout.nb := by simp [State.eccColumn]

/-- R153, R154: the interleaved codewords: the full columns, the extra column, the EC columns. -/
theorem interleaved_eq (s : State) (h : layoutCheck false s.layout = none) : s.interleaved =
    (List.range s.layout.g1.dcw.toNat).flatMap
      (fun j => (List.range s.layout.nb).map (fun b => s.byteAt (dataBase + (s.layout.blockStart b + j)))) ++
    ((List.range s.layout.g2.count.toNat).map (fun k =>
      s.byteAt (dataBase + (s.layout.blockStart (s.layout.g1.count.toNat + k) + s.layout.g1.dcw.toNat))) ++
    (List.range s.layout.ecwBlk.toNat).flatMap s.eccColumn) := by
  obtain ⟨-, -, h2, -⟩ := layoutCheck_none h
  unfold State.interleaved
  rw [← List.append_assoc]
  congr 1
  unfold Layout.maxLength
  have hfull : (List.range s.layout.g1.dcw.toNat).flatMap s.dataColumn = (List.range s.layout.g1.dcw.toNat).flatMap
      (fun j => (List.range s.layout.nb).map (fun b => s.byteAt (dataBase + (s.layout.blockStart b + j)))) := by
    apply List.flatMap_congr
    intro j hj
    exact dataColumn_length s h j (List.mem_range.1 hj)
  by_cases hc : 0 < s.layout.g2.count.toNat
  · rw [if_pos hc, h2 hc, List.range_succ, List.flatMap_append, hfull]
    simp [dataColumn_extra s h]
  · rw [if_neg hc, hfull]
    simp [show s.layout.g2.count.toNat = 0 by omega]

theorem interleaved_length (s : State) (h : layoutCheck false s.layout = none) :
    s.interleaved.length = s.layout.seqTotal := by
  obtain ⟨-, -, h2, h3, -⟩ := layoutCheck_none h
  rw [interleaved_eq s h]
  simp only [List.length_append, List.length_map, List.length_range]
  rw [flatMap_range_length _ s.layout.nb _ (fun b _ => by simp), flatMap_range_length _ s.layout.nb _ (fun b _ => by simp)]
  unfold Layout.seqTotal Layout.eccTotal
  rw [Nat.mul_comm s.layout.ecwBlk.toNat, ← Nat.add_assoc]
  congr 1
  rw [← h3]
  unfold Layout.nb
  rcases Nat.eq_zero_or_pos s.layout.g2.count.toNat with hz | hz
  · rw [hz]; ring
  · rw [h2 hz]; ring

/-- R153, R155: every byte after ILEAVE. -/
theorem ileaveEffect_byteAt (s : State) (h : layoutCheck true s.layout = none) (a : Nat) : (ileaveEffect s).byteAt a =
    if seqBase ≤ a ∧ a < seqBase + s.layout.seqTotal then s.interleaved.getD (a - seqBase) 0
    else if a = seqBase + s.layout.seqTotal ∧ 0 < s.layout.remBits.toNat then 0
    else s.byteAt a := by
  have hl := interleaved_length s (layoutCheck_false_of_true h)
  obtain ⟨-, -, -, -, -, -, -, hc⟩ := layoutCheck_none h
  have hc := hc rfl
  have : (ileaveEffect s).byteAt a = (s.store seqBase (s.interleaved ++ remainderByte s.layout)).byteAt a :=
    byteAt_congr rfl rfl a
  have hw : seqBase ≤ a ∧ a < seqBase + 4096 → windowOf a ≠ .matrix := by
    intro h; rw [ne_eq, windowOf_matrix_iff]; simp only [seqBase] at h; omega
  have hr : (remainderByte s.layout).length = if 0 < s.layout.remBits.toNat then 1 else 0 := by
    unfold remainderByte; split <;> rfl
  rw [this, byteAt_store, List.length_append, hl, hr]
  by_cases h1 : seqBase ≤ a ∧ a < seqBase + s.layout.seqTotal
  · rw [if_pos h1, if_pos (by omega), keepBits_of_ne (hw (by omega)), List.getD_append _ _ _ _ (by omega)]
  · rw [if_neg h1]
    by_cases h2 : a = seqBase + s.layout.seqTotal ∧ 0 < s.layout.remBits.toNat
    · have h3 := h2.2
      rw [if_pos h3] at hc
      rw [if_pos h2, if_pos (by rw [if_pos h3]; omega), keepBits_of_ne (hw (by omega)),
        List.getD_append_right _ _ _ _ (by omega), hl, h2.1]
      simp [remainderByte, h3]
    · rw [if_neg h2, if_neg]
      split <;> omega

/-! ### MAPPLY -/

@[simp] theorem maskedRow_length (s : State) (m : BitVec 3) (r : Nat) : (s.maskedRow m r).length = s.side := by
  simp [State.maskedRow]

theorem versionOk_iff (s : State) : s.versionOk = true ↔ 1 ≤ s.config.version.toNat ∧ s.config.version.toNat ≤ 40 := by
  unfold State.versionOk
  rw [Bool.and_eq_true, decide_eq_true_eq, decide_eq_true_eq]
  rfl

/-- R104: the legal CONFIG values. -/
theorem legal_iff (c : ConfigReg) : c.legal = true ↔
    1 ≤ c.version.toNat ∧ c.version.toNat ≤ 40 ∧ c.mode.toNat ≤ 2 ∧ c.ecLevel.toNat ≤ 3 := by
  unfold ConfigReg.legal
  simp only [Bool.and_eq_true, decide_eq_true_eq, and_assoc]
  exact Iff.rfl

/-- R104: CFG loads a layout exactly for a legal CONFIG. -/
theorem cfgCheck_none_iff (s : State) : cfgCheck s = none ↔ s.config.legal = true := by
  have hv := versionOk_iff s
  rw [legal_iff]
  unfold cfgCheck State.mode State.level
  cases hs : s.versionOk <;> simp only [hs, Bool.false_eq_true, false_iff, true_iff] at hv
  · simp; omega
  · simp only [Bool.not_true, Bool.false_eq_true, if_false]
    split
    · simp; omega
    · split
      · simp; omega
      · simp; omega

theorem side_le (s : State) (h : s.versionOk = true) : s.side ≤ 177 := by
  rw [versionOk_iff] at h
  unfold State.side
  omega

theorem moduleAddr_eq (r c : Nat) : moduleAddr r c = 0x8000 + 177 * r + c := rfl

theorem keepBits_toByte (a : Nat) (md : Module) : keepBits a md.toByte = md.toByte := by
  unfold keepBits
  split
  · rcases md with ⟨d, r⟩; cases d <;> cases r <;> rfl
  · rfl

/-- R173: every byte after the first n rows of MAPPLY. -/
theorem mapplyRows_byteAt (s : State) (m : BitVec 3) (hs : s.side ≤ 177) (n a : Nat) :
    ((List.range n).foldl (fun t r => t.store (moduleAddr r 0) (s.maskedRow m r)) s).byteAt a =
      if 0x8000 ≤ a ∧ (a - 0x8000) / 177 < n ∧ (a - 0x8000) % 177 < s.side then
        s.maskedModule m ((a - 0x8000) / 177) ((a - 0x8000) % 177)
      else s.byteAt a := by
  induction n with
  | zero => simp
  | succ n ih =>
    rw [List.range_succ, List.foldl_append, List.foldl_cons, List.foldl_nil, byteAt_store, ih, maskedRow_length,
      moduleAddr_eq]
    by_cases h : 0x8000 + 177 * n + 0 ≤ a ∧ a < 0x8000 + 177 * n + 0 + s.side
    · have h1 : (a - 0x8000) / 177 = n := by omega
      have h2 : (a - 0x8000) % 177 = a - (0x8000 + 177 * n) := by omega
      rw [if_pos h, if_pos (by omega), h1, h2]
      have : (s.maskedRow m n).getD (a - (0x8000 + 177 * n + 0)) 0 = s.maskedModule m n (a - (0x8000 + 177 * n)) := by
        simp only [State.maskedRow, List.getD_eq_getElem?_getD, Nat.add_zero]
        rw [List.getElem?_map, List.getElem?_range (by omega)]
        rfl
      rw [this]
      exact keepBits_toByte _ _
    · rw [if_neg h]
      by_cases h1 : 0x8000 ≤ a ∧ (a - 0x8000) / 177 < n ∧ (a - 0x8000) % 177 < s.side
      · rw [if_pos h1, if_pos (by omega)]
      · rw [if_neg h1, if_neg (by omega)]

theorem mapplyRows_frame (s : State) (m : BitVec 3) (rows : List Nat) (t : State) :
    rows.foldl (fun t r => t.store (moduleAddr r 0) (s.maskedRow m r)) t =
      { t with mem := (rows.foldl (fun t r => t.store (moduleAddr r 0) (s.maskedRow m r)) t).mem } := by
  induction rows generalizing t with
  | nil => rfl
  | cons r rows ih =>
    rw [List.foldl_cons, ih]
    rfl

/-- R173: MAPPLY writes memory alone. -/
theorem mapplyEffect_frame (s : State) (m : BitVec 3) :
    mapplyEffect s m = { s with mem := (mapplyEffect s m).mem } := mapplyRows_frame s m _ s

/-- R173: every byte after MAPPLY. -/
theorem mapplyEffect_byteAt (s : State) (m : BitVec 3) (hs : s.side ≤ 177) (a : Nat) : (mapplyEffect s m).byteAt a =
    if 0x8000 ≤ a ∧ (a - 0x8000) / 177 < s.side ∧ (a - 0x8000) % 177 < s.side then
      s.maskedModule m ((a - 0x8000) / 177) ((a - 0x8000) % 177)
    else s.byteAt a := mapplyRows_byteAt s m hs _ a

/-! ### The canonical form of memory -/

theorem bitencEffect_wf {s : State} (h : Memory.wf s.mem) : Memory.wf (bitencEffect s).mem := by
  refine store_wf h _ _ fun k hk => (windowOf_isRam_iff _).2 ?_
  have hd : s.layout.dcwTotal.toNat < 2 ^ 12 := BitVec.isLt _
  rw [dataCodewords_length] at hk
  simp only [dataBase]
  omega

theorem rsencEffect_wf {s : State} (hc : layoutCheck false s.layout = none) (h : Memory.wf s.mem) :
    Memory.wf (rsencEffect s).mem := by
  obtain ⟨-, -, -, -, he, he', hn, -⟩ := layoutCheck_none hc
  refine store_wf (store_wf h _ _ fun k hk => (windowOf_isRam_iff _).2 ?_) _ _ fun k hk => (windowOf_isRam_iff _).2 ?_
  · rw [genBuffer_length _ he'] at hk
    simp only [genBase]
    omega
  · rw [allEcc_length s he] at hk
    simp only [eccBase]
    omega

theorem ileaveEffect_wf {s : State} (hc : layoutCheck true s.layout = none) (h : Memory.wf s.mem) :
    Memory.wf (ileaveEffect s).mem := by
  have hl := interleaved_length s (layoutCheck_false_of_true hc)
  obtain ⟨-, -, -, -, -, -, -, hn⟩ := layoutCheck_none hc
  have hn := hn rfl
  have hr : (remainderByte s.layout).length = if 0 < s.layout.remBits.toNat then 1 else 0 := by
    unfold remainderByte; split <;> rfl
  refine store_wf h _ _ fun k hk => (windowOf_isRam_iff _).2 ?_
  rw [List.length_append, hl, hr] at hk
  simp only [seqBase]
  omega

theorem mapplyEffect_wf {s : State} (m : BitVec 3) (hs : s.side ≤ 177) (h : Memory.wf s.mem) :
    Memory.wf (mapplyEffect s m).mem := by
  have : ∀ n, n ≤ 177 → Memory.wf ((List.range n).foldl (fun t r => t.store (moduleAddr r 0) (s.maskedRow m r)) s).mem := by
    intro n hn
    induction n with
    | zero => exact h
    | succ n ih =>
      rw [List.range_succ, List.foldl_append, List.foldl_cons, List.foldl_nil]
      refine store_wf (ih (by omega)) _ _ fun k hk => (windowOf_isRam_iff _).2 ?_
      rw [maskedRow_length] at hk
      rw [moduleAddr_eq]
      omega
  exact this _ hs

/-! ### Every command -/

/-- What no command's effect changes: everything but the outputs of its write set (R96). -/
theorem effectOf_frame (s : State) (i : Instr) :
    effectOf s i = { s with
      layout := (effectOf s i).layout, statBits := (effectOf s i).statBits, seqLen := (effectOf s i).seqLen,
      seqBits := (effectOf s i).seqBits, best := (effectOf s i).best, fmtWord := (effectOf s i).fmtWord,
      verWord := (effectOf s i).verWord, gfRes := (effectOf s i).gfRes, pen := (effectOf s i).pen,
      mem := (effectOf s i).mem } := by
  cases i
  case encode => simp only [effectOf]; cases s.encodeStage <;> rfl
  case mapplyM m => simp only [effectOf]; rw [mapplyEffect_frame]
  case mapplyBest => simp only [effectOf]; rw [mapplyEffect_frame]
  all_goals rfl

theorem versionOk_of_mapplyCheck {s : State} {op : MaskOperand} (h : mapplyCheck s op = none) : s.versionOk = true := by
  unfold mapplyCheck at h
  cases hv : s.versionOk
  · simp [hv] at h
  · rfl

/-- Every command that passes its check keeps memory in canonical form. -/
theorem effectOf_wf {s : State} {i : Instr} (hc : checkOf s i = none) (h : Memory.wf s.mem) :
    Memory.wf (effectOf s i).mem := by
  cases i
  case bitenc => exact bitencEffect_wf h
  case rsenc => exact rsencEffect_wf hc h
  case ileave => exact ileaveEffect_wf hc h
  case encode =>
    simp only [checkOf, effectOf] at hc ⊢
    cases hst : s.encodeStage <;> rw [hst] at hc
    · exact h
    · exact bitencEffect_wf h
    · exact rsencEffect_wf hc h
    · exact ileaveEffect_wf hc h
  case mapplyM m => exact mapplyEffect_wf _ (side_le s (versionOk_of_mapplyCheck hc)) h
  case mapplyBest => exact mapplyEffect_wf _ (side_le s (versionOk_of_mapplyCheck hc)) h
  all_goals exact h

end Sys2Proof.Machine
end

