-- ==== Sys2Proof/Laws/PerInstr.lean ====
section
/-! SUPPORT. Statements made for every command as syntax, one lemma per constructor. -/

namespace Sys2Proof.Laws.WordFields

/-- R83, R84, R90: the encoder's word has the command's opcode, its ARG and no reserved bit. -/
def Statement (i : Instr) : Prop :=
  opField (Sys2Proof.encode i) = i.opcode.code ∧ argField (Sys2Proof.encode i) = i.arg ∧ rsvdField (Sys2Proof.encode i) = 0

/-- The fields of three fields put together. -/
theorem fields_append (r : BitVec 20) (a : BitVec 4) (o : BitVec 8) :
    opField (r ++ a ++ o) = o ∧ argField (r ++ a ++ o) = a ∧ rsvdField (r ++ a ++ o) = r := by
  have h : (r ++ a ++ o : BitVec (20 + 4 + 8)).toNat = (r.toNat * 16 + a.toNat) * 256 + o.toNat := by
    have := a.isLt
    have := o.isLt
    rw [BitVec.toNat_append, BitVec.toNat_append, ← Nat.shiftLeft_add_eq_or_of_lt (by omega),
      ← Nat.shiftLeft_add_eq_or_of_lt (by omega), Nat.shiftLeft_eq, Nat.shiftLeft_eq]
  have ha := a.isLt
  have ho := o.isLt
  refine ⟨?_, ?_, ?_⟩ <;> apply BitVec.eq_of_toNat_eq
  · rw [opField_toNat, h]; omega
  · rw [argField_toNat, h]; omega
  · rw [rsvdField_toNat, h]; omega

theorem nop : Statement .nop := fields_append ..
theorem cfg : Statement .cfg := fields_append ..
theorem bitenc : Statement .bitenc := fields_append ..
theorem rsenc : Statement .rsenc := fields_append ..
theorem ileave : Statement .ileave := fields_append ..
theorem encode : Statement .encode := fields_append ..
theorem meval : Statement .meval := fields_append ..
theorem mapplyM (mask : Nat) : Statement (.mapplyM mask) := fields_append ..
theorem mapplyBest : Statement .mapplyBest := fields_append ..
theorem fmtgenM (mask : Nat) : Statement (.fmtgenM mask) := fields_append ..
theorem fmtgenBest : Statement .fmtgenBest := fields_append ..
theorem gfmul : Statement .gfmul := fields_append ..

end Sys2Proof.Laws.WordFields
end

