-- ==== Sys2Proof/Laws/Step.lean ====
section
/-! SUPPORT. Everything a step, an act of the outside world and a reset can do, said once (20_memory.md R66-R77,
70_reset_and_hazards.md R201-R208, R214). -/

namespace Sys2Proof.Machine

/-! ### The step -/

theorem busy_of_running {s : State} {w : Word} {st : Option Stage} (h : s.eng = .running w st) : s.busy = true := by
  unfold State.busy; rw [h]

/-- A run of one step more. -/
theorem run_succ {s s' t : State} {n : Nat} (h : step s = .next s') (hr : Host.Core.run Sys2Proof.core n s' = .next t) :
    Host.Core.run Sys2Proof.core (n + 1) s = .next t := by
  have h' : Sys2Proof.core.step s = .next s' := h
  simp only [Host.Core.run, h', hr]

theorem performWord_answers (w : Word) (s : State) : ∃ t, performWord w s = .next t := by
  unfold performWord
  split
  · exact exec_answers _ _
  · exact ⟨_, rfl⟩

theorem performWord_cases {w : Word} {s t : State} (h : performWord w s = .next t) :
    (∃ i, decode w = .ok i ∧ exec i s = .next t) ∨ (∃ e, decode w = .error e ∧ t = s.performIllegal w e) := by
  unfold performWord at h
  cases hd : decode w with
  | ok i => rw [hd] at h; exact .inl ⟨i, rfl, h⟩
  | error e => rw [hd] at h; injection h with h; exact .inr ⟨e, rfl, h.symm⟩

/-- Everything a step can do. -/
theorem step_cases {s t : State} (h : step s = .next t) :
    (∃ a rest, s.inbox = a :: rest ∧ (s.busy = false ∨ 0 < s.hostTurns) ∧
      t = ({ s with inbox := rest, hostTurns := s.hostTurns - 1 } : State).act a) ∨
    (s.eng = .idle ∧ s.inbox = [] ∧ t = s) ∨
    (∃ w st, s.eng = .running w st ∧ 0 < s.stepsLeft ∧ t = s.tick) ∨
    (∃ w st, s.eng = .running w st ∧ s.stepsLeft = 0 ∧ performWord w s = .next t) := by
  unfold step at h
  split at h
  · next hm =>
    injection h with h
    left
    unfold State.hostMoves at hm
    unfold State.hostStep at h
    cases hi : s.inbox with
    | nil => simp [hi] at hm
    | cons a rest =>
      rw [hi] at h
      refine ⟨a, rest, rfl, ?_, h.symm⟩
      simpa [hi] using hm
  · next hm =>
    right
    unfold engineStep at h
    split at h
    · next he =>
      injection h with h
      refine .inl ⟨he, ?_, h.symm⟩
      unfold State.hostMoves at hm
      have := not_busy_iff s |>.2 he
      simpa [this] using hm
    · next w st he =>
      split at h
      · injection h with h
        exact .inr (.inl ⟨w, st, he, ‹_›, h.symm⟩)
      · exact .inr (.inr ⟨w, st, he, by omega, h⟩)

/-- The engine's step, when the host does not move. -/
theorem step_running {s : State} {w : Word} {st : Option Stage} (he : s.eng = .running w st) (hm : s.hostMoves = false)
    (h0 : s.stepsLeft = 0) : step s = performWord w s := by
  unfold step engineStep
  rw [hm, he]
  simp [h0]

/-! ### An abandoned command (R204) -/

theorem scramble_frame (s : State) (p : Span) :
    s.scramble p = { s with mem := (s.scramble p).mem, draws := (s.scramble p).draws } := rfl

theorem abandon_spans_frame (s : State) (l : List Span) :
    l.foldl State.scramble s =
      { s with mem := (l.foldl State.scramble s).mem, draws := (l.foldl State.scramble s).draws } := by
  induction l generalizing s with
  | nil => rfl
  | cons p l ih =>
    rw [List.foldl_cons, ih, scramble_frame]

@[simp] theorem freeBytes_length (k n : Nat) : (freeBytes k n).length = n := by simp [freeBytes]

theorem scramble_byteAt (s : State) (p : Span) (a : Nat) : (s.scramble p).byteAt a =
    if p.1 ≤ a ∧ a < p.1 + p.2 then keepBits a (Config.freeByte (s.draws + (a - p.1))) else s.byteAt a := by
  have : (s.scramble p).byteAt a = (s.store p.1 (freeBytes s.draws p.2)).byteAt a := byteAt_congr rfl rfl a
  rw [this, byteAt_store, freeBytes_length]
  split
  · next h => simp only [freeBytes, List.getD, List.getElem?_map]; rw [List.getElem?_range (by omega)]; rfl
  · rfl

/-- R204: after the spans of an abandoned write set, a byte outside is as before and a byte inside is a free value. -/
theorem abandon_spans_byteAt (s : State) (l : List Span) (a : Nat) :
    s.draws ≤ (l.foldl State.scramble s).draws ∧
    (l.any (fun p => Span.has p a) = false → (l.foldl State.scramble s).byteAt a = s.byteAt a) ∧
    (l.any (fun p => Span.has p a) = true → ∃ n, s.draws ≤ n ∧ n < (l.foldl State.scramble s).draws ∧
      (l.foldl State.scramble s).byteAt a = keepBits a (Config.freeByte n)) := by
  induction l generalizing s with
  | nil => exact ⟨le_rfl, fun _ => rfl, fun h => by simp at h⟩
  | cons p l ih =>
    obtain ⟨h1, h2, h3⟩ := ih (s.scramble p)
    have hd : (s.scramble p).draws = s.draws + p.2 := rfl
    rw [hd] at h1 h3
    rw [List.foldl_cons]
    refine ⟨by omega, fun h => ?_, fun h => ?_⟩
    · simp only [List.any_cons, Bool.or_eq_false_iff] at h
      rw [h2 h.2, scramble_byteAt, if_neg]
      simpa [Span.has] using h.1
    · cases hl : l.any (fun p => Span.has p a) with
      | true =>
        obtain ⟨n, hn, hn', hb⟩ := h3 hl
        exact ⟨n, by omega, hn', hb⟩
      | false =>
        simp only [List.any_cons, hl, Bool.or_false] at h
        have hp : p.1 ≤ a ∧ a < p.1 + p.2 := by simpa [Span.has] using h
        refine ⟨s.draws + (a - p.1), by omega, by omega, ?_⟩
        rw [h2 hl, scramble_byteAt, if_pos hp]

theorem abandon_spans_wf (s : State) (l : List Span) (h : Memory.wf s.mem)
    (hl : ∀ p ∈ l, ∀ k, k < p.2 → (windowOf (p.1 + k)).isRam = true) : Memory.wf (l.foldl State.scramble s).mem := by
  induction l generalizing s with
  | nil => exact h
  | cons p l ih =>
    rw [List.foldl_cons]
    refine ih _ (store_wf h _ _ fun k hk => hl p (by simp) k (by simpa using hk)) fun q hq => hl q (by simp [hq])

/-- R96: every write set lies in memory that exists. -/
theorem writeSpans_isRam (s : State) (i : Instr) : ∀ p ∈ s.writeSpans i, ∀ k, k < p.2 → (windowOf (p.1 + k)).isRam = true := by
  have hdata : ∀ l : Layout, ∀ k, k < (dataSpan l).2 → (windowOf ((dataSpan l).1 + k)).isRam = true := by
    intro l k hk
    simp only [dataSpan, Config.cwBytes] at hk
    exact (windowOf_isRam_iff _).2 (by simp only [dataSpan, dataBase]; omega)
  have hecc : ∀ l : Layout, ∀ k, k < (eccSpan l).2 → (windowOf ((eccSpan l).1 + k)).isRam = true := by
    intro l k hk
    simp only [eccSpan, Config.cwBytes] at hk
    exact (windowOf_isRam_iff _).2 (by simp only [eccSpan, eccBase]; omega)
  have hseq : ∀ l : Layout, ∀ k, k < (seqSpan l).2 → (windowOf ((seqSpan l).1 + k)).isRam = true := by
    intro l k hk
    simp only [seqSpan, Config.cwBytes] at hk
    exact (windowOf_isRam_iff _).2 (by simp only [seqSpan, seqBase]; omega)
  have hgen : ∀ k, k < genSpan.2 → (windowOf (genSpan.1 + k)).isRam = true := by
    intro k hk
    simp only [genSpan, Config.genBytes] at hk
    exact (windowOf_isRam_iff _).2 (by simp only [genSpan, genBase]; omega)
  have hmat : ∀ p ∈ matrixSpans s, ∀ k, k < p.2 → (windowOf (p.1 + k)).isRam = true := by
    intro p hp k hk
    simp only [matrixSpans, List.mem_map, List.mem_range] at hp
    obtain ⟨r, hr, rfl⟩ := hp
    simp only [Config.nMax] at hr hk
    exact (windowOf_isRam_iff _).2 (by rw [moduleAddr_eq]; omega)
  intro p hp
  cases i <;> simp only [State.writeSpans, List.not_mem_nil] at hp
  case bitenc => simp at hp; subst hp; exact hdata _
  case rsenc => simp at hp; rcases hp with rfl | rfl; exacts [hecc _, hgen]
  case ileave => simp at hp; subst hp; exact hseq _
  case encode =>
    rw [List.mem_flatMap] at hp
    obtain ⟨l, -, hp⟩ := hp
    simp only [List.mem_cons, List.not_mem_nil, or_false] at hp
    rcases hp with rfl | rfl | rfl | rfl <;> first | exact hdata _ | exact hecc _ | exact hseq _ | exact hgen
  case mapplyM => exact hmat p hp
  case mapplyBest => exact hmat p hp

theorem busySpans_isRam (s : State) : ∀ p ∈ s.busySpans, ∀ k, k < p.2 → (windowOf (p.1 + k)).isRam = true := by
  unfold State.busySpans
  split
  · exact writeSpans_isRam s _
  · intro p hp; simp at hp

/-! ### Which accesses are answered OKAY (R69-R71) -/

theorem windowOf_ne_unmapped_iff (a : Nat) : (windowOf a != .unmapped) = true ↔ ¬ unmappedAddr a := by
  rw [bne_iff_ne, ne_eq, windowOf_unmapped_iff]
  unfold unmappedAddr
  constructor <;> intro h h' <;> exact h (by omega)

theorem accessOk_iff (a n : Nat) : accessOk a n = true ↔ ¬ accessError a n := by
  have hw : (!(windowOf a).fourBytesOnly || n == 4) = true ↔ ((a ≤ 0x63 ∨ (0x100 ≤ a ∧ a ≤ 0x1FF)) → n = 4) := by
    have h1 := windowOf_regs_iff a
    have h2 := windowOf_pen_iff a
    have h3 : (windowOf a).fourBytesOnly = true ↔ windowOf a = .regs ∨ windowOf a = .pen := by
      cases windowOf a <;> simp [Window.fourBytesOnly]
    have h4 : (a ≤ 0x63 ∨ (0x100 ≤ a ∧ a ≤ 0x1FF)) ↔ windowOf a = .regs ∨ windowOf a = .pen := by
      rw [h1, h2]; omega
    rw [h4, ← h3]
    cases (windowOf a).fourBytesOnly <;> simp
  unfold accessOk
  rw [Bool.and_eq_true, Bool.and_eq_true, hw]
  unfold accessError
  simp only [beq_iff_eq, List.all_eq_true, List.mem_range, windowOf_ne_unmapped_iff]
  constructor
  · rintro ⟨⟨h1, h2⟩, h3⟩ (h | h | ⟨k, hk, h⟩)
    · exact h h1
    · exact h.2 (h2 h.1)
    · exact h3 k hk h
  · intro h
    refine ⟨⟨?_, ?_⟩, ?_⟩
    · by_contra hc; exact h (.inl hc)
    · intro hr; by_contra hc; exact h (.inr (.inl ⟨hr, hc⟩))
    · intro k hk hu; exact h (.inr (.inr ⟨k, hk, hu⟩))

theorem Size.bytes_cases (sz : Size) : sz.bytes = 1 ∨ sz.bytes = 2 ∨ sz.bytes = 4 := by cases sz <;> simp [Size.bytes]

theorem accessOk_size_iff (a : Nat) (sz : Size) : accessOk a sz.bytes = true ↔ ¬ accessError a sz.bytes :=
  accessOk_iff a _

/-- R71: an OKAY access to a byte window lies wholly in it. -/
theorem access_inside {a : Nat} {sz : Size} (h : ¬ accessError a sz.bytes) (k : Nat) (hk : k < sz.bytes) :
    windowOf (a + k) = windowOf a := by
  have h1 : a % sz.bytes = 0 := by
    by_contra hc; exact h (.inl hc)
  have h3 : ∀ k, k < sz.bytes → ¬ unmappedAddr (a + k) := fun k hk hu => h (.inr (.inr ⟨k, hk, hu⟩))
  have h4 : ∀ b, ¬ unmappedAddr b → b < 0x64 ∨ (0x100 ≤ b ∧ b < 0x420) ∨ (0x2000 ≤ b ∧ b < 0x7000) ∨
      (0x8000 ≤ b ∧ b < 0xFA61) := by
    intro b hb; unfold unmappedAddr at hb; omega
  have e0 := h4 a (h3 0 (by rcases sz.bytes_cases with h | h | h <;> omega))
  have ek := h4 (a + k) (h3 k hk)
  have hr : ∀ b c : Nat, (b < 0x64 ↔ c < 0x64) → (0x100 ≤ b ∧ b < 0x200 ↔ 0x100 ≤ c ∧ c < 0x200) →
      (0x200 ≤ b ∧ b < 0x300 ↔ 0x200 ≤ c ∧ c < 0x300) → (0x300 ≤ b ∧ b < 0x400 ↔ 0x300 ≤ c ∧ c < 0x400) →
      (0x400 ≤ b ∧ b < 0x420 ↔ 0x400 ≤ c ∧ c < 0x420) → (0x2000 ≤ b ∧ b < 0x4000 ↔ 0x2000 ≤ c ∧ c < 0x4000) →
      (0x4000 ≤ b ∧ b < 0x5000 ↔ 0x4000 ≤ c ∧ c < 0x5000) → (0x5000 ≤ b ∧ b < 0x6000 ↔ 0x5000 ≤ c ∧ c < 0x6000) →
      (0x6000 ≤ b ∧ b < 0x7000 ↔ 0x6000 ≤ c ∧ c < 0x7000) → (0x8000 ≤ b ∧ b < 0xFA61 ↔ 0x8000 ≤ c ∧ c < 0xFA61) →
      windowOf b = windowOf c := by
    intro b c i1 i2 i3 i4 i5 i6 i7 i8 i9 i10
    cases hb : windowOf c with
    | regs => rw [windowOf_regs_iff] at *; omega
    | pen => rw [windowOf_pen_iff] at *; omega
    | exp => rw [windowOf_exp_iff] at *; omega
    | log => rw [windowOf_log_iff] at *; omega
    | gen => rw [windowOf_gen_iff] at *; omega
    | msg => rw [windowOf_msg_iff] at *; omega
    | data => rw [windowOf_data_iff] at *; omega
    | ecc => rw [windowOf_ecc_iff] at *; omega
    | seq => rw [windowOf_seq_iff] at *; omega
    | matrix => rw [windowOf_matrix_iff] at *; omega
    | unmapped => rw [windowOf_unmapped_iff] at *; omega
  rcases sz.bytes_cases with hb | hb | hb <;> rw [hb] at h1 hk <;> apply hr <;> omega

theorem regAt_offset (r : Reg) : regAt r.offset = r := by cases r <;> rfl

theorem offset_regAt {a : Nat} (h : a < 0x64) (h4 : a % 4 = 0) : (regAt a).offset = a := by
  have : ∀ k, k < 25 → (regAt (4 * k)).offset = 4 * k := by decide
  have := this (a / 4) (by omega)
  rwa [show 4 * (a / 4) = a by omega] at this

theorem offset_lt (r : Reg) : r.offset < 0x64 := by cases r <;> decide

@[simp] theorem offset_toNat (r : Reg) : (BitVec.ofNat 16 r.offset).toNat = r.offset := by cases r <;> rfl

/-! ### Acts of the outside world -/

/-- R67: what answering a write changes. -/
theorem answerWrite_answeredAs (s : State) : s.answerWrite = s.answeredAs s.answerWrite := rfl

theorem answerWrite_answersOkay (s : State) : s.answerWrite.answersOkay := ⟨_, rfl⟩

/-- The answer to a write leaves memory as it is. -/
@[simp] theorem answerWrite_byteAt (s : State) (a : Nat) : s.answerWrite.byteAt a = s.byteAt a := byteAt_congr rfl rfl a

/-- A write of four bytes to a register (R20, R207). -/
theorem transact_write_four (s : State) (r : Reg) (v : Word) :
    s.transact (.write (BitVec.ofNat 16 r.offset) .four v) =
      (if s.busy then s.writeRegBusy r v else s.writeReg r v).answerWrite := by
  have hok : accessOk r.offset 4 = true := by cases r <;> decide
  have hw : windowOf r.offset = .regs := by cases r <;> decide
  unfold State.transact State.busWrite State.writeEffect
  simp only [offset_toNat, Size.bytes, hok, hw, if_true, regAt_offset]

/-- The registers a host write sets by its data alone (R20, RW). -/
def rwRegisters : List Reg :=
  [.ie, .config, .msgLen, .dcwTotal, .blkG1, .blkG2, .ecwBlk, .remBits, .cciWidth, .gfOp]

/-- Everything a host write to the register window can do (R20-R44, R207). -/
theorem writeReg_cases (s : State) (r : Reg) (v : Word) :
    let t := if s.busy then s.writeRegBusy r v else s.writeReg r v
    (t = s) ∨ (r = .status ∧ t = s.clearStatus v) ∨
    (t = s.refuse ∧ (s.busy = true ∨ (r = .cmd ∧ s.status.fatal = true))) ∨
    (r = .ctrl ∧ v.getLsbD 0 = true ∧ t = s.softReset) ∨
    (r = .cmd ∧ s.busy = false ∧ s.status.fatal = false ∧ t = s.accept v) ∨
    (s.busy = false ∧ r ∈ rwRegisters ∧ t = (s.setReg r v).clearValid r.hostClears) := by
  intro t
  cases hb : s.busy with
  | true =>
    have ht : t = s.writeRegBusy r v := if_pos hb
    rw [ht]
    cases r
    case status => exact .inr (.inl ⟨rfl, rfl⟩)
    case ctrl =>
      cases hv : v.getLsbD 0 with
      | true => exact .inr (.inr (.inr (.inl ⟨rfl, rfl, by simp [State.writeRegBusy, hv]⟩)))
      | false => exact .inl (by simp only [State.writeRegBusy, hv, Bool.false_eq_true, if_false])
    all_goals exact .inr (.inr (.inl ⟨rfl, .inl rfl⟩))
  | false =>
    have ht : t = (s.setReg r v).clearValid r.hostClears := by simp [t, hb, State.writeReg]
    rw [ht]
    cases r
    case status => exact .inr (.inl ⟨rfl, by simp [State.setReg, Reg.hostClears]⟩)
    case ctrl =>
      cases hv : v.getLsbD 0 with
      | true => exact .inr (.inr (.inr (.inl ⟨rfl, rfl, by simp [State.setReg, Reg.hostClears, hv]⟩)))
      | false => exact .inl (by simp only [State.setReg, Reg.hostClears, hv, Bool.false_eq_true, if_false, clearValid_empty])
    case cmd =>
      cases hf : s.status.fatal with
      | true => exact .inr (.inr (.inl ⟨by simp [State.setReg, Reg.hostClears, hf], .inr ⟨rfl, rfl⟩⟩))
      | false => exact .inr (.inr (.inr (.inr (.inl ⟨rfl, rfl, rfl, by simp [State.setReg, Reg.hostClears, hf]⟩))))
    all_goals first
      | exact .inr (.inr (.inr (.inr (.inr ⟨rfl, by decide, rfl⟩))))
      | exact .inl (by simp [State.setReg, Reg.hostClears])

/-- Everything a bus transaction can do. The first case covers reads, ERROR responses and writes that change nothing. -/
theorem transact_cases (s : State) (x : Access) :
    (∃ d r, s.transact x = { s with draws := d, resp := some r }) ∨
    (∃ v, x = .write 8 .four v ∧ s.transact x = (s.clearStatus v).answerWrite) ∨
    (s.transact x = s.refuse.answerWrite ∧ (s.busy = true ∨ s.status.fatal = true)) ∨
    (x.softResets = true ∧ s.transact x = s.softReset.answerWrite) ∨
    (∃ w, x = .write 0x10 .four w ∧ s.busy = false ∧ s.status.fatal = false ∧
      s.transact x = (s.accept w).answerWrite) ∨
    (∃ r v, s.busy = false ∧ r ∈ rwRegisters ∧ x = .write (BitVec.ofNat 16 r.offset) .four v ∧
      s.transact x = ((s.setReg r v).clearValid r.hostClears).answerWrite) ∨
    (∃ a sz v, x = .write a sz v ∧ s.busy = false ∧
      ((0x2000 ≤ a.toNat ∧ a.toNat < 0x7000) ∨ (0x8000 ≤ a.toNat ∧ a.toNat < 0xFA61)) ∧
      ¬ accessError a.toNat sz.bytes ∧
      s.transact x = ((s.store a.toNat (writeBytes v sz.bytes)).clearValid (windowOf a.toNat).hostClears).answerWrite) := by
  cases x with
  | read a sz =>
    left
    unfold State.transact State.busRead
    dsimp only
    split
    · exact ⟨_, _, rfl⟩
    · exact ⟨s.draws, _, rfl⟩
  | write a sz v =>
    unfold State.transact State.busWrite
    dsimp only
    by_cases hok : accessOk a.toNat sz.bytes = true
    swap
    · left
      rw [if_neg hok]
      exact ⟨s.draws, _, rfl⟩
    rw [if_pos hok]
    have hna := (accessOk_size_iff _ _).1 hok
    have ram : ∀ t : State, t = (if s.busy then s.refuse
        else (s.store a.toNat (writeBytes v sz.bytes)).clearValid (windowOf a.toNat).hostClears) →
        ((t.answerWrite = s.refuse.answerWrite ∧ (s.busy = true ∨ s.status.fatal = true)) ∨
        (s.busy = false ∧ t.answerWrite =
          ((s.store a.toNat (writeBytes v sz.bytes)).clearValid (windowOf a.toNat).hostClears).answerWrite)) := by
      intro t ht
      cases hb : s.busy <;> simp [hb] at ht <;> simp [ht]
    unfold State.writeEffect
    cases hw : windowOf a.toNat with
    | regs =>
      dsimp only
      rw [windowOf_regs_iff] at hw
      have h4 : sz = .four := by
        by_contra hc
        refine hna (.inr (.inl ⟨.inl (by omega), ?_⟩))
        cases sz <;> simp [Size.bytes] at hc ⊢
      subst h4
      have hm : a.toNat % 4 = 0 := by
        by_contra hc; exact hna (.inl hc)
      have ha : a = BitVec.ofNat 16 (regAt a.toNat).offset := by
        apply BitVec.eq_of_toNat_eq; rw [offset_toNat, offset_regAt hw hm]
      have hr := writeReg_cases s (regAt a.toNat) v
      generalize regAt a.toNat = r at ha hr
      subst ha
      generalize (if s.busy = true then s.writeRegBusy r v else s.writeReg r v) = t at hr ⊢
      rcases hr with rfl | ⟨rfl, rfl⟩ | ⟨rfl, h⟩ | ⟨rfl, h, rfl⟩ | ⟨rfl, h, h', rfl⟩ | ⟨h, h', rfl⟩
      · exact .inl ⟨_, _, rfl⟩
      · exact .inr (.inl ⟨v, rfl, rfl⟩)
      · exact .inr (.inr (.inl ⟨rfl, h.imp_right (·.2)⟩))
      · exact .inr (.inr (.inr (.inl ⟨by simp [Access.softResets, h, Size.bytes]; rfl, rfl⟩)))
      · exact .inr (.inr (.inr (.inr (.inl ⟨v, rfl, h, h', rfl⟩))))
      · exact .inr (.inr (.inr (.inr (.inr (.inl ⟨r, v, h, h', rfl, rfl⟩)))))
    | unmapped =>
      rw [windowOf_unmapped_iff] at hw
      exact absurd (.inr (.inr ⟨0, by rcases sz.bytes_cases with h | h | h <;> omega, by unfold unmappedAddr; omega⟩)) hna
    | pen | exp | log | gen =>
      dsimp only
      cases hb : s.busy
      · exact .inl ⟨_, _, rfl⟩
      · exact .inr (.inr (.inl ⟨rfl, .inl rfl⟩))
    | msg | data | ecc | seq | matrix =>
      have hrange : (0x2000 ≤ a.toNat ∧ a.toNat < 0x7000) ∨ (0x8000 ≤ a.toNat ∧ a.toNat < 0xFA61) := by
        have := (windowOf_isRam_iff a.toNat).1 (by rw [hw]; rfl)
        have hg := windowOf_gen_iff a.toNat
        rw [hw] at hg
        simp at hg
        omega
      rw [hw] at ram
      dsimp only
      rcases ram _ rfl with h | ⟨hb, h⟩
      · exact .inr (.inr (.inl h))
      · exact .inr (.inr (.inr (.inr (.inr (.inr ⟨a, sz, v, rfl, hb, hrange, hna, by rw [h, hw]⟩)))))

/-- A host write to an RW register changes that register alone. -/
theorem setReg_rw {s : State} {r : Reg} {v : Word} (hr : r ∈ rwRegisters) : s.setReg r v = { s with
    ie := (s.setReg r v).ie, config := (s.setReg r v).config, msgLen := (s.setReg r v).msgLen,
    layout := (s.setReg r v).layout, gfOp := (s.setReg r v).gfOp } := by
  revert hr
  cases r <;> intro hr <;> first | rfl | (exfalso; revert hr; decide)

/-- R201: what a power-on reset leaves. -/
theorem powerOn_eq (s : State) : s.powerOn =
    { State.reset with draws := s.draws, powerOns := s.powerOns + 1, inbox := s.inbox } := rfl

/-- R203: what a soft reset leaves. -/
theorem softReset_eq (s : State) : s.softReset =
    { State.reset with mem := s.softReset.mem, draws := s.softReset.draws, powerOns := s.powerOns, inbox := s.inbox,
                       resp := s.resp } := by
  unfold State.softReset State.abandon
  rw [abandon_spans_frame]
  rfl

/-- Everything an act of the outside world can do. -/
theorem act_cases (s : State) (a : HostAct) :
    (∃ x, a = .access x ∧ s.act a = s.transact x) ∨
    (a = .wait ∧ ∃ ib d r, s.act a = { s with inbox := ib, draws := d, resp := some r } ∧
      (∀ b ∈ ib, b ∈ s.inbox ∨ b = .wait)) ∨
    (a.resets = true ∧ ∃ d p, s.act a = { State.reset with draws := d, powerOns := p, inbox := s.inbox }) := by
  cases a with
  | access x => exact .inl ⟨x, rfl, rfl⟩
  | wait =>
    right; left
    have : ∃ d r, s.busRead (Reg.offset .status) 4 = { s with draws := d, resp := some r } := by
      unfold State.busRead
      split
      · exact ⟨_, _, rfl⟩
      · exact ⟨s.draws, _, rfl⟩
    obtain ⟨d, r, h⟩ := this
    refine ⟨rfl, if s.busy then .wait :: s.inbox else s.inbox, d, r, ?_, ?_⟩
    · unfold State.act
      dsimp only
      rw [h]
      cases s.busy <;> rfl
    · intro b hb
      cases hs : s.busy <;> simp [hs] at hb
      · exact .inl hb
      · exact hb.symm
  | powerOn => exact .inr (.inr ⟨rfl, _, _, rfl⟩)
  | powerOnDuring x =>
    refine .inr (.inr ⟨rfl, ?_⟩)
    have hi : ∀ u : State, u.inbox = s.inbox → (u.transact x).inbox = s.inbox := by
      intro u hu
      rcases transact_cases u x with ⟨d, r, h⟩ | ⟨v, -, h⟩ | ⟨h, -⟩ | ⟨-, h⟩ | ⟨w, -, -, -, h⟩ | ⟨r, v, -, hr, -, h⟩ |
          ⟨a, sz, v, -, -, -, -, h⟩ <;> rw [h]
      · exact hu
      · exact hu
      · exact hu
      · rw [softReset_eq]; exact hu
      · exact hu
      · rw [← hu]
        revert hr
        cases r <;> intro hr <;> first | rfl | (exfalso; revert hr; decide)
      · exact hu
    have hp : ∀ u : State, u.inbox = s.inbox →
        ∃ d p, u.powerOn = { State.reset with draws := d, powerOns := p, inbox := s.inbox } := by
      intro u hu
      exact ⟨u.draws, u.powerOns + 1, by rw [powerOn_eq, hu]⟩
    unfold State.act
    dsimp only
    split
    · exact hp _ (hi _ rfl)
    · exact hp _ rfl

/-- R82, R207: everything a host act without a reset can do while a command runs. -/
theorem busy_act {s : State} {a : HostAct} (hb : s.busy = true) (hr : a.resets = false) :
    ∃ status ib d r, s.act a = { s with status := status, inbox := ib, draws := d, resp := r } ∧
      (∀ b ∈ ib, b ∈ s.inbox ∨ b = .wait) ∧
      (status = s.status ∨ status = { s.status with rej := true } ∨ ∃ v, status = s.status.writeOneToClear v) := by
  rcases act_cases s a with ⟨x, rfl, h'⟩ | ⟨_, ib, d, r, h', hib⟩ | ⟨hr', d, p, h'⟩
  · rw [h']
    rcases transact_cases s x with ⟨d, r, h'⟩ | ⟨v, -, h'⟩ | ⟨h', -⟩ | ⟨hr', h'⟩ | ⟨w, -, h, hf, h'⟩ | ⟨r, v, h, -, -, h'⟩ |
          ⟨a, sz, v, -, h, -, -, h'⟩
    · rw [h']; exact ⟨_, _, _, _, rfl, fun _ => .inl, .inl rfl⟩
    · rw [h']; exact ⟨_, _, _, _, rfl, fun _ => .inl, .inr (.inr ⟨v, rfl⟩)⟩
    · rw [h']; exact ⟨_, _, _, _, rfl, fun _ => .inl, .inr (.inl rfl)⟩
    · exact absurd (hr'.symm.trans hr) (by decide)
    all_goals exact absurd (hb.symm.trans h) (by decide)
  · rw [h']
    exact ⟨_, _, _, _, rfl, hib, .inl rfl⟩
  · rw [hr] at hr'; cases hr'

end Sys2Proof.Machine
end

