-- ==== Sys2Proof/Laws/Valid.lean ====
section
/-! SUPPORT. What every VALID bit depends on (10_state.md R28), and that host accesses and commands keep the bits true. -/

namespace Sys2Proof.Machine

/-- Two states agree on the bytes of an address range. -/
def Agree (s t : State) (lo hi : Nat) : Prop := ∀ a, lo ≤ a → a < hi → t.byteAt a = s.byteAt a

theorem message_congr {s t : State} (hl : t.msgLen = s.msgLen) (hn : s.messageLength ≤ 8192) (h : Agree s t 0x2000 0x4000) :
    t.message = s.message := by
  unfold State.message State.messageLength at *
  rw [hl]
  exact bytesAt_congr fun k hk => h _ (by simp only [msgBase]; omega) (by simp only [msgBase]; omega)

/-- R141: block b lies in the first D bytes of DATA. -/
theorem block_bound {l : Layout} (h : layoutCheck false l = none) {b : Nat} (hb : b < l.nb) :
    l.blockStart b + l.blockLength b ≤ l.dcwTotal.toNat := by
  obtain ⟨_, _, h2, h3, _⟩ := layoutCheck_none h
  unfold Layout.nb at hb
  unfold Layout.blockStart Layout.blockLength
  rw [← h3]
  split
  · have : (b + 1) * l.g1.dcw.toNat ≤ l.g1.count.toNat * l.g1.dcw.toNat := Nat.mul_le_mul_right _ (by omega)
    rw [Nat.add_mul] at this
    omega
  · have : (b - l.g1.count.toNat + 1) * l.g2.dcw.toNat ≤ l.g2.count.toNat * l.g2.dcw.toNat := Nat.mul_le_mul_right _ (by omega)
    rw [Nat.add_mul] at this
    omega

theorem blockData_congr {s t : State} (hl : t.layout = s.layout) (hc : layoutCheck false s.layout = none)
    (h : Agree s t 0x4000 0x5000) {b : Nat} (hb : b < s.layout.nb) : t.blockData b = s.blockData b := by
  unfold State.blockData
  rw [hl]
  have := block_bound hc hb
  have hd : s.layout.dcwTotal.toNat < 2 ^ 12 := BitVec.isLt _
  exact bytesAt_congr fun k hk => h _ (by simp only [dataBase]; omega) (by simp only [dataBase]; omega)

theorem allEcc_congr {s t : State} (hl : t.layout = s.layout) (hc : layoutCheck false s.layout = none)
    (h : Agree s t 0x4000 0x5000) : t.allEcc = s.allEcc := by
  unfold State.allEcc
  rw [hl]
  apply List.flatMap_congr
  intro b hb
  rw [blockData_congr hl hc h (List.mem_range.1 hb)]

theorem interleaved_congr {s t : State} (hl : t.layout = s.layout) (hc : layoutCheck false s.layout = none)
    (h : Agree s t 0x4000 0x5000) (h' : Agree s t 0x5000 0x6000) : t.interleaved = s.interleaved := by
  unfold State.interleaved
  rw [hl]
  have hd : s.layout.dcwTotal.toNat < 2 ^ 12 := BitVec.isLt _
  obtain ⟨-, -, -, -, -, -, he, -⟩ := layoutCheck_none hc
  congr 1 <;> apply List.flatMap_congr <;> intro j hj <;> replace hj := List.mem_range.1 hj
  · unfold State.dataColumn
    rw [hl]
    apply List.map_congr_left
    intro b hb
    simp only [List.mem_filter, List.mem_range, decide_eq_true_eq] at hb
    have := block_bound hc hb.1
    exact h _ (by simp only [dataBase]; omega) (by simp only [dataBase]; omega)
  · unfold State.eccColumn
    rw [hl]
    apply List.map_congr_left
    intro b hb
    have hb := List.mem_range.1 hb
    have : (b + 1) * s.layout.ecwBlk.toNat ≤ s.layout.nb * s.layout.ecwBlk.toNat := Nat.mul_le_mul_right _ (by omega)
    rw [Nat.add_mul] at this
    unfold Layout.eccTotal at he
    exact h' _ (by simp only [eccBase]; omega) (by simp only [eccBase]; omega)

theorem symbol_congr {s t : State} (hl : t.config = s.config) (hv : s.versionOk = true)
    (h : Agree s t 0x8000 0xFA61) : t.symbol = s.symbol := by
  have hn := side_le s hv
  have hs : t.side = s.side := by unfold State.side; rw [hl]
  unfold State.symbol
  rw [hs]
  apply List.map_congr_left
  intro r hr
  apply List.map_congr_left
  intro c hc
  have hr := List.mem_range.1 hr
  have hc := List.mem_range.1 hc
  unfold State.moduleAt
  rw [h _ (by rw [moduleAddr_eq]; omega) (by rw [moduleAddr_eq]; omega)]

theorem ValidMeans.mono {v v' : Valid} {s : State} (h : ValidMeans v s) (h1 : v'.cfg = true → v.cfg = true)
   (h2 : v'.data = true → v.data = true) (h3 : v'.ecc = true → v.ecc = true) (h4 : v'.seq = true → v.seq = true)
   (h5 : v'.mask = true → v.mask = true) (h6 : v'.fmt = true → v.fmt = true) (h7 : v'.gf = true → v.gf = true) : ValidMeans v' s :=
  ⟨fun h' => h.cfg (h1 h'), fun h' => h.data (h2 h'), fun h' => h.ecc (h3 h'), fun h' => h.seq (h4 h'), fun h' => h.mask (h5 h'),
   fun h' => h.fmt (h6 h'), fun h' => h.gf (h7 h')⟩

theorem bitencCheck_congr {s t : State} (hm : t.config = s.config) (hl : t.msgLen = s.msgLen) (hlay : t.layout = s.layout)
    (h : Agree s t 0x2000 0x4000) : bitencCheck t = bitencCheck s := by
  by_cases hn : s.messageLength ≤ 8192
  · have := message_congr hl hn h
    unfold bitencCheck State.mode State.messageLength
    rw [this, hm, hl, hlay]
  · have hn : 8192 < s.messageLength := by omega
    have hn' : 8192 < t.messageLength := by unfold State.messageLength at *; rw [hl]; exact hn
    have hmd : t.mode = s.mode := by unfold State.mode; rw [hm]
    unfold bitencCheck
    simp only [Config.msgBytes, hn, hn', hmd, if_true]

theorem bitenc_len {s : State} (h : bitencCheck s = none) : s.messageLength ≤ 8192 := by
  unfold bitencCheck at h
  simp only [ite_some_eq_none] at h
  simp only [Config.msgBytes] at h
  omega

/-- R28: VALID bits that are true of a state are true of every state that agrees with it on what they depend on. -/
theorem ValidMeans.transfer {v v' : Valid} {s t : State} (hv : ValidMeans v s)
    (m1 : v'.cfg = true → v.cfg = true ∧ t.config = s.config ∧ t.layout = s.layout)
    (m2 : v'.data = true → v.data = true ∧ t.config = s.config ∧ t.msgLen = s.msgLen ∧ t.layout = s.layout ∧ Agree s t 0x2000 0x4000 ∧ Agree s t 0x4000 0x5000)
    (m3 : v'.ecc = true → v.ecc = true ∧ t.layout = s.layout ∧ Agree s t 0x4000 0x5000 ∧ Agree s t 0x5000 0x6000)
    (m4 : v'.seq = true → v.seq = true ∧ t.layout = s.layout ∧ Agree s t 0x4000 0x5000 ∧ Agree s t 0x5000 0x6000 ∧ Agree s t 0x6000 0x7000 ∧ t.seqLen = s.seqLen ∧ t.seqBits = s.seqBits)
    (m5 : v'.mask = true → v.mask = true ∧ t.config = s.config ∧ Agree s t 0x8000 0xFA61 ∧ t.pen = s.pen ∧ t.best = s.best)
    (m6 : v'.fmt = true → v.fmt = true ∧ t.config = s.config ∧ t.fmtWord = s.fmtWord ∧ t.verWord = s.verWord)
    (m7 : v'.gf = true → v.gf = true ∧ t.gfOp = s.gfOp ∧ t.gfRes = s.gfRes) : ValidMeans v' t := by
  have hd : s.layout.dcwTotal.toNat < 2 ^ 12 := BitVec.isLt _
  constructor
  · intro h
    obtain ⟨h, e1, e2⟩ := m1 h
    obtain ⟨a, b⟩ := hv.cfg h
    refine ⟨?_, by rw [e2, b, e1]⟩
    rw [← a]; unfold cfgCheck State.versionOk State.version State.mode State.level; rw [e1]
  · intro h
    obtain ⟨h, e1, e2, e3, g1, g2⟩ := m2 h
    obtain ⟨a, b⟩ := hv.data h
    refine ⟨by rw [bitencCheck_congr e1 e2 e3 g1, a], ?_⟩
    have := message_congr e2 (bitenc_len a) g1
    unfold State.mode
    rw [this, e1, e3]
    refine Eq.trans (bytesAt_congr fun k hk => g2 _ ?_ ?_) b <;> simp only [dataBase] <;> omega
  · intro h
    obtain ⟨h, e1, g1, g2⟩ := m3 h
    obtain ⟨a, b⟩ := hv.ecc h
    obtain ⟨-, -, -, -, -, -, he, -⟩ := layoutCheck_none a
    refine ⟨by rw [e1, a], ?_⟩
    rw [allEcc_congr e1 a g1, e1]
    refine Eq.trans (bytesAt_congr fun k hk => g2 _ ?_ ?_) b <;> simp only [eccBase] <;> omega
  · intro h
    obtain ⟨h, e1, g1, g2, g3, e2, e3⟩ := m4 h
    obtain ⟨a, b, c, d, r⟩ := hv.seq h
    obtain ⟨-, -, -, -, -, -, _, he⟩ := layoutCheck_none a
    have he := he rfl
    refine ⟨by rw [e1, a], ?_, by rw [e1, e2, c], by rw [e1, e3, d], fun hr => ?_⟩
    · rw [interleaved_congr e1 (layoutCheck_false_of_true a) g1 g2, e1]
      refine Eq.trans (bytesAt_congr fun k hk => g3 _ ?_ ?_) b <;> simp only [seqBase] <;> omega
    · rw [e1] at hr ⊢
      rw [if_pos hr] at he
      exact (g3 _ (by simp only [seqBase]; omega) (by simp only [seqBase]; omega)).trans (r hr)
  · intro h
    obtain ⟨h, e1, g1, e2, e3⟩ := m5 h
    obtain ⟨a, b, c⟩ := hv.mask h
    refine ⟨?_, by rw [e2, symbol_congr e1 a g1, b], by rw [e3, e2, c]⟩
    rw [← a]; unfold State.versionOk State.version; rw [e1]
  · intro h
    obtain ⟨h, e1, e2, e3⟩ := m6 h
    have := hv.fmt h
    unfold State.versionOk State.level State.version at *
    rw [e1, e2, e3]; exact this
  · intro h
    obtain ⟨h, e1, e2⟩ := m7 h
    rw [e1, e2]; exact hv.gf h

theorem valid_empty (s : State) : ValidMeans {} s := by constructor <;> intro h <;> cases h

theorem standing_idle {s : State} (h : s.eng = .idle) : s.standing = s.valid := by unfold State.standing; rw [h]

/-- R28: VALID bits stay true when nothing any of them depends on has changed. -/
theorem ValidMeans.congr {v : Valid} {s t : State} (h : ValidMeans v s) (e1 : t.config = s.config) (e2 : t.layout = s.layout)
   (e3 : t.msgLen = s.msgLen) (e4 : t.mem = s.mem) (e5 : t.powerOns = s.powerOns) (e6 : t.seqLen = s.seqLen) (e7 : t.seqBits = s.seqBits)
   (e8 : t.pen = s.pen) (e9 : t.best = s.best) (e10 : t.fmtWord = s.fmtWord) (e11 : t.verWord = s.verWord) (e12 : t.gfOp = s.gfOp)
   (e13 : t.gfRes = s.gfRes) : ValidMeans v t := by
  have hag : ∀ lo hi, Agree s t lo hi := fun lo hi a _ _ => byteAt_congr e4 e5 a
  exact h.transfer (fun h => ⟨h, e1, e2⟩) (fun h => ⟨h, e1, e3, e2, hag _ _, hag _ _⟩) (fun h => ⟨h, e2, hag _ _, hag _ _⟩)
    (fun h => ⟨h, e2, hag _ _, hag _ _, hag _ _, e6, e7⟩) (fun h => ⟨h, e1, hag _ _, e8, e9⟩) (fun h => ⟨h, e1, e10, e11⟩)
    (fun h => ⟨h, e12, e13⟩)

theorem accept_standing (s : State) (w : Word) : (s.accept w).standing = match firstStage w with
   | none => s.valid | some st => (s.valid.minus (clearSet .encode)).plus st.earlierSet := by
  have : (s.accept w).eng = .running w (firstStage w) := rfl
  unfold State.standing
  rw [this]
  cases firstStage w <;> rfl

theorem accept_standing_le {s : State} (hb : s.busy = false) (hv : ValidOk s) (w : Word) : ValidOk ((s.accept w).answerWrite) := by
  unfold ValidOk at *
  have he := (not_busy_iff s).1 hb
  have hview : ((s.accept w).answerWrite).stageView = (s.accept w).answerWrite := by
    apply stageView_of_cfg
    have h : ((s.accept w).answerWrite).eng = .running w (firstStage w) := rfl
    unfold State.encodeStage
    rw [h]
    unfold firstStage
    cases decode w with
    | error e => rfl
    | ok i => cases i <;> rfl
  rw [standing_idle he, stageView_of_idle s he] at hv
  rw [hview]
  have h : ValidMeans s.valid ((s.accept w).answerWrite) := hv.congr rfl rfl rfl rfl rfl rfl rfl rfl rfl rfl rfl rfl rfl
  show ValidMeans (s.accept w).standing _
  rw [accept_standing]
  unfold firstStage
  cases hd : decode w with
  | error e => exact h
  | ok i =>
    cases i
    case encode => refine h.mono ?_ ?_ ?_ ?_ ?_ ?_ ?_ <;> simp [Valid.minus, Valid.plus, clearSet, Stage.earlierSet]
    all_goals exact h

/-- R67: the answer to a write is none of VALID's concern. -/
theorem ValidMeans.answerWrite {v : Valid} {s : State} (h : ValidMeans v s) : ValidMeans v s.answerWrite :=
  h.congr rfl rfl rfl rfl rfl rfl rfl rfl rfl rfl rfl rfl rfl

/-- R28: a host write to an RW register keeps the VALID bits it does not clear true. -/
theorem setReg_valid {s : State} {r : Reg} (hr : r ∈ rwRegisters) (v : Word) (h : ValidMeans s.valid s) :
    ValidMeans (s.valid.minus r.hostClears) ((s.setReg r v).clearValid r.hostClears) := by
  have hag : ∀ lo hi, Agree s ((s.setReg r v).clearValid r.hostClears) lo hi := by
    intro lo hi a _ _
    rw [setReg_rw hr]; rfl
  apply h.transfer <;> intro hb
  all_goals
    revert hr hb
    cases r <;> intro hr <;> first
      | (exfalso; revert hr; decide)
      | (intro hb; (try (simp [Valid.minus, Reg.hostClears] at hb)))
  all_goals
    first
    | exact ⟨by simp_all, rfl, rfl⟩
    | exact ⟨by simp_all, rfl, rfl, rfl, hag _ _, hag _ _⟩
    | exact ⟨by simp_all, rfl, hag _ _, hag _ _⟩
    | exact ⟨by simp_all, rfl, hag _ _, hag _ _, hag _ _, rfl, rfl⟩
    | exact ⟨by simp_all, rfl, hag _ _, rfl, rfl⟩
    | exact ⟨by simp_all, rfl, rfl, rfl⟩

/-- R28: a bus transaction keeps every standing VALID bit true. -/
theorem transact_valid {s : State} (x : Access) (h : ValidOk s) : ValidOk (s.transact x) := by
  rcases transact_cases s x with ⟨d, r, h'⟩ | ⟨v, -, h'⟩ | ⟨h', -⟩ | ⟨-, h'⟩ | ⟨w, -, hb, hf, h'⟩ | ⟨r, v, hb, hr, -, h'⟩ |
          ⟨a, sz, v, -, hb, hr, hna, h'⟩ <;> rw [h']
  · exact h.congr rfl rfl rfl rfl rfl rfl rfl rfl rfl rfl rfl rfl rfl
  · exact h.congr rfl rfl rfl rfl rfl rfl rfl rfl rfl rfl rfl rfl rfl
  · exact h.congr rfl rfl rfl rfl rfl rfl rfl rfl rfl rfl rfl rfl rfl
  · rw [softReset_eq]; exact valid_empty _
  · exact accept_standing_le hb h w
  · have he := (not_busy_iff s).1 hb
    unfold ValidOk at *
    have he' : ((s.setReg r v).clearValid r.hostClears).answerWrite.eng = .idle := by rw [setReg_rw hr]; exact he
    rw [standing_idle he, stageView_of_idle s he] at h
    rw [standing_idle he', stageView_of_idle _ he']
    have hval : (((s.setReg r v).clearValid r.hostClears).answerWrite).valid = s.valid.minus r.hostClears := by
      rw [setReg_rw hr]; rfl
    rw [hval]
    exact (setReg_valid hr v h).answerWrite
  · have he := (not_busy_iff s).1 hb
    unfold ValidOk at *
    rw [standing_idle he, stageView_of_idle s he] at h
    rw [standing_idle (by exact he), stageView_of_idle _ (by exact he)]
    have hval : (((s.store a.toNat (writeBytes v sz.bytes)).clearValid (windowOf a.toNat).hostClears).answerWrite).valid = s.valid.minus (windowOf a.toNat).hostClears := rfl
    rw [hval]
    apply ValidMeans.answerWrite
    have hag : ∀ x, windowOf x ≠ windowOf a.toNat → ((s.store a.toNat (writeBytes v sz.bytes)).clearValid (windowOf a.toNat).hostClears).byteAt x = s.byteAt x := by
      intro x hx
      refine Eq.trans (byteAt_congr rfl rfl x) (byteAt_store_outside s a.toNat (writeBytes v sz.bytes) x ?_)
      intro hc
      apply hx
      have hl : (writeBytes v sz.bytes).length = sz.bytes := by simp [writeBytes]
      rw [← access_inside hna (x - a.toNat) (by omega)]
      congr 1; omega
    have hmsg : windowOf a.toNat ≠ .msg → Agree s ((s.store a.toNat (writeBytes v sz.bytes)).clearValid (windowOf a.toNat).hostClears) 0x2000 0x4000 :=
      fun hne x h1 h2 => hag x (by rw [(windowOf_msg_iff x).2 ⟨h1, h2⟩]; exact fun h => hne h.symm)
    have hdat : windowOf a.toNat ≠ .data → Agree s ((s.store a.toNat (writeBytes v sz.bytes)).clearValid (windowOf a.toNat).hostClears) 0x4000 0x5000 :=
      fun hne x h1 h2 => hag x (by rw [(windowOf_data_iff x).2 ⟨h1, h2⟩]; exact fun h => hne h.symm)
    have hecc : windowOf a.toNat ≠ .ecc → Agree s ((s.store a.toNat (writeBytes v sz.bytes)).clearValid (windowOf a.toNat).hostClears) 0x5000 0x6000 :=
      fun hne x h1 h2 => hag x (by rw [(windowOf_ecc_iff x).2 ⟨h1, h2⟩]; exact fun h => hne h.symm)
    have hseq : windowOf a.toNat ≠ .seq → Agree s ((s.store a.toNat (writeBytes v sz.bytes)).clearValid (windowOf a.toNat).hostClears) 0x6000 0x7000 :=
      fun hne x h1 h2 => hag x (by rw [(windowOf_seq_iff x).2 ⟨h1, h2⟩]; exact fun h => hne h.symm)
    have hmat : windowOf a.toNat ≠ .matrix → Agree s ((s.store a.toNat (writeBytes v sz.bytes)).clearValid (windowOf a.toNat).hostClears) 0x8000 0xFA61 :=
      fun hne x h1 h2 => hag x (by rw [(windowOf_matrix_iff x).2 ⟨h1, h2⟩]; exact fun h => hne h.symm)
    clear hag
    have hin : (windowOf a.toNat = .msg ∨ windowOf a.toNat = .data ∨ windowOf a.toNat = .ecc ∨ windowOf a.toNat = .seq ∨ windowOf a.toNat = .matrix) := by
      rw [windowOf_msg_iff, windowOf_data_iff, windowOf_ecc_iff, windowOf_seq_iff, windowOf_matrix_iff]; omega
    obtain ⟨f1, f2, f3, f4, f5, f6, f7, f8, f9, f10, f11⟩ : let t := ((s.store a.toNat (writeBytes v sz.bytes)).clearValid (windowOf a.toNat).hostClears)
      t.config = s.config ∧ t.layout = s.layout ∧ t.msgLen = s.msgLen ∧ t.seqLen = s.seqLen ∧ t.seqBits = s.seqBits ∧
      t.pen = s.pen ∧ t.best = s.best ∧ t.fmtWord = s.fmtWord ∧ t.verWord = s.verWord ∧ t.gfOp = s.gfOp ∧ t.gfRes = s.gfRes :=
      ⟨rfl, rfl, rfl, rfl, rfl, rfl, rfl, rfl, rfl, rfl, rfl⟩
    generalize ((s.store a.toNat (writeBytes v sz.bytes)).clearValid (windowOf a.toNat).hostClears) = t at *
    clear hb hna
    generalize windowOf a.toNat = W at *
    rcases hin with hw | hw | hw | hw | hw <;> subst hw <;> simp only [ne_eq, reduceCtorEq, not_false_eq_true, not_true, forall_const, false_implies] at hmsg hdat hecc hseq hmat <;> apply h.transfer <;> intro hbit <;>
      simp [Valid.minus, Window.hostClears] at hbit
    all_goals simp_all

theorem ValidMeans.plus {v w : Valid} {s : State} (h : ValidMeans v s) (g : ValidMeans w s) : ValidMeans (v.plus w) s := by
  constructor <;> intro hb <;> simp [Valid.plus] at hb <;> rcases hb with hb | hb
  exacts [h.cfg hb, g.cfg hb, h.data hb, g.data hb, h.ecc hb, g.ecc hb, h.seq hb, g.seq hb, h.mask hb, g.mask hb, h.fmt hb, g.fmt hb, h.gf hb, g.gf hb]

theorem bytesAt_eq {s : State} {a n : Nat} {l : List Byte} (hl : l.length = n) (h : ∀ k, k < n → s.byteAt (a + k) = l.getD k 0) : s.bytesAt a n = l := by
  apply List.ext_getElem (by simp [hl])
  intro k h1 h2
  simp only [State.bytesAt, List.getElem_map, List.getElem_range]
  rw [h k (by omega)]
  simp [h2]

/-- R99: after a command that succeeds, the bits it leaves and the bits it sets are true. -/
theorem effect_valid {v : Valid} {s : State} {i : Instr} (hi : i ≠ .encode) (hv : ValidMeans v s) (hc : checkOf s i = none) :
    ValidMeans ((v.minus (clearSet i.opcode)).plus (setSet i.opcode)) (effectOf s i) := by
  have hd : s.layout.dcwTotal.toNat < 2 ^ 12 := BitVec.isLt _
  apply ValidMeans.plus
  · have key : ∀ t : State, t = effectOf s i → ValidMeans (v.minus (clearSet i.opcode)) t := by
      intro t ht
      cases i
      case encode => exact absurd rfl hi
      case cfg =>
        have hag : ∀ lo hi, Agree s t lo hi := fun lo hi a _ _ => byteAt_congr (by rw [ht]; rfl) (by rw [ht]; rfl) a
        subst ht
        apply hv.transfer <;> intro hb <;> simp [Valid.minus, clearSet, Instr.opcode] at hb
        exacts [⟨hb, rfl, hag _ _, rfl, rfl⟩, ⟨hb, rfl, rfl, rfl⟩, ⟨hb, rfl, rfl⟩]
      case bitenc =>
        have hag : ∀ a, ¬ (0x4000 ≤ a ∧ a < 0x5000) → t.byteAt a = s.byteAt a := by
          intro a ha; rw [ht]; show (bitencEffect s).byteAt a = _; rw [bitencEffect_byteAt, if_neg]; simp only [dataBase]; omega
        have h1 : Agree s t 0x8000 0xFA61 := fun a _ _ => hag a (by omega)
        subst ht
        apply hv.transfer <;> intro hb <;> simp [Valid.minus, clearSet, Instr.opcode] at hb
        exacts [⟨hb, rfl, rfl⟩, ⟨hb, rfl, h1, rfl, rfl⟩, ⟨hb, rfl, rfl, rfl⟩, ⟨hb, rfl, rfl⟩]
      case rsenc =>
        obtain ⟨-, -, -, -, -, -, he, -⟩ := layoutCheck_none hc
        have hag : ∀ a, ¬ (0x5000 ≤ a ∧ a < 0x6000) → ¬ (0x400 ≤ a ∧ a < 0x420) → t.byteAt a = s.byteAt a := by
          intro a ha ha'; rw [ht]; show (rsencEffect s).byteAt a = _; rw [rsencEffect_byteAt s hc, if_neg, if_neg] <;> simp only [eccBase, genBase] <;> omega
        have h1 : Agree s t 0x8000 0xFA61 := fun a _ _ => hag a (by omega) (by omega)
        have h2 : Agree s t 0x2000 0x4000 := fun a _ _ => hag a (by omega) (by omega)
        have h3 : Agree s t 0x4000 0x5000 := fun a _ _ => hag a (by omega) (by omega)
        subst ht
        apply hv.transfer <;> intro hb <;> simp [Valid.minus, clearSet, Instr.opcode] at hb
        exacts [⟨hb, rfl, rfl⟩, ⟨hb, rfl, rfl, rfl, h2, h3⟩, ⟨hb, rfl, h1, rfl, rfl⟩, ⟨hb, rfl, rfl, rfl⟩, ⟨hb, rfl, rfl⟩]
      case ileave =>
        obtain ⟨-, -, -, -, -, -, -, he⟩ := layoutCheck_none hc
        have he := he rfl
        have hag : ∀ a, ¬ (0x6000 ≤ a ∧ a < 0x7000) → t.byteAt a = s.byteAt a := by
          intro a ha; rw [ht]; show (ileaveEffect s).byteAt a = _; rw [ileaveEffect_byteAt s hc]
          have h6 : seqBase = 0x6000 := rfl
          rw [if_neg (by omega), if_neg]
          rintro ⟨h1, h2⟩
          rw [if_pos h2] at he
          omega
        have h1 : Agree s t 0x8000 0xFA61 := fun a _ _ => hag a (by omega)
        have h2 : Agree s t 0x2000 0x4000 := fun a _ _ => hag a (by omega)
        have h3 : Agree s t 0x4000 0x5000 := fun a _ _ => hag a (by omega)
        have h4 : Agree s t 0x5000 0x6000 := fun a _ _ => hag a (by omega)
        subst ht
        apply hv.transfer <;> intro hb <;> simp [Valid.minus, clearSet, Instr.opcode] at hb
        exacts [⟨hb, rfl, rfl⟩, ⟨hb, rfl, rfl, rfl, h2, h3⟩, ⟨hb, rfl, h3, h4⟩, ⟨hb, rfl, h1, rfl, rfl⟩, ⟨hb, rfl, rfl, rfl⟩, ⟨hb, rfl, rfl⟩]
      case nop => subst ht; exact hv.mono (by simp +contextual [Valid.minus]) (by simp +contextual [Valid.minus]) (by simp +contextual [Valid.minus]) (by simp +contextual [Valid.minus]) (by simp +contextual [Valid.minus]) (by simp +contextual [Valid.minus]) (by simp +contextual [Valid.minus])
      case meval =>
        have hag : ∀ lo hi, Agree s t lo hi := fun lo hi a _ _ => byteAt_congr (by rw [ht]; rfl) (by rw [ht]; rfl) a
        subst ht
        apply hv.transfer <;> intro hb <;> simp [Valid.minus, clearSet, Instr.opcode] at hb
        exacts [⟨hb, rfl, rfl⟩, ⟨hb, rfl, rfl, rfl, hag _ _, hag _ _⟩, ⟨hb, rfl, hag _ _, hag _ _⟩, ⟨hb, rfl, hag _ _, hag _ _, hag _ _, rfl, rfl⟩, ⟨hb, rfl, rfl, rfl⟩, ⟨hb, rfl, rfl⟩]
      case gfmul =>
        have hag : ∀ lo hi, Agree s t lo hi := fun lo hi a _ _ => byteAt_congr (by rw [ht]; rfl) (by rw [ht]; rfl) a
        subst ht
        apply hv.transfer <;> intro hb <;> simp [Valid.minus, clearSet, Instr.opcode] at hb
        exacts [⟨hb, rfl, rfl⟩, ⟨hb, rfl, rfl, rfl, hag _ _, hag _ _⟩, ⟨hb, rfl, hag _ _, hag _ _⟩, ⟨hb, rfl, hag _ _, hag _ _, hag _ _, rfl, rfl⟩, ⟨hb, rfl, hag _ _, rfl, rfl⟩, ⟨hb, rfl, rfl, rfl⟩]
      case fmtgenM m =>
        have hag : ∀ lo hi, Agree s t lo hi := fun lo hi a _ _ => byteAt_congr (by rw [ht]; rfl) (by rw [ht]; rfl) a
        subst ht
        apply hv.transfer <;> intro hb <;> simp [Valid.minus, clearSet, Instr.opcode] at hb
        exacts [⟨hb, rfl, rfl⟩, ⟨hb, rfl, rfl, rfl, hag _ _, hag _ _⟩, ⟨hb, rfl, hag _ _, hag _ _⟩, ⟨hb, rfl, hag _ _, hag _ _, hag _ _, rfl, rfl⟩, ⟨hb, rfl, hag _ _, rfl, rfl⟩, ⟨hb, rfl, rfl⟩]
      case fmtgenBest =>
        have hag : ∀ lo hi, Agree s t lo hi := fun lo hi a _ _ => byteAt_congr (by rw [ht]; rfl) (by rw [ht]; rfl) a
        subst ht
        apply hv.transfer <;> intro hb <;> simp [Valid.minus, clearSet, Instr.opcode] at hb
        exacts [⟨hb, rfl, rfl⟩, ⟨hb, rfl, rfl, rfl, hag _ _, hag _ _⟩, ⟨hb, rfl, hag _ _, hag _ _⟩, ⟨hb, rfl, hag _ _, hag _ _, hag _ _, rfl, rfl⟩, ⟨hb, rfl, hag _ _, rfl, rfl⟩, ⟨hb, rfl, rfl⟩]
      all_goals
        have hag : ∀ a, ¬ (0x8000 ≤ a ∧ a < 0xFA61) → t.byteAt a = s.byteAt a := by
          intro a ha; rw [ht]; show (mapplyEffect s _).byteAt a = _
          have hs := side_le s (versionOk_of_mapplyCheck hc)
          rw [mapplyEffect_byteAt s _ hs, if_neg]; omega
        have h2 : Agree s t 0x2000 0x4000 := fun a _ _ => hag a (by omega)
        have h3 : Agree s t 0x4000 0x5000 := fun a _ _ => hag a (by omega)
        have h4 : Agree s t 0x5000 0x6000 := fun a _ _ => hag a (by omega)
        have h5 : Agree s t 0x6000 0x7000 := fun a _ _ => hag a (by omega)
        simp only [effectOf] at ht
        rw [mapplyEffect_frame] at ht
        subst ht
        apply hv.transfer <;> intro hb <;> simp [Valid.minus, clearSet, Instr.opcode] at hb
        exacts [⟨hb, rfl, rfl⟩, ⟨hb, rfl, rfl, rfl, h2, h3⟩, ⟨hb, rfl, h3, h4⟩, ⟨hb, rfl, h3, h4, h5, rfl, rfl⟩, ⟨hb, rfl, rfl, rfl⟩, ⟨hb, rfl, rfl⟩]
    exact key _ rfl
  · cases i
    case encode => exact absurd rfl hi
    case nop => exact valid_empty _
    case mapplyM m => exact valid_empty _
    case mapplyBest => exact valid_empty _
    case cfg =>
      constructor <;> intro hb <;> try cases hb
      exact ⟨hc, rfl⟩
    case bitenc =>
      constructor <;> intro hb <;> try cases hb
      have hag : Agree s (bitencEffect s) 0x2000 0x4000 := by
        intro a h1 h2; rw [bitencEffect_byteAt, if_neg]; simp only [dataBase]; omega
      refine ⟨by rw [← show bitencCheck s = none from hc]; exact bitencCheck_congr rfl rfl rfl hag, ?_⟩
      have := message_congr (s := s) (t := bitencEffect s) rfl (bitenc_len hc) hag
      show (bitencEffect s).bytesAt _ _ = dataCodewords s.mode s.layout.cciWidth.toNat s.layout.dcwTotal.toNat (bitencEffect s).message
      rw [this]
      apply bytesAt_eq (by simp; rfl)
      intro k hk
      have hk : k < s.layout.dcwTotal.toNat := hk
      rw [bitencEffect_byteAt, if_pos (by omega), dataCodewords_getD _ _ _ _ _ hk]; rw [Nat.add_sub_cancel_left]
    case rsenc =>
      constructor <;> intro hb <;> try cases hb
      have hag : Agree s (rsencEffect s) 0x4000 0x5000 := by
        intro a h1 h2; rw [rsencEffect_byteAt s hc, if_neg, if_neg] <;> simp only [genBase, eccBase] <;> omega
      refine ⟨hc, ?_⟩
      show (rsencEffect s).bytesAt _ _ = (rsencEffect s).allEcc
      rw [allEcc_congr (s := s) (t := rsencEffect s) rfl hc hag]
      obtain ⟨-, -, -, -, he, -, -, -⟩ := layoutCheck_none hc
      apply bytesAt_eq (by rw [allEcc_length s he]; rfl)
      intro k hk
      have hk : k < s.layout.eccTotal := hk
      rw [rsencEffect_byteAt s hc, if_pos (by omega)]; rw [Nat.add_sub_cancel_left]
    case ileave =>
      constructor <;> intro hb <;> try cases hb
      have hl := interleaved_length s (layoutCheck_false_of_true hc)
      obtain ⟨-, -, -, -, -, -, he', he⟩ := layoutCheck_none hc
      have he := he rfl
      have hag : ∀ a, ¬ (0x6000 ≤ a ∧ a < 0x7000) → (ileaveEffect s).byteAt a = s.byteAt a := by
          intro a ha; rw [ileaveEffect_byteAt s hc]
          have h6 : seqBase = 0x6000 := rfl
          rw [if_neg (by omega), if_neg]
          rintro ⟨h1, h2⟩
          rw [if_pos h2] at he
          omega
      refine ⟨hc, ?_, ?_, ?_, fun hr => ?_⟩
      · show (ileaveEffect s).bytesAt _ _ = (ileaveEffect s).interleaved
        rw [interleaved_congr (s := s) (t := ileaveEffect s) rfl (layoutCheck_false_of_true hc) (fun a _ _ => hag a (by omega)) (fun a _ _ => hag a (by omega))]
        apply bytesAt_eq (by rw [hl]; rfl)
        intro k hk
        have hk : k < s.layout.seqTotal := hk
        rw [ileaveEffect_byteAt s hc, if_pos (by omega)]; rw [Nat.add_sub_cancel_left]
      · show (BitVec.ofNat 13 s.interleaved.length).toNat = s.layout.seqTotal
        rw [hl, BitVec.toNat_ofNat, Nat.mod_eq_of_lt (by omega)]
      · show (BitVec.ofNat 16 (8 * s.interleaved.length + s.layout.remBits.toNat)).toNat = 8 * s.layout.seqTotal + s.layout.remBits.toNat
        have := s.layout.remBits.isLt
        rw [hl, BitVec.toNat_ofNat, Nat.mod_eq_of_lt (by omega)]
      · show (ileaveEffect s).byteAt (seqBase + s.layout.seqTotal) = 0
        rw [ileaveEffect_byteAt s hc, if_neg (by omega), if_pos ⟨rfl, hr⟩]
    case meval =>
      constructor <;> intro hb <;> try cases hb
      have hv : s.versionOk = true := by
        by_contra h; simp [checkOf, mevalCheck, h] at hc
      refine ⟨hv, ?_, rfl⟩
      show penFile s.symbol = penFile (mevalEffect s).symbol
      rfl
    case gfmul =>
      constructor <;> intro hb <;> try cases hb
      rfl
    case fmtgenM m =>
      constructor <;> intro hb <;> try cases hb
      simp only [checkOf, fmtgenCheck, ite_some_eq_none] at hc
      exact ⟨show s.versionOk = true by simpa using hc.1, Nat.le_of_not_lt hc.2.1, rfl, _, rfl⟩
    case fmtgenBest =>
      constructor <;> intro hb <;> try cases hb
      simp only [checkOf, fmtgenCheck, ite_some_eq_none] at hc
      exact ⟨show s.versionOk = true by simpa using hc.1, Nat.le_of_not_lt hc.2.1, rfl, _, rfl⟩


/-- R185: VALID bits stay true when a command fails. -/
theorem failed_valid {v : Valid} {s : State} (h : ValidMeans v s) (op code detail pos chr) : ValidOk (s.failed op code detail pos chr v) := by
  show ValidMeans v _
  exact h.congr rfl rfl rfl rfl rfl rfl rfl rfl rfl rfl rfl rfl rfl

theorem minus_valid {v : Valid} (c : Valid) {s : State} (h : ValidMeans v s) : ValidMeans (v.minus c) s :=
  h.mono (by simp +contextual [Valid.minus]) (by simp +contextual [Valid.minus]) (by simp +contextual [Valid.minus]) (by simp +contextual [Valid.minus]) (by simp +contextual [Valid.minus]) (by simp +contextual [Valid.minus]) (by simp +contextual [Valid.minus])

/-- R99, R107: after a stage of ENCODE that succeeds, the bits of the stages up to it are true. -/
theorem stage_valid {s : State} {st : Stage} {v : Valid} (hv : ValidMeans ((v.minus (clearSet .encode)).plus st.earlierSet) s)
    (hc : stageCheck s st = none) :
    ValidMeans ((v.minus (clearSet .encode)).plus (match st with | .cfg => { cfg := true } | .bitenc => { cfg := true, data := true } | .rsenc => { cfg := true, data := true, ecc := true } | .ileave => { cfg := true, data := true, ecc := true, seq := true })) (stageEffect s st) := by
  cases st
  · have := effect_valid (i := .cfg) (by decide) hv hc
    apply this.mono <;> simp +contextual [Valid.minus, Valid.plus, clearSet, setSet, Instr.opcode, Stage.earlierSet]
  · have := effect_valid (i := .bitenc) (by decide) hv hc
    apply this.mono <;> simp +contextual [Valid.minus, Valid.plus, clearSet, setSet, Instr.opcode, Stage.earlierSet]
  · have := effect_valid (i := .rsenc) (by decide) hv hc
    apply this.mono <;> simp +contextual [Valid.minus, Valid.plus, clearSet, setSet, Instr.opcode, Stage.earlierSet]
  · have := effect_valid (i := .ileave) (by decide) hv hc
    apply this.mono <;> simp +contextual [Valid.minus, Valid.plus, clearSet, setSet, Instr.opcode, Stage.earlierSet]

theorem effectOf_valid (s : State) (i : Instr) : (effectOf s i).valid = s.valid := by rw [effectOf_frame]

end Sys2Proof.Machine
end

