-- ==== Sys2Proof/Tests/Slice0.lean ====
section
/-! SUPPORT. Tests. Every expected value comes from spec/: words written out bit by bit from 30_encoding.md R83-R90, and the
vectors of 95_test_vectors.md named in each comment. Then one witness for each statement that has hypotheses. -/

namespace Sys2Proof.Tests

open Sys2Proof Sys2Proof.Machine

-- One theorem at a time: each kernel evaluation below would otherwise hold a thread of its own.
set_option Elab.async false

/-! ### Well-formed commands (R91) -/

theorem test_wellFormed_mapply_8_refused : ¬ (Instr.mapplyM 8).WellFormed := by decide
theorem test_wellFormed_fmtgen_8_refused : ¬ (Instr.fmtgenM 8).WellFormed := by decide
theorem test_wellFormed_bounds : (Instr.mapplyM 0).WellFormed ∧ (Instr.mapplyM 7).WellFormed ∧ (Instr.fmtgenM 7).WellFormed := by
  decide

/-! ### Decoding (R83-R90): 31:12 RSVD, 11:8 ARG, 7:0 OP -/

theorem test_decode_nop : decodeTableWord 32 0b00000000000000000000_0000_00000000 = some .nop := by decide +kernel
theorem test_decode_cfg : decodeTableWord 32 0b00000000000000000000_0000_00000001 = some .cfg := by decide +kernel
theorem test_decode_bitenc : decodeTableWord 32 0b00000000000000000000_0000_00000010 = some .bitenc := by decide +kernel
theorem test_decode_rsenc : decodeTableWord 32 0b00000000000000000000_0000_00000011 = some .rsenc := by decide +kernel
theorem test_decode_ileave : decodeTableWord 32 0b00000000000000000000_0000_00000100 = some .ileave := by decide +kernel
theorem test_decode_encode : decodeTableWord 32 0b00000000000000000000_0000_00000101 = some .encode := by decide +kernel
theorem test_decode_meval : decodeTableWord 32 0b00000000000000000000_0000_00010000 = some .meval := by decide +kernel
theorem test_decode_mapply : decodeTableWord 32 0b00000000000000000000_0110_00010001 = some (.mapplyM 6) := by decide +kernel
theorem test_decode_mapplyBest : decodeTableWord 32 0b00000000000000000000_1000_00010001 = some .mapplyBest := by
  decide +kernel
theorem test_decode_fmtgen : decodeTableWord 32 0b00000000000000000000_0101_00010010 = some (.fmtgenM 5) := by decide +kernel
theorem test_decode_fmtgenBest : decodeTableWord 32 0b00000000000000000000_1000_00010010 = some .fmtgenBest := by
  decide +kernel
theorem test_decode_gfmul : decodeTableWord 32 0b00000000000000000000_0000_00100000 = some .gfmul := by decide +kernel

/-- The detail an illegal word reports; 0 for a legal one. -/
def illegalDetail (w : Word) : Byte :=
  match decode w with
  | .ok _ => 0
  | .error e => e.detail

/-- R86-R88: an unknown opcode comes before reserved bits, reserved bits before ARG, and BEST with a mask is illegal. -/
theorem test_decode_illegal : illegalDetail 0x80000006 = 1 ∧ illegalDetail 0x00001100 = 2 ∧ illegalDetail 0x00000101 = 3 ∧
    illegalDetail 0x00000A11 = 4 ∧ illegalDetail 0x00000912 = 4 := by decide +kernel

/-! ### Small states -/

/-- The state a command leaves. -/
def after (i : Instr) (s : State) : State :=
  match exec i s with
  | .next t => t
  | .fault _ => s
  | .refused _ => s

/-- A reset machine with a CONFIG word. -/
def configured (w : Word) : State := { State.reset with config := ConfigReg.ofWord w }

/-- A machine with the layout registers of the test tables, (c1, d1, c2, d2, E), and D. -/
def laidOut (c1 d1 c2 d2 e : Byte) (d : BitVec 12) : State :=
  { State.reset with layout := ⟨d, ⟨c1, d1⟩, ⟨c2, d2⟩, e, 0, 0⟩ }

/-- A machine with CONFIG, D, W and a message, as the rows of BITENC's table start. -/
def messaged (config : Word) (d : BitVec 12) (w : BitVec 5) (msg : List Byte) : State :=
  { (configured config).store msgBase msg with
    msgLen := BitVec.ofNat 14 msg.length
    layout := { Layout.reset with dcwTotal := d, cciWidth := w } }

/-- The engine running a command word. -/
def running (s : State) (i : Instr) (st : Option Stage) : State := { s with eng := .running (encode i) st, cmd := encode i }

/-! ### One step of each command -/

/-- C2: STATUS = 0x06, ERR_CODE = 0x0101; NOP zeroes ERR_CODE and leaves STATUS = 0x06. -/
theorem test_nop : let s : State := { State.reset with status := ⟨true, true, false, false, false⟩, errCode := ⟨1, 1⟩ }
    (after .nop (s.accept 0)).readReg .status = 0x06 ∧ (after .nop (s.accept 0)).readReg .errCode = 0 := by decide +kernel

/-- C8: 10-L Byte, the first version of the second count range. -/
theorem test_cfg_10L : let t := after .cfg (configured 0x0000020A)
    t.readReg .dcwTotal = 274 ∧ t.readReg .blkG1 = 0x4402 ∧ t.readReg .blkG2 = 0x4502 ∧ t.readReg .ecwBlk = 18 ∧
    t.readReg .remBits = 0 ∧ t.readReg .cciWidth = 16 ∧ t.readReg .ecwTotal = 72 ∧ t.readReg .valid = 1 := by decide +kernel
/-- C15: VERSION 41. -/
theorem test_cfg_version_41 : let t := after .cfg (configured 0x00000029)
    t.readReg .errCode = 0x0101 ∧ t.readReg .errInfo = 0x01000000 ∧ t.layout = Layout.reset := by decide +kernel

/-- B8: "42", 1-M Numeric. -/
theorem test_bitenc_pair : (after .bitenc (messaged 0x1001 16 10 [0x34, 0x32])).bytesAt dataBase 6 =
      [0x10, 0x09, 0x50, 0x00, 0xEC, 0x11] ∧
    (after .bitenc (messaged 0x1001 16 10 [0x34, 0x32])).readReg .statBits = 21 := by decide +kernel
/-- B18: "0123A" in Numeric. -/
theorem test_bitenc_bad_character : let t := after .bitenc (messaged 0x1001 16 10 [0x30, 0x31, 0x32, 0x33, 0x41])
    t.readReg .errCode = 0x0202 ∧ t.readReg .errInfo = 0x00410004 := by decide +kernel

/-- S7: one data codeword 01, E = 4: ECC is GEN[1..4]. -/
theorem test_rsenc_one_codeword : let t := after .rsenc ((laidOut 1 1 0 0 4 1).store dataBase [0x01])
    t.bytesAt eccBase 4 = [0x0F, 0x36, 0x78, 0x40] ∧ t.bytesAt genBase 6 = [0x01, 0x0F, 0x36, 0x78, 0x40, 0x00] := by
  decide +kernel
/-- S12: no group-1 block. -/
theorem test_rsenc_no_blocks : let t := after .rsenc (laidOut 0 16 0 0 10 16)
    t.readReg .errCode = 0x0304 ∧ t.readReg .errInfo = 0x03000000 ∧ t.status.fatal = true := by decide +kernel

/-- R154, R155 on two blocks of 1 and 2 codewords, E = 1, REM = 3: columns 0, then the extra column, then EC. -/
theorem test_ileave_two_groups : let s := ((laidOut 1 1 1 2 1 3).store dataBase [0xA1, 0xB1, 0xB2]).store eccBase [0xE1, 0xE2]
    let t := after .ileave { s with layout := { s.layout with remBits := 3 } }
    t.bytesAt seqBase 6 = [0xA1, 0xB1, 0xB2, 0xE1, 0xE2, 0x00] ∧ t.readReg .seqLen = 5 ∧ t.readReg .seqBits = 43 := by
  decide +kernel
/-- I4: 4000 data codewords and 200 EC codewords do not fit. -/
theorem test_ileave_too_long : let t := after .ileave (laidOut 200 20 0 0 1 4000)
    t.readReg .errCode = 0x0404 ∧ t.readReg .errInfo = 0x09000000 := by decide +kernel

/-- C17: ENCODE with CONFIG = 0 fails in its stage CFG. -/
theorem test_encode_stage_cfg_fails : let t := after .encode (running (configured 0) .encode (some .cfg))
    t.readReg .errCode = 0x0101 ∧ t.readReg .valid = 0 ∧ t.eng = .idle := by decide +kernel
/-- C18: "w" in Alphanumeric fails in the second stage; VALID = 0x01. ECW_TOTAL reads 0 until the command ends (R77 (d)) and
13, 1-Q's, afterwards. -/
theorem test_encode_stage_bitenc_fails :
    let u := after .encode (running (messaged 0x2101 0 0 [0x48, 0x77]) .encode (some .cfg))
    let t := after .encode u
    t.readReg .errCode = 0x0202 ∧ t.readReg .errInfo = 0x01770001 ∧ t.readReg .valid = 1 ∧
    u.readReg .ecwTotal = 0 ∧ t.readReg .ecwTotal = 13 := by decide +kernel

/-- M4: MEVAL with VERSION 0. -/
theorem test_meval_version_0 : let t := after .meval (configured 0)
    t.readReg .errCode = 0x1001 ∧ t.readReg .errInfo = 0x01000000 := by decide +kernel
/-- R167, R169, R170: 21 light modules add 19; a core with a light margin adds 40; dk = 0 gives 100. -/
theorem test_penalties : runScore (List.replicate 21 false) = 19 ∧
    finderScore (List.replicate 4 false ++ finderCore ++ [true]) = 40 ∧
    penalty4 (List.replicate 21 (List.replicate 21 false)) = 100 := by decide +kernel

/-- The first two columns of rows 0 and 1 of a version-1 symbol: light, (0, 1) reserved. -/
def fewModules : State := ((configured 1).store (moduleAddr 0 0) [0, 2]).store (moduleAddr 1 0) [0, 0]

/-- A1: MAPPLY 1 makes row 0 dark and keeps row 1; a reserved module is kept (A3). -/
theorem test_mapply : let t := after (.mapplyM 1) fewModules
    t.byteAt 0x8000 = 1 ∧ t.byteAt 0x8001 = 2 ∧ t.byteAt 0x80B1 = 0 := by decide +kernel
/-- A4: MAPPLY BEST without current scores. -/
theorem test_mapplyBest_stale : let t := after .mapplyBest fewModules
    t.readReg .errCode = 0x1101 ∧ t.readReg .errInfo = 0x05000000 ∧ t.byteAt 0x8000 = 0 := by decide +kernel

/-- F3: 7-Q, mask 3. -/
theorem test_fmtgen_7Q : let t := after (.fmtgenM 3) (configured 0x2007)
    t.readReg .fmtWord = 0x3A06 ∧ t.readReg .verWord = 0x7C94 := by decide +kernel
/-- W4 in the BEST form: M, BEST = 2. -/
theorem test_fmtgenBest : let t := after .fmtgenBest { configured 0x1001 with best := 2, valid := { mask := true } }
    t.readReg .fmtWord = 0x5E7C ∧ t.readReg .verWord = 0 ∧ t.readReg .valid = 0x30 := by decide +kernel

/-- 95_test_vectors.md 2.3: FF ⊗ FF = E2. -/
theorem test_gfmul : (after .gfmul { State.reset with gfOp := ⟨0xFF, 0xFF⟩ }).readReg .gfRes = 0xE2 := by decide +kernel

/-! ### The bus -/

/-- Z1, Z3, Z4, Z9: reads of ID, of a register byte, of an unmapped address, across the end of MATRIX. -/
theorem test_bus_reads : (State.reset.transact (.read 0 .four)).resp = some ⟨.okay, 0x51520107⟩ ∧
    (State.reset.transact (.read 8 .one)).resp = some ⟨.error, 0⟩ ∧
    (State.reset.transact (.read 0x64 .four)).resp = some ⟨.error, 0⟩ ∧
    (State.reset.transact (.read 0xFA60 .four)).resp = some ⟨.error, 0⟩ := by decide +kernel
/-- 95_test_vectors.md 2.3: a 4-byte read at 0x0200 is little-endian. -/
theorem test_bus_exp : (State.reset.transact (.read 0x200 .four)).resp = some ⟨.okay, 0x08040201⟩ := by decide +kernel
/-- Z11, Z12: writes during BUSY. -/
theorem test_bus_busy : let s := running State.reset .gfmul none
    (s.transact (.write 0x2000 .one 7)).status.rej = true ∧ (s.transact (.write 0x2000 .one 7)).mem = [] ∧
    (s.transact (.write 0x2001 .two 7)).status.rej = false ∧
    (s.transact (.write 0x2001 .two 7)).resp = some ⟨.error, 0⟩ := by decide +kernel
/-- E1, E3, E6: W1C, irq, and a write to CONFIG while FATAL = 1. -/
theorem test_status : let s : State := { State.reset with status := ⟨true, true, false, false, true⟩, ie := ⟨false, true⟩ }
    (s.transact (.write 8 .four 4)).readReg .status = 0x22 ∧ s.irq = true ∧
    (s.transact (.write 0x20 .four 0x1001)).readReg .config = 0x1001 := by decide +kernel

/-! ### Witnesses: states and operands that meet the hypotheses of each statement, clause by clause -/

/-- An idle, a busy and a fatal machine. -/
def busyGfmul : State := running State.reset .gfmul none
def fatal : State := { State.reset with status := ⟨true, true, false, false, true⟩ }
/-- BITENC running with D = 1. -/
def busyBitenc : State := running { State.reset with layout := { Layout.reset with dcwTotal := 1 } } .bitenc none
/-- ENCODE running for 1-Q Alphanumeric, its stage CFG performed, a stale VALID.DATA still set. -/
def encodeAfterCfg : State :=
  { running (configured 0x2101) .encode (some .bitenc) with
    encodeLayout := romLayout (ConfigReg.ofWord 0x2101), valid := { data := true } }
/-- The layout of 5-Q, both groups and remainder bits. -/
def layout5Q : State := after .cfg (configured 0x2005)

theorem witness_PowerOnResetLeaves :
    (∃ s t : State, t = s.act .powerOn) ∧ (∃ s t : State, ∃ a, t = s.act (.powerOnDuring a)) ∧
    (windowOf 0x400).isRam = true ∧ (windowOf 0xFA60).isRam = true :=
  ⟨⟨busyGfmul, _, rfl⟩, ⟨busyGfmul, _, .read 0 .four, rfl⟩, by decide, by decide⟩

theorem witness_CtrlWriteSoftResets : (1 : Word).getLsbD 0 = true ∧ (0xFFFFFFFE : Word).getLsbD 0 = false ∧
    busyBitenc.busyByte 0x4000 = true ∧ busyBitenc.busyByte 0x4001 = false := by decide +kernel

theorem witness_CommandWordsDecode : (0 : Nat) < 8 ∧ (7 : Nat) < 8 := by decide

theorem witness_IllegalWordsRecordTheirDetail : illegalDetail 0x00000006 = 1 ∧ illegalDetail 0x80000005 = 2 ∧
    illegalDetail 0x00000105 = 3 ∧ illegalDetail 0x00000F12 = 4 ∧ (decode 0x00000711).toOption = some (.mapplyM 7) := by
  decide +kernel

theorem witness_StepRunsTheDecodedCommand :
    (∃ (s : State) (w : Word) (st : Option Stage) (i : Instr), s.eng = .running w st ∧ s.stepsLeft = 0 ∧
      s.hostMoves = false ∧ (decode w).toOption = some i ∧ i.WellFormed ∧ w = encode i) ∧
    (∃ (s : State) (w : Word) (st : Option Stage), s.eng = .running w st ∧ s.stepsLeft = 0 ∧ s.hostMoves = false ∧
      illegalDetail w = 1) ∧ (Instr.fmtgenM 7).WellFormed :=
  ⟨⟨running State.reset (.mapplyM 7) none, _, _, .mapplyM 7, rfl, rfl, rfl, by decide +kernel, by decide, rfl⟩,
   ⟨{ State.reset with eng := .running 0xFF none }, _, _, rfl, rfl, rfl, by decide +kernel⟩, by decide⟩

theorem witness_OtherSteps :
    (∃ s a rest, s.inbox = a :: rest ∧ State.busy s = false) ∧
    (∃ s a rest, s.inbox = a :: rest ∧ State.busy s = true ∧ 0 < s.hostTurns) ∧
    (∃ s : State, s.inbox = [] ∧ s.eng = .idle) ∧
    (∃ (s : State) (w : Word) (st : Option Stage), s.eng = .running w st ∧ s.inbox ≠ [] ∧ s.hostTurns = 0 ∧ 0 < s.stepsLeft) :=
  ⟨⟨{ State.reset with inbox := [.wait] }, _, _, rfl, rfl⟩,
   ⟨{ busyGfmul with inbox := [.wait], hostTurns := 1 }, _, _, rfl, rfl, by decide⟩, ⟨State.reset, rfl, rfl⟩,
   ⟨{ busyGfmul with inbox := [.wait], stepsLeft := 1 }, _, _, rfl, by decide, rfl, by decide⟩⟩

theorem witness_AcceptedCommandCompletes : ∃ (s : State) (w : Word) (st : Option Stage), s.eng = .running w st ∧
    s.inbox ≠ [] ∧ ∀ a ∈ s.inbox, a.resets = false :=
  ⟨{ running State.reset .encode (some .cfg) with inbox := [.access (.write 4 .four 0), .wait] }, _, _, rfl, by decide,
    by decide⟩

theorem witness_ErrorAccessesChangeNothing : accessOk 0x2001 2 = false ∧ accessOk 0x60 1 = false ∧ accessOk 0x1FC 2 = false ∧
    accessOk 0x64 4 = false ∧ accessOk 0x420 1 = false ∧ accessOk 0xFA60 2 = false ∧ accessOk 0x60 4 = true ∧
    accessOk 0x1FC 4 = true ∧ accessOk 0x41F 1 = true ∧ accessOk 0xFA60 1 = true := by decide +kernel

theorem witness_accessError : accessError 0x2001 2 ∧ accessError 0x60 1 ∧ accessError 0xFA60 2 ∧ ¬ accessError 0xFA60 1 :=
  ⟨.inl (by decide), .inr (.inl ⟨.inl (by decide), by decide⟩),
   .inr (.inr ⟨1, by decide, .inr (.inr (.inr (by decide)))⟩), by
    rintro (h | ⟨h, -⟩ | ⟨k, hk, h⟩)
    · exact absurd h (by decide)
    · exact absurd h (by decide)
    · obtain rfl : k = 0 := by omega
      unfold unmappedAddr at h
      omega⟩

theorem witness_ReadsReturnTheLocation : accessOk 0x60 4 = true ∧ accessOk 0x100 4 = true ∧ accessOk 0x1FC 4 = true ∧
    accessOk 0x2FF 1 = true ∧ accessOk 0x300 4 = true ∧ accessOk 0x3FE 2 = true ∧ accessOk 0x400 4 = true ∧
    accessOk 0x6FFC 4 = true ∧ accessOk 0xFA5C 4 = true ∧ busyBitenc.busyReg .gfRes = false ∧ busyBitenc.busyPen = false ∧
    busyBitenc.busyByte 0x4001 = false ∧ busyBitenc.busy = true ∧ State.reset.busy = false := by decide +kernel

/-- Inside the running write set: a register, a byte, PEN; and ECW_TOTAL between two stages of ENCODE (R77 (d)). -/
theorem witness_ReadsReturnTheLocation_busy : busyBitenc.busyReg .statBits = true ∧ busyBitenc.busyByte 0x4000 = true ∧
    (running State.reset .meval none).busyPen = true ∧ accessOk 0x110 4 = true ∧ accessOk 0x114 4 = true ∧
    accessOk 0x40 4 = true ∧ encodeAfterCfg.busyReg .ecwTotal = false ∧
    encodeAfterCfg.readReg .ecwTotal = 0 ∧ encodeAfterCfg.stageView.readReg .ecwTotal = 13 := by decide +kernel

theorem witness_MemoryWriteStoresItsBytes : State.reset.busy = false ∧ accessOk 0x2000 4 = true ∧ accessOk 0x4FFE 2 = true ∧
    accessOk 0x5FFF 1 = true ∧ accessOk 0x6FFC 4 = true ∧ accessOk 0x8000 4 = true ∧ accessOk 0xFA60 1 = true := by
  decide +kernel

theorem witness_RegisterWritesReadBack : State.reset.busy = false ∧ fatal.busy = false := by decide

theorem witness_ReadOnlyWritesChangeNothing : State.reset.busy = false ∧ accessOk 0x100 4 = true ∧ accessOk 0x41F 1 = true := by
  decide +kernel

theorem witness_BusyWritesAreRefused : busyBitenc.busy = true ∧ accessOk 0x64 4 = false ∧ accessOk 8 4 = true ∧
    accessOk 4 4 = true ∧ accessOk 0x4000 1 = true ∧ fatal.busy = false ∧ fatal.status.fatal = true := by decide +kernel

theorem witness_NothingElseChangesWhileBusy : ∃ (s : State) (a : HostAct) (rest : List HostAct), s.inbox = a :: rest ∧
    s.busy = true ∧ 0 < s.hostTurns ∧ a.resets = false :=
  ⟨{ busyGfmul with inbox := [.access (.write 0x5C .four 9)], hostTurns := 1 }, _, _, rfl, rfl, by decide, rfl⟩

theorem witness_CommandAcceptance : State.reset.busy = false ∧ State.reset.status.fatal = false ∧ fatal.busy = false ∧
    fatal.status.fatal = true := by decide

theorem witness_FatalFallsOnlyAtReset :
    (∃ s t, step s = .next t ∧ s.status.fatal = true ∧ ∀ a rest, s.inbox = a :: rest → a.resets = false) ∧
    (∃ s t, step s = .next t ∧ s.status.fatal = false ∧ t.status.fatal = true) :=
  ⟨⟨fatal, fatal, rfl, rfl, by intro a rest h; cases h⟩,
   ⟨running State.reset .rsenc none, after .rsenc (running State.reset .rsenc none), rfl, rfl, rfl⟩⟩

theorem witness_FailedCommandWritesNothing :
    (∃ s t, s.errCode = ⟨0, 0⟩ ∧ exec .cfg s = .next t ∧ t.errCode ≠ ⟨0, 0⟩) ∧
    (∃ s t, s.errCode = ⟨0, 0⟩ ∧ exec .encode s = .next t ∧ t.errCode ≠ ⟨0, 0⟩) :=
  ⟨⟨State.reset, after .cfg State.reset, rfl, rfl, by decide⟩,
   ⟨running State.reset .encode (some .bitenc), after .encode (running State.reset .encode (some .bitenc)), rfl, rfl,
     by decide⟩⟩

theorem witness_IrqIsALevel :
    (∃ s t, step s = .next t ∧ s.irq = true ∧ t.irq = false) ∧ (∃ s t, step s = .next t ∧ s.irq = false ∧ t.irq = true) :=
  ⟨⟨{ fatal with ie := ⟨true, false⟩, inbox := [.access (.write 8 .four 0x1E)] }, _, rfl, rfl, by decide +kernel⟩,
   ⟨{ busyGfmul with ie := ⟨true, false⟩ }, after .gfmul { busyGfmul with ie := ⟨true, false⟩ }, rfl, rfl, rfl⟩⟩

theorem witness_CfgLoadsTheLayout_rom : (1 : Nat) ≤ 40 ∧ (40 : Nat) ≤ 40 ∧ (3 : Nat) ≤ 3 ∧ dataModules 1 = 208 ∧
    dataModules 40 = 29648 := by decide

theorem witness_CfgLoadsTheLayout : (configured 0x2000).version < 1 ∧ 40 < (configured 0x2029).version ∧
    2 < (configured 0x301).mode ∧ 3 < (configured 0x4001).level ∧ cfgCheck (configured 0x3228) = none := by decide +kernel

theorem witness_AlphabetsAndIndexes : inAlphabet 0 0x39 = true ∧ inAlphabet 1 0x3A = true ∧ (0x3A : Byte).toNat = 0x3A := by
  decide

/-- The code and detail of a command's error. -/
def errorOf (s : State) : BitVec 4 × Byte := (s.errCode.code, s.errInfo.detail)

theorem witness_BitencRejectsInOrder :
    errorOf (after .bitenc (messaged 0x1301 16 10 [])) = (1, 2) ∧
    errorOf (after .bitenc { messaged 0x1001 16 10 [] with msgLen := 8193 }) = (1, 4) ∧
    errorOf (after .bitenc (messaged 0x1001 16 0 [])) = (4, 1) ∧
    errorOf (after .bitenc (messaged 0x1001 16 17 [])) = (4, 1) ∧
    errorOf (after .bitenc (messaged 0x1001 0 16 [])) = (4, 2) ∧
    errorOf (after .bitenc (messaged 0x1101 1 1 [0x41, 0x61])) = (2, 1) ∧
    errorOf (after .bitenc (messaged 0x1101 1 1 [0x41, 0x42])) = (3, 1) ∧
    errorOf (after .bitenc (messaged 0x1101 1 2 [0x41, 0x42])) = (3, 2) := by decide +kernel

/-- 4 + 1 + 11 bits fill two codewords exactly. -/
theorem witness_BitencWritesTheCodewords : let s := messaged 0x1101 2 1 [0x41]
    s.mode ≤ 2 ∧ s.message = [0x41] ∧ (∀ b ∈ s.message, inAlphabet s.mode b = true) ∧ s.messageLength < 2 ^ 1 ∧
    requiredBits s.mode s.messageLength 1 ≤ 8 * 2 ∧ bitencCheck s = none := by decide +kernel

theorem witness_StreamAfterTheSegment : (segment 2 8 [0xFF]).length = 20 ∧ 20 ≤ 8 * 3 ∧ 20 < 8 * ((24 + 7) / 8) ∧
    (24 + 7) / 8 ≤ 3 ∧ 3 < 5 := by decide

theorem witness_StreamAfterTheSegment_order : 8 * 1 + 8 ≤ (List.replicate 16 true).length ∧ (7 : Nat) < 8 := by decide

theorem witness_SegmentLayout : 0 < ([0x31, 0x32, 0x33, 0x34] : List Byte).length / 3 ∧
    ([0x31, 0x32, 0x33, 0x34] : List Byte).length % 3 = 1 ∧ ([0x31, 0x32] : List Byte).length % 3 = 2 ∧
    0 < ([0x41, 0x42, 0x43] : List Byte).length / 2 ∧ ([0x41, 0x42, 0x43] : List Byte).length % 2 = 1 := by decide

theorem witness_RomCapacityFitsTheCount : let c := ConfigReg.ofWord 0x0028
    1 ≤ c.version.toNat ∧ c.version.toNat ≤ 40 ∧ c.mode.toNat ≤ 2 ∧ c.ecLevel.toNat ≤ 3 ∧
    requiredBits c.mode.toNat 7089 (romLayout c).cciWidth.toNat = 8 * (romLayout c).dcwTotal.toNat := by decide +kernel

theorem witness_FieldTables : (253 : Nat) < 254 ∧ (0xFF : Byte) ≠ 0 := by decide

theorem witness_CodewordIsAMultipleOfTheGenerator : ecCodewords 1 [0x01, 0x02, 0x04] = [0x07] ∧ ecCodewords 2 [] = [0, 0] := by
  decide +kernel

theorem witness_EcCornerCases : ([1, 2] : List Byte).length = ([3, 4] : List Byte).length ∧ Layout.reset.dcwTotal = 0 := by
  decide

theorem witness_LayoutChecksInOrder :
    errorOf (after .rsenc (laidOut 0 0 0 0 0 0)) = (4, 3) ∧ errorOf (after .rsenc (laidOut 1 0 0 0 0 0)) = (4, 4) ∧
    errorOf (after .rsenc (laidOut 2 15 2 15 18 0)) = (4, 5) ∧ errorOf (after .rsenc (laidOut 1 15 0 0 10 16)) = (4, 6) ∧
    errorOf (after .rsenc (laidOut 1 16 0 0 0 16)) = (4, 7) ∧ errorOf (after .rsenc (laidOut 1 16 0 0 32 16)) = (4, 7) ∧
    errorOf (after .rsenc (laidOut 255 1 0 0 31 255)) = (4, 8) ∧
    errorOf (after .ileave (laidOut 200 20 0 0 1 4000)) = (4, 9) ∧ layoutCheck true layout5Q.layout = none := by
  decide +kernel

theorem witness_RsencWritesTheEcCodewords : layoutCheck false layout5Q.layout = none ∧ layout5Q.layout.g1.count = 2 ∧
    layout5Q.layout.g2.count = 2 ∧ layout5Q.layout.ecwBlk = 18 := by decide +kernel

theorem witness_IleaveClosedForm : layoutCheck true layout5Q.layout = none ∧ layout5Q.layout.remBits = 7 ∧
    layout5Q.layout.g1.dcw = 15 ∧ layout5Q.layout.g2.dcw = 16 := by decide +kernel

theorem witness_EncodePerformsItsStages :
    (running State.reset .encode (some .cfg)).eng = .running (encode .encode) (some .cfg) ∧
    (cfgCheck State.reset).isSome ∧ (bitencCheck State.reset).isSome ∧ (layoutCheck false Layout.reset).isSome ∧
    (layoutCheck true Layout.reset).isSome ∧ cfgCheck (configured 0x2005) = none ∧
    bitencCheck (messaged 0x1101 2 1 [0x41]) = none ∧ layoutCheck true layout5Q.layout = none := by decide +kernel

theorem witness_EncodeIsThePipeline : ∃ s s1 s2 s3 s4 : State, s.eng = .running (encode .encode) (some .cfg) ∧ s.inbox = [] ∧
    exec .cfg s = .next s1 ∧ exec .bitenc s1 = .next s2 ∧ exec .rsenc s2 = .next s3 ∧ exec .ileave s3 = .next s4 ∧
    cfgCheck s = none ∧ bitencCheck s1 = none ∧ layoutCheck false s2.layout = none ∧ layoutCheck true s3.layout = none :=
  let s := running (configured 0x2101) .encode (some .cfg)
  ⟨s, after .cfg s, after .bitenc (after .cfg s), after .rsenc (after .bitenc (after .cfg s)),
    after .ileave (after .rsenc (after .bitenc (after .cfg s))), rfl, rfl, rfl, rfl, rfl, rfl, by decide +kernel,
    by decide +kernel, by decide +kernel, by decide +kernel⟩

theorem witness_CandidateColours : (21 : Nat) = 4 * (configured 1).config.version.toNat + 17 ∧
    (177 : Nat) = 4 * (configured 40).config.version.toNat + 17 ∧ (20 : Nat) < 21 := by decide +kernel

theorem witness_MevalScoresTheCandidates : (configured 0).config.version.toNat < 1 ∧
    40 < (configured 41).config.version.toNat ∧ (configured 40).versionOk = true := by decide +kernel

theorem witness_PenaltyRules : Square 5 (List.replicate 5 (List.replicate 5 true)) ∧ Square 0 ([] : List (List Bool)) := by
  refine ⟨⟨rfl, fun row h => ?_⟩, ⟨rfl, fun row h => by cases h⟩⟩
  rw [List.eq_of_mem_replicate h]; rfl

theorem witness_PenaltiesFitTheirWords : Square 177 (List.replicate 177 (List.replicate 177 true)) ∧ 177 ≤ 177 := by
  refine ⟨⟨List.length_replicate, fun row h => ?_⟩, le_rfl⟩
  rw [List.eq_of_mem_replicate h, List.length_replicate]

theorem witness_MapplyMasksTheSymbol : (7 : Nat) < 8 ∧ (configured 0).version < 1 ∧ 40 < (configured 41).version ∧
    (configured 40).versionOk = true ∧ (configured 1).valid.mask = false ∧
    mapplyCheck { configured 1 with valid := { mask := true } } .best = none := by decide +kernel

theorem witness_MapplyTwiceRestores : Memory.wf fewModules.mem ∧ 1 ≤ fewModules.version ∧ fewModules.version ≤ 40 ∧
    (0 : Nat) < 8 := by decide +kernel

theorem witness_FmtgenWritesTheWords : (configured 0).version < 1 ∧ 40 < (configured 41).version ∧
    3 < (configured 0x4001).level ∧ (configured 0x3006).valid.mask = false ∧ fmtgenCheck (configured 0x3006) (.explicit 7) = none ∧
    fmtgenCheck { configured 0x3007 with valid := { mask := true } } .best = none := by decide +kernel

theorem witness_BchRemainderIsTheRemainder : (0 : Nat) < 0x537 ∧ bchRem (2 * 1024) 0x537 = 0x26E := by decide +kernel

theorem witness_FormatWordTable : (3 : Nat) < 4 ∧ (7 : Nat) < 8 ∧ (31 : Nat) < 32 ∧ (30 : Nat) ≠ 31 := by decide
theorem witness_VersionWordTable : (6 : Nat) < 7 ∧ (7 : Nat) ≤ 40 ∧ (39 : Nat) < 40 := by decide

theorem witness_CommandsChangeOnlyTheirWriteSet : ∃ (s t : State) (i : Instr) (st : Option Stage), i.WellFormed ∧
    s.eng = .running (encode i) st ∧ exec i s = .next t ∧ s.busyByte 0x4001 = false ∧ s.busyByte 0x4000 = true ∧
    s.busyReg .gfRes = false ∧ s.busyPen = false :=
  ⟨busyBitenc, after .bitenc busyBitenc, .bitenc, none, by decide, rfl, rfl, by decide +kernel, by decide +kernel,
    by decide +kernel, by decide +kernel⟩

theorem witness_WriteSetsOfTheCommands :
    (∃ (s : State) (i : Instr) (st : Option Stage), i.WellFormed ∧ s.eng = .running (encode i) st ∧
      i = .encode ∧ s.config.legal = true ∧ s.busyByte 0x400C = true ∧ s.busyByte 0x400D = false) ∧
    (∃ (s : State) (i : Instr) (st : Option Stage), i.WellFormed ∧ s.eng = .running (encode i) st ∧
      i = .encode ∧ s.config.legal = false ∧ s.busyByte 0x4000 = false ∧ s.busyByte 0x400 = true) ∧
    State.reset.eng = .idle ∧
    (∃ (s : State) (w : Word) (st : Option Stage), s.eng = .running w st ∧ illegalDetail w = 1) :=
  ⟨⟨running (configured 0x2101) .encode (some .cfg), .encode, _, by decide, rfl, rfl, by decide +kernel, by decide +kernel,
      by decide +kernel⟩,
   ⟨running State.reset .encode (some .cfg), .encode, _, by decide, rfl, rfl, by decide +kernel, by decide +kernel,
      by decide +kernel⟩, rfl,
   ⟨{ State.reset with eng := .running 0xFF none }, _, _, rfl, by decide +kernel⟩⟩

theorem witness_MemoryStaysCanonical : ∃ s t, Memory.wf s.mem ∧ s.mem ≠ [] ∧ step s = .next t :=
  ⟨running fewModules (.mapplyM 1) none, after (.mapplyM 1) (running fewModules (.mapplyM 1) none), by decide +kernel,
    by decide +kernel, rfl⟩

theorem witness_ControlStaysConsistent : ∃ s t, ControlOk s ∧ s.busy = true ∧ step s = .next t :=
  ⟨busyGfmul, after .gfmul busyGfmul,
   ⟨fun w st h => by
      injection h with h1 h2
      subst h1 h2
      exact ⟨rfl, rfl, rfl, rfl, rfl, by simp [show decode (encode .gfmul) = .ok .gfmul from rfl],
        fun x hx => by cases hx⟩,
    by decide⟩, rfl, rfl⟩

theorem witness_ValidBitsStayTrue : ∃ s t, ControlOk s ∧ ValidOk s ∧ s.valid.gf = true ∧ step s = .next t := by
  refine ⟨{ State.reset with valid := { gf := true } }, _, ⟨fun w st h => (by cases h), by decide⟩, ?_, rfl, rfl⟩
  constructor <;> intro h <;> first | rfl | cases h

/-- Between two stages of ENCODE the register VALID holds a stale DATA bit; CFG alone stands. -/
theorem witness_ValidBitsStayTrue_betweenStages : ∃ s t, ControlOk s ∧ ValidOk s ∧ s.valid.data = true ∧
    s.standing = { cfg := true } ∧ step s = .next t := by
  refine ⟨encodeAfterCfg, after .encode encodeAfterCfg, ⟨fun w st h => ?_, by decide⟩, ?_, rfl, rfl, rfl⟩
  · injection h with h1 h2
    subst h1 h2
    exact ⟨rfl, rfl, rfl, rfl, rfl, by simp [show decode (encode .encode) = .ok .encode from rfl],
      fun x _ _ => ⟨by decide +kernel, rfl⟩⟩
  · refine ⟨fun _ => ⟨by decide +kernel, by decide +kernel⟩, ?_, ?_, ?_, ?_, ?_, ?_⟩ <;> intro h <;> cases h

/-- A sequence of one data and one EC codeword with a remainder bit, interleaved. -/
def interleavedOnce : State := after .ileave
  { laidOut 1 1 0 0 1 1 with
    layout := { (laidOut 1 1 0 0 1 1).layout with remBits := 1 }, mem := [(0x4000, 5), (0x5000, 5), (0x6002, 0xFF)] }

theorem witness_ValidBitsStayTrue_seq : ∃ s t, ControlOk s ∧ ValidOk s ∧ s.valid.seq = true ∧
    0 < s.layout.remBits.toNat ∧ step s = .next t := by
  refine ⟨interleavedOnce, interleavedOnce, ⟨fun w st h => (by cases h), by decide⟩, ?_, rfl, by decide, rfl⟩
  refine ⟨?_, ?_, ?_, fun _ => by decide +kernel, ?_, ?_, ?_⟩ <;> intro h <;> cases h

end Sys2Proof.Tests
end

section
/-! PROOFS. Bit strings: the bits of a number, and the codewords of a stream of bits (00_scope.md R7, R8). -/

namespace Sys2Proof.Machine

@[simp] theorem bits_length (v w : Nat) : (bits v w).length = w := by
  induction w with
  | zero => rfl
  | succ w ih => simp [bits, ih]

/-- R7: the first bit is the most significant. -/
theorem bits_getElem? (v : Nat) {w i : Nat} (h : i < w) : (bits v w)[i]? = some (v.testBit (w - 1 - i)) := by
  induction w generalizing i with
  | zero => omega
  | succ w ih =>
    cases i with
    | zero => simp [bits]
    | succ i =>
      rw [bits, List.getElem?_cons_succ, ih (by omega)]
      congr 2
      omega

/-- The number a list of bits stands for has its last bit at position 0. -/
theorem testBit_foldl_bits (l : List Bool) (k : Nat) :
    (l.foldl (fun acc (b : Bool) => 2 * acc + b.toNat) 0).testBit k = l.reverse.getD k false := by
  induction l using List.reverseRecOn generalizing k with
  | nil => simp
  | append_singleton l b ih =>
    rw [List.foldl_append, List.foldl_cons, List.foldl_nil, ← Nat.bit_val, List.reverse_append]
    cases k with
    | zero => simp
    | succ k => rw [Nat.testBit_bit_succ, ih]; simp

/-- R8: the first bit of a codeword's eight is its bit 7. -/
theorem byteOfBits_getLsbD {l : List Bool} (hl : l.length = 8) {i : Nat} (hi : i < 8) :
    some ((byteOfBits l).getLsbD (7 - i)) = l[i]? := by
  have hr : l.reverse.getD (7 - i) false = l[i] := by
    rw [List.getD_eq_getElem _ _ (by simp; omega), List.getElem_reverse]
    congr 1
    omega
  rw [byteOfBits, BitVec.getLsbD_ofNat, testBit_foldl_bits, hr, List.getElem?_eq_getElem (by omega)]
  simp [show 7 - i < 8 by omega]

/-- R8: bit 8k + i of a stream is bit 7 - i of codeword k. -/
theorem codeword_getLsbD {bs : List Bool} {k i : Nat} (hk : 8 * k + 8 ≤ bs.length) (hi : i < 8) :
    some ((codeword bs k).getLsbD (7 - i)) = bs[8 * k + i]? := by
  rw [codeword, byteOfBits_getLsbD (by simp; omega) hi, List.getElem?_take_of_lt hi, List.getElem?_drop]

/-- The codewords behind a start of whole codewords. -/
theorem codeword_append_right {pre : List Bool} {p : Nat} (hp : pre.length = 8 * p) (l : List Bool) (k : Nat) :
    codeword (pre ++ l) (p + k) = codeword l k := by
  rw [codeword, Nat.mul_add, ← hp, ← List.drop_drop, List.drop_left, codeword]

end Sys2Proof.Machine

namespace Sys2Proof

/-- Parts of one length, one behind the other: what is left without the first `i` parts. -/
theorem drop_flatMap {α β : Type} {f : α → List β} {e : Nat} (hf : ∀ a, (f a).length = e) {l : List α} {i : Nat}
    (hi : i ≤ l.length) : (l.flatMap f).drop (e * i) = (l.drop i).flatMap f := by
  induction i generalizing l with
  | zero => rfl
  | succ i ih =>
    cases l with
    | nil => simp
    | cons a l =>
      rw [List.flatMap_cons, Nat.mul_succ, Nat.add_comm, ← List.drop_drop, ← hf a, List.drop_left, hf a, List.drop_succ_cons]
      exact ih (by simpa using hi)

/-- Parts of one length, one behind the other: part `i`. -/
theorem take_drop_flatMap {α β : Type} {f : α → List β} {e : Nat} (hf : ∀ a, (f a).length = e) {l : List α} {i : Nat}
    (hi : i < l.length) : ((l.flatMap f).drop (e * i)).take e = f l[i] := by
  rw [drop_flatMap hf hi.le, List.drop_eq_getElem_cons hi, List.flatMap_cons, List.take_left' (hf _)]

end Sys2Proof
end

section
/-! PROOFS. The bit stream of a message behind its segment: terminator, byte boundary and pad codewords (41_bitstream.md
R126-R128). -/

namespace Sys2Proof.Machine

/-- R126, R127: the codeword at which the pads begin, behind the terminator and the byte boundary. -/
def padStart (d len : Nat) : Nat := (len + (if 4 ≤ 8 * d - len then 4 else 8 * d - len) + 7) / 8

/-- The pads begin at the first byte boundary at or after the segment's end. -/
theorem length_le_padStart (d len : Nat) : len ≤ 8 * padStart d len := by
  unfold padStart
  omega

theorem padStart_le {d len : Nat} (h : len ≤ 8 * d) : padStart d len ≤ d := by
  unfold padStart
  split_ifs <;> omega

@[simp] theorem zeros_length (n : Nat) : (zeros n).length = n := List.length_replicate

theorem zeros_append (m n : Nat) : zeros m ++ zeros n = zeros (m + n) := List.replicate_append_replicate

/-- R126, R127: the terminator and the byte boundary together are zeros up to the first pad. -/
theorem addBoundary_addTerminator (d : Nat) (bs : List Bool) :
    addBoundary (addTerminator d bs) = bs ++ zeros (8 * padStart d bs.length - bs.length) := by
  have ht : (addTerminator d bs).length = bs.length + min 4 (8 * d - bs.length) := by simp [addTerminator]
  rw [addBoundary, ht, addTerminator, List.append_assoc, zeros_append]
  congr 2
  unfold padStart
  split_ifs <;> omega

@[simp] theorem padCodewords_length (n : Nat) : (padCodewords n).length = 8 * n := by
  rw [padCodewords, flatMap_range_length _ 8 n (fun _ _ => bits_length ..), Nat.mul_comm]

/-- R128: the pad codewords alternate, 0xEC first. -/
theorem codeword_padCodewords {n k : Nat} (h : k < n) :
    codeword (padCodewords n) k = if k % 2 = 0 then 0xEC else 0x11 := by
  rw [codeword, padCodewords, take_drop_flatMap (fun _ => bits_length ..) (by simpa using h), List.getElem_range]
  split <;> rfl

/-- The segment and the zeros behind it, up to the pads. -/
def terminatedSegment (md w d : Nat) (msg : List Byte) : List Bool :=
  segment md w msg ++ zeros (8 * padStart d (segment md w msg).length - (segment md w msg).length)

variable {md w d : Nat} {msg : List Byte}

/-- R126, R127: what stands before the pads. -/
theorem addBoundary_addTerminator_segment :
    addBoundary (addTerminator d (segment md w msg)) = terminatedSegment md w d msg :=
  addBoundary_addTerminator ..

theorem terminatedSegment_length :
    (terminatedSegment md w d msg).length = 8 * padStart d (segment md w msg).length := by
  have := length_le_padStart d (segment md w msg).length
  rw [terminatedSegment, List.length_append, zeros_length]
  omega

/-- R126-R128: the bit stream as segment, zeros and pads. -/
theorem bitStream_eq : bitStream md w d msg =
    terminatedSegment md w d msg ++ padCodewords (d - padStart d (segment md w msg).length) := by
  rw [bitStream, addPads, addBoundary_addTerminator_segment, terminatedSegment_length,
    Nat.mul_div_cancel_left _ (by decide)]

theorem bitStream_length (h : (segment md w msg).length ≤ 8 * d) : (bitStream md w d msg).length = 8 * d := by
  have := padStart_le h
  rw [bitStream_eq, List.length_append, terminatedSegment_length, padCodewords_length]
  omega

theorem bitStream_take : (bitStream md w d msg).take (segment md w msg).length = segment md w msg := by
  rw [bitStream_eq, terminatedSegment, List.append_assoc, List.take_left]

/-- R126, R127: zeros between the segment and the pads. -/
theorem bitStream_zero {i : Nat} (hlo : (segment md w msg).length ≤ i)
    (hhi : i < 8 * padStart d (segment md w msg).length) : (bitStream md w d msg)[i]? = some false := by
  rw [bitStream_eq, List.getElem?_append_left (by rwa [terminatedSegment_length]), terminatedSegment,
    List.getElem?_append_right hlo, zeros, List.getElem?_replicate_of_lt (by omega)]

/-- R128: the codewords behind the zeros. -/
theorem codeword_bitStream_pad {j : Nat} (hlo : padStart d (segment md w msg).length ≤ j)
    (hhi : j < d) : codeword (bitStream md w d msg) j =
    if (j - padStart d (segment md w msg).length) % 2 = 0 then 0xEC else 0x11 := by
  obtain ⟨k, rfl⟩ := Nat.exists_eq_add_of_le hlo
  rw [bitStream_eq, codeword_append_right terminatedSegment_length, codeword_padCodewords (by omega),
    Nat.add_sub_cancel_left]

end Sys2Proof.Machine

open Sys2Proof Sys2Proof.Machine

/-- Settles O30: the stream is the segment, zeros up to `padStart` and the alternating pads. -/
theorem streamAfterTheSegment : Obligations.StreamAfterTheSegment :=
  ⟨fun _ _ _ => codeword_getLsbD, fun _ _ _ _ h =>
    ⟨bitStream_length h, bitStream_take, fun _ => bitStream_zero, fun _ => codeword_bitStream_pad⟩⟩
end

section
/-! PROOFS. The segment of a message: its length and the place of every group of characters (41_bitstream.md R119-R125). -/

namespace Sys2Proof

/-- A list from position `k`, when it has an element there. -/
theorem drop_eq_getD_cons {α : Type} (d : α) {l : List α} {k : Nat} (h : k < l.length) :
    l.drop k = l.getD k d :: l.drop (k + 1) := by
  rw [List.drop_eq_getElem_cons h, List.getD_eq_getElem _ _ h]

end Sys2Proof

namespace Sys2Proof.Machine

/-! ### The length of a payload (R120) -/

theorem numericPayload_length (msg : List Byte) : (numericPayload msg).length = payloadBits 0 msg.length := by
  induction msg using numericPayload.induct with
  | case1 a b c rest ih =>
    simp only [numericPayload, List.length_append, bits_length, ih, payloadBits, List.length_cons]
    split_ifs <;> omega
  | case2 a b => simp [numericPayload, payloadBits]
  | case3 a => simp [numericPayload, payloadBits]
  | case4 => rfl

theorem alnumPayload_length (msg : List Byte) : (alnumPayload msg).length = payloadBits 1 msg.length := by
  induction msg using alnumPayload.induct with
  | case1 a b rest ih =>
    simp only [alnumPayload, List.length_append, bits_length, ih, payloadBits, List.length_cons]
    omega
  | case2 a => simp [alnumPayload, payloadBits]
  | case3 => rfl

theorem bytePayload_length (msg : List Byte) : (bytePayload msg).length = 8 * msg.length := by
  simp [bytePayload, List.length_flatMap, Nat.mul_comm]

theorem payload_length (md : Nat) (msg : List Byte) : (payload md msg).length = payloadBits md msg.length := by
  unfold payload
  split
  · exact numericPayload_length msg
  · exact alnumPayload_length msg
  · rw [bytePayload_length, payloadBits] <;> assumption

/-! ### A payload without its first groups -/

theorem numericPayload_drop {msg : List Byte} {g : Nat} (h : 3 * g ≤ msg.length) :
    (numericPayload msg).drop (10 * g) = numericPayload (msg.drop (3 * g)) := by
  induction g generalizing msg with
  | zero => rfl
  | succ g ih =>
    obtain _ | ⟨a, _ | ⟨b, _ | ⟨c, rest⟩⟩⟩ := msg
    case cons.cons.cons =>
      rw [numericPayload, Nat.mul_succ, Nat.add_comm, ← List.drop_drop, List.drop_left' (bits_length ..)]
      exact ih (by simp only [List.length_cons] at h; omega)
    all_goals simp only [List.length_cons, List.length_nil] at h; omega

theorem alnumPayload_drop {msg : List Byte} {p : Nat} (h : 2 * p ≤ msg.length) :
    (alnumPayload msg).drop (11 * p) = alnumPayload (msg.drop (2 * p)) := by
  induction p generalizing msg with
  | zero => rfl
  | succ p ih =>
    obtain _ | ⟨a, _ | ⟨b, rest⟩⟩ := msg
    case cons.cons =>
      rw [alnumPayload, Nat.mul_succ, Nat.add_comm, ← List.drop_drop, List.drop_left' (bits_length ..)]
      exact ih (by simp only [List.length_cons] at h; omega)
    all_goals simp only [List.length_cons, List.length_nil] at h; omega

/-! ### The groups of a payload (R123-R125) -/

variable {msg : List Byte}

theorem numericPayload_group {g : Nat} (h : g < msg.length / 3) : ((numericPayload msg).drop (10 * g)).take 10 =
    bits (100 * digitValue (msg.getD (3 * g) 0) + 10 * digitValue (msg.getD (3 * g + 1) 0) +
      digitValue (msg.getD (3 * g + 2) 0)) 10 := by
  rw [numericPayload_drop (by omega), drop_eq_getD_cons 0 (by omega), drop_eq_getD_cons 0 (by omega),
    drop_eq_getD_cons 0 (by omega), numericPayload, List.take_left' (bits_length ..)]

theorem numericPayload_lastTwo (h : msg.length % 3 = 2) : (numericPayload msg).drop (10 * (msg.length / 3)) =
    bits (10 * digitValue (msg.getD (msg.length - 2) 0) + digitValue (msg.getD (msg.length - 1) 0)) 7 := by
  rw [numericPayload_drop (by omega), show 3 * (msg.length / 3) = msg.length - 2 by omega, drop_eq_getD_cons 0 (by omega),
    show msg.length - 2 + 1 = msg.length - 1 by omega, drop_eq_getD_cons 0 (by omega), List.drop_of_length_le (by omega),
    numericPayload]

theorem numericPayload_lastOne (h : msg.length % 3 = 1) :
    (numericPayload msg).drop (10 * (msg.length / 3)) = bits (digitValue (msg.getD (msg.length - 1) 0)) 4 := by
  rw [numericPayload_drop (by omega), show 3 * (msg.length / 3) = msg.length - 1 by omega, drop_eq_getD_cons 0 (by omega),
    List.drop_of_length_le (by omega), numericPayload]

theorem alnumPayload_pair {p : Nat} (h : p < msg.length / 2) : ((alnumPayload msg).drop (11 * p)).take 11 =
    bits (45 * alnumIndex (msg.getD (2 * p) 0) + alnumIndex (msg.getD (2 * p + 1) 0)) 11 := by
  rw [alnumPayload_drop (by omega), drop_eq_getD_cons 0 (by omega), drop_eq_getD_cons 0 (by omega), alnumPayload,
    List.take_left' (bits_length ..)]

theorem alnumPayload_lastOne (h : msg.length % 2 = 1) :
    (alnumPayload msg).drop (11 * (msg.length / 2)) = bits (alnumIndex (msg.getD (msg.length - 1) 0)) 6 := by
  rw [alnumPayload_drop (by omega), show 2 * (msg.length / 2) = msg.length - 1 by omega, drop_eq_getD_cons 0 (by omega),
    List.drop_of_length_le (by omega), alnumPayload]

theorem bytePayload_byte {i : Nat} (h : i < msg.length) :
    ((bytePayload msg).drop (8 * i)).take 8 = bits (msg.getD i 0).toNat 8 := by
  rw [bytePayload, take_drop_flatMap (fun _ => bits_length ..) h, List.getD_eq_getElem _ _ h]

/-! ### The segment (R119, R122) -/

/-- R119: the required bit count is the segment's length. -/
theorem segment_length (md w : Nat) (msg : List Byte) : (segment md w msg).length = requiredBits md msg.length w := by
  rw [segment, List.length_append, List.length_append, bits_length, bits_length, payload_length, requiredBits]

theorem segment_take_mode (md w : Nat) (msg : List Byte) : (segment md w msg).take 4 = bits (modeInd md) 4 := by
  rw [segment, List.append_assoc, List.take_left' (bits_length ..)]

theorem segment_count (md w : Nat) (msg : List Byte) : ((segment md w msg).drop 4).take w = bits msg.length w := by
  rw [segment, List.append_assoc, List.drop_left' (bits_length ..), List.take_left' (bits_length ..)]

/-- The payload stands behind the two indicators. -/
theorem segment_drop (md w : Nat) (msg : List Byte) (k : Nat) :
    (segment md w msg).drop (4 + w + k) = (payload md msg).drop k := by
  rw [segment, ← List.drop_drop, List.drop_left' (by simp)]

/-- R120 as one expression over the three modes. -/
theorem payloadBits_eq {md : Nat} (h : md < 3) (n : Nat) : payloadBits md n =
    if md = 0 then 10 * (n / 3) + (if n % 3 = 2 then 7 else if n % 3 = 1 then 4 else 0)
    else if md = 1 then 11 * (n / 2) + 6 * (n % 2) else 8 * n := by
  match md, h with
  | 0, _ | 1, _ | 2, _ => rfl

/-- R55: MODE_IND at its default. -/
theorem modeInd_eq {md : Nat} (h : md < 3) : modeInd md = if md = 0 then 1 else if md = 1 then 2 else 4 := by
  match md, h with
  | 0, _ | 1, _ | 2, _ => rfl

end Sys2Proof.Machine

open Sys2Proof Sys2Proof.Machine

/-- Settles O31: the payload stands behind the indicators, and each of its groups behind the groups before it. -/
theorem segmentLayout : Obligations.SegmentLayout := by
  refine ⟨fun v w => ⟨bits_length v w, fun _ => bits_getElem? v⟩, fun w msg => ?_⟩
  dsimp only
  simp only [segment_drop, payload]
  refine ⟨fun md h => ⟨?_, (segment_length ..).symm, ?_, segment_count ..⟩, fun _ => numericPayload_group,
    numericPayload_lastTwo, numericPayload_lastOne, fun _ => alnumPayload_pair, alnumPayload_lastOne,
    fun _ => bytePayload_byte⟩
  · rw [segment_length, requiredBits, payloadBits_eq h]
  · rw [segment_take_mode, modeInd_eq h]
end

section
/-! PROOFS. Memory stays in canonical form through every act of the outside world and every command (10_state.md R51, R61;
20_memory.md R64, R74). -/

namespace Sys2Proof.Machine

theorem softReset_wf {s : State} (h : Memory.wf s.mem) : Memory.wf s.softReset.mem :=
  abandon_spans_wf s _ h (busySpans_isRam s)

@[simp] theorem writeBytes_length (v : Word) (n : Nat) : (writeBytes v n).length = n := by simp [writeBytes]

/-- R71: an OKAY write to a memory window touches no address that does not exist. -/
theorem hostStore_wf {s : State} {a : Nat} {sz : Size} (v : Word) (h : Memory.wf s.mem) (hok : ¬ accessError a sz.bytes)
    (ha : (windowOf a).isRam = true) : Memory.wf (s.store a (writeBytes v sz.bytes)).mem := by
  refine store_wf h _ _ fun k hk => ?_
  rw [writeBytes_length] at hk
  rw [access_inside hok k hk]
  exact ha

theorem transact_wf {s : State} (x : Access) (h : Memory.wf s.mem) : Memory.wf (s.transact x).mem := by
  rcases transact_cases s x with ⟨d, r, ht⟩ | ⟨v, -, ht⟩ | ⟨ht, -⟩ | ⟨-, ht⟩ | ⟨w, -, -, -, ht⟩ | ⟨r, v, -, hr, -, ht⟩ |
    ⟨a, sz, v, -, -, ha, hok, ht⟩ <;> rw [ht]
  · exact h
  · exact h
  · exact h
  · exact softReset_wf h
  · exact h
  · rw [setReg_rw hr]; exact h
  · exact hostStore_wf v h hok ((windowOf_isRam_iff _).2 (by omega))

theorem act_wf {s : State} (a : HostAct) (h : Memory.wf s.mem) : Memory.wf (s.act a).mem := by
  rcases act_cases s a with ⟨x, -, ht⟩ | ⟨-, ib, d, r, ht, -⟩ | ⟨-, d, p, ht⟩ <;> rw [ht]
  · exact transact_wf x h
  · exact h
  · exact nil_wf

theorem exec_wf {i : Instr} {s t : State} (h : Memory.wf s.mem) (he : exec i s = .next t) : Memory.wf t.mem := by
  rcases exec_cases he with ⟨e, op, k, l, -, rfl, -⟩ | ⟨-, hc, st, -, rfl⟩ | ⟨hc, -, rfl⟩
  · exact h
  · exact effectOf_wf hc h
  · exact effectOf_wf hc h

theorem performWord_wf {w : Word} {s t : State} (h : Memory.wf s.mem) (he : performWord w s = .next t) :
    Memory.wf t.mem := by
  rcases performWord_cases he with ⟨i, -, he⟩ | ⟨e, -, rfl⟩
  · exact exec_wf h he
  · exact h

end Sys2Proof.Machine

open Sys2Proof Sys2Proof.Machine

/-- Settles O57, by the four kinds of step: a host act, no step, a step of LATENCY, the command itself. -/
theorem memoryStaysCanonical : Obligations.MemoryStaysCanonical := by
  intro s t h hs
  rcases step_cases hs with ⟨a, rest, -, -, rfl⟩ | ⟨-, -, rfl⟩ | ⟨w, st, -, -, rfl⟩ | ⟨w, st, -, -, hp⟩
  · exact act_wf a h
  · exact h
  · exact h
  · exact performWord_wf h hp
end

section
/-! PROOFS. The control registers agree with ENG, and every PEN total is the sum of its penalties, through every act of the
outside world and every command (10_state.md R45, R59; 40_control.md R97, R104, R107; 60_exceptions.md R186). -/

namespace Sys2Proof.Machine

/-! ### PEN (R45) -/

/-- R45: every PEN total is the sum of its four penalties, as the second part of `ControlOk` asks. -/
def PenSums (pen : Vector PenRecord 8) : Prop :=
  ∀ m : Fin 8, pen[m].total = pen[m].p1 + pen[m].p2 + pen[m].p3 + pen[m].p4

theorem ControlOk.penSums {s : State} (h : ControlOk s) : PenSums s.pen := h.2

theorem penRecord_total (g : List (List Bool)) :
    (penRecord g).total = (penRecord g).p1 + (penRecord g).p2 + (penRecord g).p3 + (penRecord g).p4 := by
  simp [penRecord, BitVec.ofNat_add]

theorem penFile_sums (sym : List (List Module)) : PenSums (penFile sym) := by
  intro m
  fin_cases m <;> exact penRecord_total _

theorem reset_penSums : PenSums State.reset.pen := by
  intro m
  fin_cases m <;> rfl

/-- R96: MEVAL alone writes PEN. -/
theorem effectOf_pen {i : Instr} (s : State) (hi : i ≠ .meval) : (effectOf s i).pen = s.pen := by
  cases i
  case meval => exact absurd rfl hi
  case encode => simp only [effectOf]; cases s.encodeStage <;> rfl
  case mapplyM m => simp only [effectOf]; rw [mapplyEffect_frame]
  case mapplyBest => simp only [effectOf]; rw [mapplyEffect_frame]
  all_goals rfl

theorem effectOf_penSums {s : State} (i : Instr) (h : PenSums s.pen) : PenSums (effectOf s i).pen := by
  by_cases hi : i = .meval
  · exact hi ▸ penFile_sums s.symbol
  · rw [effectOf_pen s hi]; exact h

/-! ### States that are consistent -/

/-- An idle engine leaves only PEN to agree with itself. -/
theorem controlOk_of_idle {s : State} (he : s.eng = .idle) (hp : PenSums s.pen) : ControlOk s :=
  ⟨fun _ _ h => (nomatch he.symm.trans h), hp⟩

/-- What `ControlOk` speaks of: the other fields may change, and STATUS as long as DONE does not rise and FATAL is kept. -/
theorem ControlOk.congr {s t : State} (h : ControlOk s) (hd : s.status.done = false → t.status.done = false)
    (hf : t.status.fatal = s.status.fatal) (heng : t.eng = s.eng) (hpen : t.pen = s.pen) (hcode : t.errCode = s.errCode)
    (hinfo : t.errInfo = s.errInfo) (hcmd : t.cmd = s.cmd) (hcfg : t.config = s.config)
    (hl : t.encodeLayout = s.encodeLayout) : ControlOk t := by
  refine ⟨fun w st he => ?_, fun m => by rw [hpen]; exact h.2 m⟩
  rw [heng] at he
  rw [hf, hcode, hinfo, hcmd, hcfg, hl]
  exact (h.1 w st he).imp_left hd

theorem ControlOk.answerWrite {s : State} (h : ControlOk s) : ControlOk s.answerWrite :=
  h.congr id rfl rfl rfl rfl rfl rfl rfl rfl

theorem ControlOk.clearStatus {s : State} (h : ControlOk s) (v : Word) : ControlOk (s.clearStatus v) :=
  h.congr (fun hd => by simp [Status.writeOneToClear, hd]) rfl rfl rfl rfl rfl rfl rfl rfl

/-! ### Acceptance (R97) -/

theorem firstStage_isSome_iff (w : Word) : (firstStage w).isSome = true ↔ decode w = .ok .encode := by
  unfold firstStage
  split <;> simp_all

theorem eq_cfg_of_firstStage {w : Word} {x : Stage} (h : firstStage w = some x) : x = .cfg := by
  unfold firstStage at h
  split at h
  · exact (Option.some.inj h).symm
  · cases h

theorem accept_controlOk {s : State} (w : Word) (hf : s.status.fatal = false) (hp : PenSums s.pen) :
    ControlOk (s.accept w) := by
  refine ⟨fun w' st he => ?_, hp⟩
  obtain ⟨rfl, rfl⟩ : w = w' ∧ firstStage w = st := by simpa using he
  exact ⟨rfl, hf, rfl, rfl, rfl, firstStage_isSome_iff w, fun x hx hne => absurd (eq_cfg_of_firstStage hx) hne⟩

/-! ### Acts of the outside world -/

theorem transact_controlOk {s : State} (x : Access) (h : ControlOk s) : ControlOk (s.transact x) := by
  rcases transact_cases s x with ⟨d, r, ht⟩ | ⟨v, -, ht⟩ | ⟨ht, -⟩ | ⟨-, ht⟩ | ⟨w, -, -, hf, ht⟩ | ⟨r, v, hb, hr, -, ht⟩ |
    ⟨a, sz, v, -, -, -, -, ht⟩ <;> rw [ht]
  · exact h.congr id rfl rfl rfl rfl rfl rfl rfl rfl
  · exact (h.clearStatus v).answerWrite
  · exact (h.congr (t := s.refuse) id rfl rfl rfl rfl rfl rfl rfl rfl).answerWrite
  · exact (controlOk_of_idle rfl reset_penSums).answerWrite
  · exact (accept_controlOk w hf h.penSums).answerWrite
  · rw [setReg_rw hr]
    exact controlOk_of_idle ((not_busy_iff s).1 hb) h.penSums
  · exact h.congr id rfl rfl rfl rfl rfl rfl rfl rfl

theorem act_controlOk {s : State} (a : HostAct) (h : ControlOk s) : ControlOk (s.act a) := by
  rcases act_cases s a with ⟨x, -, ht⟩ | ⟨-, ib, d, r, ht, -⟩ | ⟨-, d, p, ht⟩ <;> rw [ht]
  · exact transact_controlOk x h
  · exact h.congr id rfl rfl rfl rfl rfl rfl rfl rfl
  · exact controlOk_of_idle rfl reset_penSums

/-! ### Commands -/

theorem encodeStage_of_running {s : State} {w : Word} {st : Stage} (h : s.eng = .running w (some st)) :
    s.encodeStage = st := by
  unfold State.encodeStage
  rw [h]

/-- R59: in a consistent state ENG names a stage exactly for ENCODE's word. -/
theorem ControlOk.stage_iff {s : State} {w : Word} {st : Option Stage} (h : ControlOk s) (he : s.eng = .running w st) :
    st.isSome = true ↔ decode w = .ok .encode := by
  obtain ⟨-, -, -, -, -, hst, -⟩ := h.1 w st he
  exact hst

/-- R84: ENCODE has one word. -/
theorem eq_encode_of_decode {w : Word} (h : decode w = .ok .encode) : w = encode .encode := by
  obtain ⟨hop, hrs, harg, -⟩ := (decode_ok_iff w .encode).1 h
  obtain ⟨hop', harg', hrs'⟩ := Sys2Proof.Laws.WordFields.encode
  exact word_ext (hop.trans hop'.symm) (harg.trans harg'.symm) (hrs.trans hrs'.symm)

/-- R104, R107: a stage of ENCODE that passes its check leaves the ROM layout of a legal CONFIG to the next. -/
theorem encode_effect_layout {s : State} {w : Word} {st : Stage} (he : s.eng = .running w (some st))
    (hl : st ≠ .cfg → s.config.legal = true ∧ s.encodeLayout = romLayout s.config) (hc : checkOf s .encode = none) :
    s.config.legal = true ∧ (effectOf s .encode).layout = romLayout s.config := by
  simp only [checkOf, effectOf, encodeStage_of_running he] at hc ⊢
  by_cases hst : st = .cfg
  · subst hst
    exact ⟨(cfgCheck_none_iff s.stageView).1 hc, rfl⟩
  · obtain ⟨hlegal, hrom⟩ := hl hst
    refine ⟨hlegal, ?_⟩
    rw [← hrom, ← stageLayout_of_running s he hst]
    cases st <;> first | rfl | exact absurd rfl hst

/-- R107: ENG at the next stage of ENCODE. -/
theorem enterStage_controlOk {s : State} {w : Word} {st : Option Stage} (st' : Stage) (h : ControlOk s)
    (he : s.eng = .running w st) (hd : decode w = .ok .encode) (hc : checkOf s .encode = none) :
    ControlOk ((effectOf s .encode).enterStage st' s.layout) := by
  obtain ⟨x, rfl⟩ := Option.isSome_iff_exists.1 ((h.stage_iff he).2 hd)
  obtain ⟨hdone, hfatal, hcode, hinfo, hcmd, -, hrom⟩ := h.1 w _ he
  obtain ⟨hlegal, hlayout⟩ := encode_effect_layout he (hrom x rfl) hc
  refine ⟨fun w' st he' => ?_, effectOf_penSums .encode h.penSums⟩
  obtain ⟨rfl, rfl⟩ : encode .encode = w' ∧ some st' = st := by simpa using he'
  rw [enterStage_status, enterStage_errCode, enterStage_errInfo, enterStage_cmd, enterStage_config,
    enterStage_encodeLayout, hlayout, effectOf_frame]
  have hw := eq_encode_of_decode hd
  exact ⟨hdone, hfatal, hcode, hinfo, hcmd.trans hw, iff_of_true rfl (hw ▸ hd), fun _ _ _ => ⟨hlegal, rfl⟩⟩

theorem performWord_controlOk {s t : State} {w : Word} {st : Option Stage} (h : ControlOk s)
    (he : s.eng = .running w st) (hp : performWord w s = .next t) : ControlOk t := by
  rcases performWord_cases hp with ⟨i, hd, hx⟩ | ⟨e, -, rfl⟩
  · rcases exec_cases hx with ⟨e, op, k, l, -, rfl, -⟩ | ⟨rfl, hc, st', -, rfl⟩ | ⟨hc, -, rfl⟩
    · exact controlOk_of_idle rfl h.penSums
    · exact enterStage_controlOk st' h he hd hc
    · exact controlOk_of_idle rfl (effectOf_penSums i h.penSums)
  · exact controlOk_of_idle rfl h.penSums

end Sys2Proof.Machine

open Sys2Proof Sys2Proof.Machine

/-- Settles O58, by the four kinds of step; what a completed command leaves is idle, so only the entry of a stage of ENCODE
has more than PEN to show. -/
theorem controlStaysConsistent : Obligations.ControlStaysConsistent := by
  intro s t h hs
  rcases step_cases hs with ⟨a, rest, -, -, rfl⟩ | ⟨-, -, rfl⟩ | ⟨w, st, -, -, rfl⟩ | ⟨w, st, he, -, hp⟩
  · exact act_controlOk a (h.congr id rfl rfl rfl rfl rfl rfl rfl rfl)
  · exact h
  · exact h.congr id rfl rfl rfl rfl rfl rfl rfl rfl
  · exact performWord_controlOk h he hp
end

section
/-! PROOFS. Every standing VALID bit stays true through every act of the outside world and every command (10_state.md R28;
40_control.md R98, R99, R107). -/

namespace Sys2Proof.Machine

/-! ### What a state stands for -/

theorem standing_none {s : State} {w : Word} (h : s.eng = .running w none) : s.standing = s.valid := by
  unfold State.standing
  rw [h]

theorem standing_stage {s : State} {w : Word} {st : Stage} (h : s.eng = .running w (some st)) :
    s.standing = (s.valid.minus (clearSet .encode)).plus st.earlierSet := by
  unfold State.standing
  rw [h]

/-- Outside ENCODE the standing bits are VALID, and they speak of the state itself. -/
theorem ValidOk.of_no_stage {s : State} {w : Word} (h : ValidOk s) (he : s.eng = .running w none) :
    ValidMeans s.valid s := by
  have hview : s.stageView = s := stageView_of_cfg s (by unfold State.encodeStage; rw [he])
  unfold ValidOk at h
  rwa [standing_none he, hview] at h

/-- R98: a completed command stands for the bits of VALID. -/
theorem succeeded_validOk {v : Valid} {s : State} (h : ValidMeans v s) : ValidOk (s.succeeded v) :=
  show ValidMeans v (s.succeeded v) from h.congr rfl rfl rfl rfl rfl rfl rfl rfl rfl rfl rfl rfl rfl

/-! ### Acts of the outside world -/

theorem act_validOk {s : State} (a : HostAct) (h : ValidOk s) : ValidOk (s.act a) := by
  rcases act_cases s a with ⟨x, -, ht⟩ | ⟨-, ib, d, r, ht, -⟩ | ⟨-, d, p, ht⟩ <;> rw [ht]
  · exact transact_valid x h
  · exact ValidMeans.congr h rfl rfl rfl rfl rfl rfl rfl rfl rfl rfl rfl rfl rfl
  · exact valid_empty _

/-! ### Commands -/

/-- R99, R185: a command of one stage. -/
theorem exec_validOk {i : Instr} {s t : State} (hi : i ≠ .encode) (h : ValidMeans s.valid s) (hx : exec i s = .next t) :
    ValidOk t := by
  rw [exec_eq_perform s hi] at hx
  obtain rfl : s.perform i.opcode (checkOf s i) (effectOf s i) = t := by injection hx
  cases hc : checkOf s i with
  | some e => rw [perform_some]; exact failed_valid (minus_valid _ h) ..
  | none => rw [perform_none, effectOf_valid]; exact succeeded_validOk (effect_valid hi h hc)

/-- R99, R107: a stage of ENCODE that succeeds makes the bits true that an error of the next stage would leave. -/
theorem stage_valid_next {s : State} {st st' : Stage} {v : Valid} (hn : st.next = some st')
    (hv : ValidMeans ((v.minus (clearSet .encode)).plus st.earlierSet) s) (hc : stageCheck s st = none) :
    ValidMeans ((v.minus (clearSet .encode)).plus st'.earlierSet) (stageEffect s st) := by
  have := stage_valid hv hc
  cases st <;> cases hn <;> exact this

theorem next_ne_cfg {st st' : Stage} (h : st.next = some st') : st' ≠ .cfg := by
  rintro rfl
  cases st <;> cases h

theorem eq_ileave_of_next {st : Stage} (h : st.next = none) : st = .ileave := by
  cases st <;> first | rfl | cases h

/-- R107: at the next stage of ENCODE, the standing bits speak of the state the stage before it has left. -/
theorem enterStage_validOk {s : State} {st : Stage} (regs : Layout) (hst : st ≠ .cfg)
    (h : ValidMeans ((s.valid.minus (clearSet .encode)).plus st.earlierSet) s) : ValidOk (s.enterStage st regs) := by
  have hl : (s.enterStage st regs).stageLayout = s.layout := stageLayout_of_running _ rfl hst
  unfold ValidOk
  rw [standing_stage rfl]
  exact h.congr rfl hl rfl rfl rfl rfl rfl rfl rfl rfl rfl rfl rfl

theorem stageEffect_valid (s : State) (st : Stage) : (stageEffect s st).valid = s.valid := by cases st <;> rfl

/-- R99, R107: a stage of ENCODE: an error, the next stage, or the end. -/
theorem exec_encode_validOk {s t : State} {w : Word} {st : Stage} (h : ValidOk s) (he : s.eng = .running w (some st))
    (hx : exec .encode s = .next t) : ValidOk t := by
  unfold ValidOk at h
  rw [standing_stage he] at h
  rw [exec_encode, encodeStage_of_running he] at hx
  injection hx with hx
  subst hx
  cases hc : stageCheck s.stageView st with
  | some e => rw [performStage_some]; exact failed_valid h ..
  | none =>
    cases hn : st.next with
    | some st' =>
      simp only [State.performStage, hn]
      refine enterStage_validOk _ (next_ne_cfg hn) ?_
      rw [stageEffect_valid]
      exact stage_valid_next hn h hc
    | none =>
      simp only [State.performStage, hn, complete_eq_succeeded]
      rw [stageEffect_valid]
      obtain rfl := eq_ileave_of_next hn
      exact succeeded_validOk (stage_valid h hc)

theorem performWord_validOk {s t : State} {w : Word} {st : Option Stage} (hctl : ControlOk s) (h : ValidOk s)
    (he : s.eng = .running w st) (hp : performWord w s = .next t) : ValidOk t := by
  have hst := hctl.stage_iff he
  cases st with
  | some x =>
    have hd := hst.1 rfl
    unfold performWord at hp
    rw [hd] at hp
    exact exec_encode_validOk h he hp
  | none =>
    have hs := h.of_no_stage he
    rcases performWord_cases hp with ⟨i, hd, hx⟩ | ⟨e, -, rfl⟩
    · refine exec_validOk ?_ hs hx
      rintro rfl
      exact nomatch hst.2 hd
    · rw [performIllegal_eq]
      exact failed_valid hs ..

end Sys2Proof.Machine

open Sys2Proof Sys2Proof.Machine

/-- Settles O59, by the four kinds of step; a command of one stage and a stage of ENCODE each make the bits true that they
set. -/
theorem validBitsStayTrue : Obligations.ValidBitsStayTrue := by
  intro s t hctl h hs
  rcases step_cases hs with ⟨a, rest, -, -, rfl⟩ | ⟨-, -, rfl⟩ | ⟨w, st, -, -, rfl⟩ | ⟨w, st, he, -, hp⟩
  · exact act_validOk a (ValidMeans.congr h rfl rfl rfl rfl rfl rfl rfl rfl rfl rfl rfl rfl rfl)
  · exact h
  · exact ValidMeans.congr h rfl rfl rfl rfl rfl rfl rfl rfl rfl rfl rfl rfl rfl
  · exact performWord_validOk hctl h he hp

/-- Settles O2: no byte is listed, the engine is idle, no VALID bit stands. -/
theorem resetMeetsInvariants : Obligations.ResetMeetsInvariants :=
  ⟨nil_wf, controlOk_of_idle rfl reset_penSums, valid_empty _⟩
end

section
/-! PROOFS. Writes to CTRL and to CMD (10_state.md R22, R25; 40_control.md R97; 70_reset_and_hazards.md R203, R204). -/

namespace Sys2Proof.Machine

/-! ### Soft reset (R203, R204) -/

/-- R22: a write to CTRL, busy or idle. -/
theorem transact_write_ctrl (s : State) (v : Word) :
    s.transact (.write 4 .four v) = (if v.getLsbD 0 then s.softReset else s).answerWrite := by
  refine (transact_write_four s .ctrl v).trans ?_
  cases s.busy <;> simp [State.writeRegBusy, State.writeReg, State.setReg, Reg.hostClears]

/-- R203: a soft reset keeps the memory that the abandoned command leaves. -/
theorem softReset_byteAt (s : State) (a : Nat) : s.softReset.byteAt a = s.abandon.byteAt a := byteAt_congr rfl rfl a

theorem softReset_byteAt_outside {s : State} {a : Nat} (h : s.busyByte a = false) :
    s.softReset.byteAt a = s.byteAt a := by
  obtain ⟨-, hout, -⟩ := abandon_spans_byteAt s s.busySpans a
  exact (softReset_byteAt s a).trans (hout h)

theorem softReset_byteAt_inside {s : State} {a : Nat} (h : s.busyByte a = true) :
    ∃ n, s.draws ≤ n ∧ n < s.softReset.draws ∧ s.softReset.byteAt a = keepBits a (Config.freeByte n) := by
  obtain ⟨-, -, hin⟩ := abandon_spans_byteAt s s.busySpans a
  obtain ⟨n, hlo, hhi, hb⟩ := hin h
  exact ⟨n, hlo, hhi, (softReset_byteAt s a).trans hb⟩

/-! ### Acceptance (R97) -/

/-- R84, R97: ENCODE's word is 5, and only it starts in a stage. -/
theorem firstStage_eq (w : Word) : firstStage w = if w = 5 then some .cfg else none := by
  split
  · next h => subst h; rfl
  · next h =>
    unfold firstStage
    split
    · next hd => exact absurd (eq_encode_of_decode hd) h
    · rfl

/-- R97, R186: a write to CMD while the engine is idle. -/
theorem transact_write_cmd {s : State} (w : Word) (hb : s.busy = false) :
    s.transact (.write 0x10 .four w) = (if s.status.fatal then s.refuse else s.accept w).answerWrite := by
  refine (transact_write_four s .cmd w).trans ?_
  rw [hb]
  simp [State.writeReg, State.setReg, Reg.hostClears]

/-- R23: bit 0 of STATUS is BUSY. -/
theorem statusWord_getLsbD_zero (s : State) : s.statusWord.getLsbD 0 = s.busy := by
  cases h : s.busy <;> simp [State.statusWord, wordOfBits, h]

end Sys2Proof.Machine

open Sys2Proof Sys2Proof.Machine

/-- Settles O4: a soft reset abandons the running command, and the answer to the write changes no byte. -/
theorem ctrlWriteSoftResets : Obligations.CtrlWriteSoftResets := by
  intro s v
  rw [transact_write_ctrl]
  refine ⟨fun hv => ?_, fun hv => ?_, answerWrite_answersOkay _, rfl⟩
  · rw [if_pos hv]
    refine ⟨?_, fun a ha => ?_, fun a ha => ?_⟩
    · rw [softReset_eq]
      rfl
    · exact (answerWrite_byteAt _ a).trans (softReset_byteAt_outside ha)
    · obtain ⟨n, hlo, hhi, hb⟩ := softReset_byteAt_inside ha
      exact ⟨n, hlo, Nat.lt_succ_of_lt hhi, (answerWrite_byteAt _ a).trans hb⟩
  · rw [if_neg (ne_true_of_eq_false hv)]
    exact answerWrite_answeredAs s

/-- Settles O20: with the engine idle, FATAL alone decides between acceptance and refusal. -/
theorem commandAcceptance : Obligations.CommandAcceptance := by
  intro s w hb
  rw [transact_write_cmd w hb]
  refine ⟨fun hf => ?_, fun hf => ?_, answerWrite_answersOkay _⟩
  · rw [if_neg (by simp [hf]), ← firstStage_eq]
    exact ⟨rfl, statusWord_getLsbD_zero _, rfl⟩
  · rw [if_pos hf]
    exact ⟨rfl, rfl⟩
end

section
/-! PROOFS. The registers as words: fields at their bit positions (10_state.md R21-R45). -/

namespace Sys2Proof

/-- Two bit strings behind each other, as numbers. -/
theorem toNat_append_eq_add {m n : Nat} (x : BitVec m) (y : BitVec n) :
    (x ++ y).toNat = 2 ^ n * x.toNat + y.toNat := by
  rw [BitVec.toNat_append, ← Nat.shiftLeft_add_eq_or_of_lt y.isLt, Nat.shiftLeft_eq, Nat.mul_comm]

end Sys2Proof

namespace Sys2Proof.Machine

/-- The number whose bits are the list, the first one bit 0. -/
def natOfBits : List Bool → Nat
  | [] => 0
  | b :: rest => 2 * natOfBits rest + b.toNat

theorem natOfBits_lt (l : List Bool) : natOfBits l < 2 ^ l.length := by
  induction l with
  | nil => simp [natOfBits]
  | cons b rest ih =>
    have := b.toNat_lt
    rw [natOfBits, List.length_cons, Nat.pow_succ]
    omega

/-- A word of at most 32 bits given by its bits. -/
theorem wordOfBits_toNat {l : List Bool} (h : l.length ≤ 32) : (wordOfBits l).toNat = natOfBits l := by
  induction l with
  | nil => rfl
  | cons b rest ih =>
    rw [List.length_cons] at h
    have hlt : natOfBits rest < 2 ^ 31 :=
      (natOfBits_lt rest).trans_le (Nat.pow_le_pow_right (by decide) (by omega))
    have hb : (if b then 1 else 0 : Word).toNat = b.toNat := by cases b <;> rfl
    rw [wordOfBits, BitVec.toNat_or, BitVec.toNat_shiftLeft, ih (by omega), hb, Nat.mod_eq_of_lt (by omega),
      ← Nat.shiftLeft_add_eq_or_of_lt (by simpa using b.toNat_lt), natOfBits]
    omega

/-- R37: ECW_TOTAL is the product, uncut. -/
theorem ecwTotal_toNat (l : Layout) : l.ecwTotal.toNat = (l.g1.count.toNat + l.g2.count.toNat) * l.ecwBlk.toNat := by
  have hc : l.g1.count.toNat + l.g2.count.toNat ≤ 510 := by
    have := l.g1.count.isLt
    have := l.g2.count.isLt
    omega
  have hle : l.eccTotal ≤ 510 * 255 := Nat.mul_le_mul hc (Nat.le_of_lt_succ l.ecwBlk.isLt)
  exact Nat.mod_eq_of_lt (by omega)

/-- R45: word k of PEN record m. -/
theorem penWord_record (s : State) (m : Fin 8) {k : Nat} (hk : k < 8) :
    s.penWord (0x20 * m.val + 4 * k) = s.pen[m].word k := by
  rw [State.penWord, show (0x20 * m.val + 4 * k) / 32 = m.val by omega,
    show (0x20 * m.val + 4 * k) % 32 / 4 = k by omega, List.getD_eq_getElem _ _ (by simp), Vector.getElem_toList]
  rfl

/-- Fields of at most 32 bits with a width of their own read as their number (R30-R36, R38-R44). -/
theorem setWidth_toNat {n : Nat} (x : BitVec n) (h : n ≤ 32 := by decide) : (x.setWidth 32 : Word).toNat = x.toNat :=
  BitVec.toNat_setWidth_of_le h

theorem statusWord_toNat (s : State) : s.statusWord.toNat = s.busy.toNat + 2 * s.status.done.toNat +
    4 * s.status.err.toNat + 8 * s.status.ovf.toNat + 16 * s.status.rej.toNat + 32 * s.status.fatal.toNat := by
  rw [State.statusWord, wordOfBits_toNat (by simp)]
  simp only [natOfBits]
  omega

theorem ieWord_toNat (ie : IrqEnable) : ie.word.toNat = 2 * ie.doneIe.toNat + 4 * ie.errIe.toNat := by
  rw [IrqEnable.word, wordOfBits_toNat (by simp)]
  simp only [natOfBits, Bool.toNat_false]
  omega

theorem validWord_toNat (v : Valid) : v.word.toNat = v.cfg.toNat + 2 * v.data.toNat + 4 * v.ecc.toNat +
    8 * v.seq.toNat + 16 * v.mask.toNat + 32 * v.fmt.toNat + 64 * v.gf.toNat := by
  rw [Valid.word, wordOfBits_toNat (by simp)]
  simp only [natOfBits]
  omega

theorem configWord_toNat (c : ConfigReg) :
    c.word.toNat = c.version.toNat + 2 ^ 8 * c.mode.toNat + 2 ^ 12 * c.ecLevel.toNat := by
  rw [ConfigReg.word]
  simp only [toNat_append_eq_add, BitVec.ofNat_eq_ofNat, BitVec.toNat_zero]
  omega

theorem blkGroupWord_toNat (g : BlkGroup) : g.word.toNat = g.count.toNat + 2 ^ 8 * g.dcw.toNat := by
  rw [BlkGroup.word]
  simp only [toNat_append_eq_add, BitVec.ofNat_eq_ofNat, BitVec.toNat_zero]
  omega

end Sys2Proof.Machine

open Sys2Proof Sys2Proof.Machine

/-- Settles O16: a word put together from its fields is the sum of their numbers at their places. -/
theorem registerMapAndFields : Obligations.RegisterMapAndFields := by
  refine ⟨by decide, fun s => ⟨rfl, rfl, rfl, ?_⟩⟩
  refine ⟨setWidth_toNat _, setWidth_toNat _, setWidth_toNat _, setWidth_toNat _, setWidth_toNat _, setWidth_toNat _,
    setWidth_toNat _, setWidth_toNat _, setWidth_toNat _, setWidth_toNat _, setWidth_toNat _, setWidth_toNat _,
    ecwTotal_toNat _, statusWord_toNat s, ieWord_toNat _, ?_, ?_, validWord_toNat _, configWord_toNat _,
    blkGroupWord_toNat _, blkGroupWord_toNat _, ?_, fun m => ?_⟩
  · simp only [State.readReg, toNat_append_eq_add, BitVec.ofNat_eq_ofNat, BitVec.toNat_zero]
    omega
  · simp only [State.readReg, toNat_append_eq_add]
    omega
  · simp only [State.readReg, toNat_append_eq_add, BitVec.ofNat_eq_ofNat, BitVec.toNat_zero]
    omega
  · have hw := fun k => penWord_record s m (k := k)
    exact ⟨hw 0 (by decide), hw 1 (by decide), hw 2 (by decide), hw 3 (by decide), hw 4 (by decide), hw 5 (by decide),
      hw 6 (by decide), hw 7 (by decide)⟩
end

section
/-! PROOFS. Reads: the register, the PEN word or the bytes at the address, or the free values of a running write set
(20_memory.md R66, R68, R75, R76; 70_reset_and_hazards.md R208). -/

namespace Sys2Proof.Machine

/-! ### Little-endian words (R68) -/

theorem littleEndian_lt {l : List Byte} (h : l.length ≤ 4) : (littleEndian l).toNat < 2 ^ (8 * l.length) := by
  induction l with
  | nil => simp [littleEndian]
  | cons b rest ih =>
    rw [List.length_cons] at h ⊢
    have hrest := ih (by omega)
    have hpow : 2 ^ (8 * (rest.length + 1)) = 2 ^ (8 * rest.length) * 256 := by rw [Nat.mul_succ, Nat.pow_add]
    have hpos : 0 < 2 ^ (8 * rest.length) := Nat.two_pow_pos _
    have hb := b.isLt
    rw [littleEndian, BitVec.toNat_or, BitVec.toNat_shiftLeft, setWidth_toNat]
    refine Nat.or_lt_two_pow ((Nat.mod_le _ _).trans_lt ?_) ?_ <;> omega

/-- R68: the first byte is the lowest. -/
theorem littleEndian_cons_toNat (b : Byte) {rest : List Byte} (h : rest.length < 4) :
    (littleEndian (b :: rest)).toNat = 256 * (littleEndian rest).toNat + b.toNat := by
  have hlt : (littleEndian rest).toNat < 2 ^ 24 :=
    (littleEndian_lt h.le).trans_le (Nat.pow_le_pow_right (by decide) (by omega))
  rw [littleEndian, BitVec.toNat_or, BitVec.toNat_shiftLeft, setWidth_toNat, Nat.mod_eq_of_lt (by omega),
    ← Nat.shiftLeft_add_eq_or_of_lt b.isLt]
  omega

/-- R68: byte k of a little-endian word. -/
theorem littleEndian_byte {l : List Byte} {k : Nat} (hl : l.length ≤ 4) (hk : k < l.length) :
    (littleEndian l).extractLsb' (8 * k) 8 = l.getD k 0 := by
  apply BitVec.eq_of_toNat_eq
  rw [BitVec.extractLsb'_toNat, Nat.shiftRight_eq_div_pow]
  induction l generalizing k with
  | nil => exact absurd hk (Nat.not_lt_zero k)
  | cons b rest ih =>
    rw [List.length_cons] at hl hk
    have hb := b.isLt
    rw [littleEndian_cons_toNat b (by omega)]
    cases k with
    | zero => simp; omega
    | succ k =>
      have hpow : 2 ^ (8 * (k + 1)) = 256 * 2 ^ (8 * k) := by rw [Nat.mul_succ, Nat.add_comm, Nat.pow_add]
      rw [List.getD_cons_succ, ← ih (by omega) (by omega), hpow, ← Nat.div_div_eq_div_mul,
        Nat.mul_add_div (by decide), Nat.div_eq_of_lt hb, Nat.add_zero]

/-! ### What a read returns, window by window (R66, R208) -/

variable {s : State} {a n : Nat}

theorem readData_regs (h : a < 0x64) :
    s.readData a n = if s.busyReg (regAt a) then Config.freeWord s.draws else s.readReg (regAt a) := by
  unfold State.readData
  rw [(windowOf_regs_iff a).2 h]

theorem readData_pen (h : 0x100 ≤ a ∧ a < 0x200) : s.readData a n =
    if s.busyPen = true ∧ a % 32 < 20 then Config.freeWord s.draws else s.penWord (a - 0x100) := by
  unfold State.readData
  rw [(windowOf_pen_iff a).2 h]
  refine if_congr ?_ rfl rfl
  rw [Bool.and_eq_true, decide_eq_true_eq, show penBase = 0x100 from rfl]
  exact and_congr_right fun _ => by omega

theorem readData_bytes (h : 0x200 ≤ a) : s.readData a n = littleEndian ((List.range n).map fun k =>
    if s.busyByte (a + k) then Config.freeByte (s.draws + k) else s.windowByte (a + k)) := by
  unfold State.readData
  have hr := windowOf_regs_iff a
  have hp := windowOf_pen_iff a
  cases hw : windowOf a
  case regs => exact absurd (hr.1 hw) (by omega)
  case pen => exact absurd (hp.1 hw) (by omega)
  all_goals rfl

/-- R64: the bytes above the ROMs are those of the memories. -/
theorem windowByte_memory (h : 0x400 ≤ a) : s.windowByte a = s.byteAt a := by
  unfold State.windowByte
  have he := windowOf_exp_iff a
  have hl := windowOf_log_iff a
  cases hw : windowOf a
  case exp => exact absurd (he.1 hw) (by omega)
  case log => exact absurd (hl.1 hw) (by omega)
  all_goals rfl

theorem windowByte_exp (h : 0x200 ≤ a ∧ a < 0x300) : s.windowByte a = expRom (a - 0x200) := by
  unfold State.windowByte
  rw [(windowOf_exp_iff a).2 h]
  rfl

theorem windowByte_log (h : 0x300 ≤ a ∧ a < 0x400) : s.windowByte a = logRom (a - 0x300) := by
  unfold State.windowByte
  rw [(windowOf_log_iff a).2 h]
  rfl

/-- R64, R71: byte k of an OKAY access to a byte window. -/
theorem windowByte_access {sz : Size} {k : Nat} (hok : ¬ accessError a sz.bytes) (ha : 0x200 ≤ a) (hk : k < sz.bytes) :
    s.windowByte (a + k) =
      if a < 0x300 then expRom (a - 0x200 + k) else if a < 0x400 then logRom (a - 0x300 + k) else s.byteAt (a + k) := by
  have hin := access_inside hok k hk
  split
  · next he =>
    rw [(windowOf_exp_iff a).2 ⟨ha, he⟩, windowOf_exp_iff] at hin
    rw [windowByte_exp hin, Nat.sub_add_comm ha]
  · split
    · next he hl =>
      have hlo : 0x300 ≤ a := by omega
      rw [(windowOf_log_iff a).2 ⟨hlo, hl⟩, windowOf_log_iff] at hin
      rw [windowByte_log hin, Nat.sub_add_comm hlo]
    · exact windowByte_memory (by omega)

/-- R45: words 5 to 7 of a PEN record are reserved. -/
theorem penRecord_word_reserved (p : PenRecord) {k : Nat} (h : 5 ≤ k) : p.word k = 0 := by
  obtain ⟨k, rfl⟩ := Nat.exists_eq_add_of_le' h
  rfl

/-! ### Write sets (R96) -/

/-- R96: a register that no command writes is in no running write set. -/
theorem busyReg_of_not_written {r : Reg} (h : ∀ i, writesReg i r = false) : s.busyReg r = false := by
  unfold State.busyReg
  cases s.running with
  | none => rfl
  | some i => exact h i

theorem busyReg_status : s.busyReg .status = false := busyReg_of_not_written fun i => by cases i <;> rfl

theorem busyReg_ecwTotal : s.busyReg .ecwTotal = false := busyReg_of_not_written fun i => by cases i <;> rfl

/-- R76: an idle engine has an empty write set. -/
theorem running_of_not_busy (h : s.busy = false) : s.running = none := by
  unfold State.running
  rw [(not_busy_iff s).1 h]

/-! ### The read -/

theorem transact_read_answeredAs (s : State) (a : BitVec 16) (sz : Size) :
    s.transact (.read a sz) = s.answeredAs (s.transact (.read a sz)) := by
  simp only [State.transact, State.busRead]
  split <;> rfl

theorem transact_read_okay {a : BitVec 16} {sz : Size} (h : ¬ accessError a.toNat sz.bytes) : s.transact (.read a sz) =
    { s.respond .okay (s.readData a.toNat sz.bytes) with draws := s.draws + sz.bytes } :=
  if_pos ((accessOk_iff _ _).2 h)

end Sys2Proof.Machine

open Sys2Proof Sys2Proof.Machine

/-- Settles O13: an OKAY read answers `State.readData`, window by window. -/
theorem readsReturnTheLocation : Obligations.ReadsReturnTheLocation := by
  intro s a sz
  have hsz : sz.bytes ≤ 4 := by rcases sz.bytes_cases with h | h | h <;> omega
  refine ⟨transact_read_answeredAs s a sz, fun hok => ?_, fun hb => ?_⟩
  · rw [transact_read_okay hok]
    generalize a.toNat = a at hok ⊢
    refine ⟨rfl, _, rfl, fun ha => ?_, fun ha ha' => ?_, fun k ha hk => ?_, fun ha => ?_, ?_⟩
    · rw [readData_regs ha]
      refine ⟨fun hr => if_pos hr, fun hr => by rw [hr]; rfl, ?_⟩
      rintro rfl
      rw [show regAt 0x40 = .ecwTotal from rfl, busyReg_ecwTotal]
      exact ecwTotal_toNat s.layout
    · rw [readData_pen ⟨ha, ha'⟩]
      refine ⟨fun hp hlo => if_pos ⟨hp, hlo⟩, fun hp => if_neg (by simp [hp]), fun hhi => ?_⟩
      rw [if_neg (by omega), State.penWord, penRecord_word_reserved _ (by omega)]
    · rw [readData_bytes ha, littleEndian_byte (by simpa) (by simpa), ← windowByte_access hok ha hk]
      simp [hk]
    · rw [readData_bytes ha]
      refine (littleEndian_lt (by simpa)).trans_eq ?_
      simp
    · rintro rfl hb
      rw [readData_regs (by decide), show regAt 8 = .status from rfl, busyReg_status]
      exact (statusWord_getLsbD_zero s).trans hb
  · simp [State.busyReg, State.busyPen, State.busyByte, State.busySpans, running_of_not_busy hb]
end

section
/-! PROOFS. Host writes to the RW registers of an idle engine (10_state.md R20, R24, R28-R36, R44). -/

namespace Sys2Proof.Machine

/-! ### What a write keeps of its data (R20) -/

/-- The low bits of a word. -/
theorem and_lowMask_toNat (v : Word) {n : Nat} (h : n ≤ 32 := by decide) :
    (v &&& BitVec.ofNat 32 (2 ^ n - 1)).toNat = v.toNat % 2 ^ n := by
  have hlt : 2 ^ n - 1 < 2 ^ 32 :=
    (Nat.sub_lt (Nat.two_pow_pos n) (by decide)).trans_le (Nat.pow_le_pow_right (by decide) h)
  rw [BitVec.toNat_and, BitVec.toNat_ofNat, Nat.mod_eq_of_lt hlt, Nat.and_two_pow_sub_one_eq_mod]

/-- A register of one field at bit 0. -/
theorem lowField_readBack (v : Word) (n : Nat) (h : n ≤ 32 := by decide) :
    ((v.extractLsb' 0 n).setWidth 32 : Word) = v &&& BitVec.ofNat 32 (2 ^ n - 1) := by
  apply BitVec.eq_of_toNat_eq
  rw [and_lowMask_toNat v h, setWidth_toNat _ h, BitVec.extractLsb'_toNat, Nat.shiftRight_zero]

theorem blkGroup_readBack (v : Word) : (BlkGroup.ofWord v).word = v &&& 0xFFFF := by
  apply BitVec.eq_of_toNat_eq
  rw [blkGroupWord_toNat]
  refine Eq.trans ?_ (and_lowMask_toNat v (n := 16)).symm
  simp only [BlkGroup.ofWord, BitVec.extractLsb'_toNat, Nat.shiftRight_eq_div_pow]
  omega

theorem configReg_readBack (v : Word) : (ConfigReg.ofWord v).word = v &&& 0x733F := by
  apply BitVec.eq_of_getLsbD_eq
  intro i hi
  simp only [ConfigReg.word, ConfigReg.ofWord, BitVec.getLsbD_append, BitVec.getLsbD_extractLsb', BitVec.getLsbD_and]
  interval_cases i <;> simp

theorem wordOfBits_getLsbD (l : List Bool) {i : Nat} (hi : i < 32) : (wordOfBits l).getLsbD i = l.getD i false := by
  induction l generalizing i with
  | nil => simp [wordOfBits]
  | cons b rest ih =>
    rw [wordOfBits, BitVec.getLsbD_or, BitVec.getLsbD_shiftLeft]
    cases i with
    | zero => cases b <;> simp
    | succ i => rw [Nat.add_sub_cancel, ih (by omega)]; cases b <;> simp [hi]

theorem irqEnable_readBack (v : Word) : (IrqEnable.ofWord v).word = v &&& 0x6 := by
  apply BitVec.eq_of_getLsbD_eq
  intro i hi
  rw [IrqEnable.word, wordOfBits_getLsbD _ hi]
  interval_cases i <;> simp [IrqEnable.ofWord]

/-! ### The register written -/

/-- R20: the bits of an RW register; the others are reserved. -/
def Reg.rwBits : Reg → Word
  | .ie => 0x6
  | .config => 0x733F
  | .msgLen => 0x3FFF
  | .dcwTotal => 0xFFF
  | .blkG1 | .blkG2 | .gfOp => 0xFFFF
  | .ecwBlk => 0xFF
  | .remBits => 0x7
  | .cciWidth => 0x1F
  | .id | .ctrl | .status | .cmd | .errCode | .errInfo | .valid | .ecwTotal | .statBits | .seqLen | .seqBits | .best
  | .fmtWord | .verWord | .gfRes => 0

/-- R20, R24, R29-R36, R44: an RW register reads back without its reserved bits. -/
theorem setReg_readReg_same (s : State) {r : Reg} (hr : r ∈ rwRegisters) (v : Word) :
    (s.setReg r v).readReg r = v &&& r.rwBits := by
  simp only [rwRegisters, List.mem_cons, List.not_mem_nil, or_false] at hr
  rcases hr with rfl | rfl | rfl | rfl | rfl | rfl | rfl | rfl | rfl | rfl
  · exact irqEnable_readBack v
  · exact configReg_readBack v
  · exact lowField_readBack v 14
  · exact lowField_readBack v 12
  · exact blkGroup_readBack v
  · exact blkGroup_readBack v
  · exact lowField_readBack v 8
  · exact lowField_readBack v 3
  · exact lowField_readBack v 5
  · exact blkGroup_readBack v

/-- R20: a write to an RW register changes no other register but ECW_TOTAL, which is computed. -/
theorem setReg_readReg_other (s : State) {r q : Reg} (hr : r ∈ rwRegisters) (v : Word) (hq : q ≠ r) (he : q ≠ .ecwTotal) :
    (s.setReg r v).readReg q = s.readReg q := by
  cases q
  case ecwTotal => exact absurd rfl he
  case ie | config | msgLen | dcwTotal | blkG1 | blkG2 | ecwBlk | remBits | cciWidth | gfOp =>
    simp only [rwRegisters, List.mem_cons, List.not_mem_nil, or_false] at hr
    rcases hr with rfl | rfl | rfl | rfl | rfl | rfl | rfl | rfl | rfl | rfl <;> first | rfl | exact absurd rfl hq
  all_goals rw [setReg_rw hr]; rfl

theorem answerWrite_readReg (s : State) (q : Reg) : s.answerWrite.readReg q = s.readReg q := by cases q <;> rfl

theorem clearValid_readReg (s : State) (c : Valid) {q : Reg} (hq : q ≠ .valid) :
    (s.clearValid c).readReg q = s.readReg q := by
  cases q
  case valid => exact absurd rfl hq
  all_goals rfl

/-- R20, R28: everything a host write to an RW register of an idle engine does. -/
theorem rwRegister_write {s : State} {r : Reg} (hr : r ∈ rwRegisters) (v : Word) (hb : s.busy = false) :
    let t := s.transact (.write (BitVec.ofNat 16 r.offset) .four v)
    t.readReg r = v &&& r.rwBits ∧
    (∀ q : Reg, q ≠ r → q ≠ .valid → q ≠ .ecwTotal → t.readReg q = s.readReg q) ∧
    t.valid = s.valid.minus r.hostClears ∧ t.eng = s.eng ∧ t.pen = s.pen ∧ (∀ a, t.byteAt a = s.byteAt a) ∧
    t.answersOkay := by
  have hne : r ≠ .valid := by
    rintro rfl
    exact absurd hr (by decide)
  have hread : ∀ q : Reg, q ≠ .valid →
      ((s.setReg r v).clearValid r.hostClears).answerWrite.readReg q = (s.setReg r v).readReg q := fun q hq =>
    (answerWrite_readReg _ q).trans (clearValid_readReg _ _ hq)
  rw [transact_write_four, if_neg (ne_true_of_eq_false hb), State.writeReg]
  refine ⟨(hread r hne).trans (setReg_readReg_same s hr v),
    fun q hq hv he => (hread q hv).trans (setReg_readReg_other s hr v hq he), ?_⟩
  rw [setReg_rw hr]
  exact ⟨rfl, rfl, rfl, fun a => byteAt_congr rfl rfl a, answerWrite_answersOkay _⟩

end Sys2Proof.Machine

open Sys2Proof Sys2Proof.Machine

/-- Settles O15: the ten rows of the statement are the RW registers with their bits and the clears of R28. -/
theorem registerWritesReadBack : Obligations.RegisterWritesReadBack := by
  intro s v hb p hp
  obtain ⟨hr, hbits, hclears⟩ : p.1 ∈ rwRegisters ∧ p.2.1 = p.1.rwBits ∧ p.2.2 = p.1.hostClears := by
    revert p
    decide
  rw [hbits, hclears]
  exact rwRegister_write hr v hb
end

section
/-! PROOFS. CFG and what the ROMs hold: the rows of CAP_ROM, the layout they give, and the checks that every row passes
(10_state.md R52-R54; 40_control.md R104, R105). The ROMs are at the spec's defaults (log 9). -/

namespace Sys2Proof.Machine

/-! ### The tables -/

/-- R52: the columns of CAP_ROM, and the division of the codewords among the blocks. -/
theorem capRow_columns : ∀ v < 41, ∀ e < 4, 1 ≤ v →
    let r := capRow v e
    let nb := r.g1Count + r.g2Count
    r.dcw = (dcwColumn.getD (v - 1) []).getD e 0 ∧ r.e = (ecwColumn.getD (v - 1) []).getD e 0 ∧
    r.dcw + nb * r.e = dataModules v / 8 ∧ r.g2Count = r.dcw % nb ∧ r.g1Dcw = r.dcw / nb ∧
    r.g2Dcw = (if r.g2Count = 0 then 0 else r.g1Dcw + 1) := by decide +kernel

/-- R52, R53: the remainder bits are what the codewords leave of the data modules. -/
theorem remRom_eq_mod : ∀ v < 41, 1 ≤ v → remRom v = dataModules v % 8 := by decide +kernel

/-- R52: no entry of CAP_ROM is too wide for its register. -/
theorem capRow_fits : ∀ v < 41, ∀ e < 4, 1 ≤ v →
    let r := capRow v e
    r.dcw < 2 ^ 12 ∧ r.g1Count < 2 ^ 8 ∧ r.g1Dcw < 2 ^ 8 ∧ r.g2Count < 2 ^ 8 ∧ r.g2Dcw < 2 ^ 8 ∧ r.e < 2 ^ 8 := by
  decide +kernel

theorem remRom_lt (v : Nat) : remRom v < 2 ^ 3 := by
  unfold remRom
  split_ifs <;> decide

theorem cciRom_lt (md range : Nat) : cciRom md range < 2 ^ 5 := by
  unfold cciRom
  split <;> decide

/-- R104: the layout CFG loads holds the ROM values, none of them cut. -/
theorem romLayout_toNat {c : ConfigReg} (hv : 1 ≤ c.version.toNat) (hv' : c.version.toNat ≤ 40)
    (he : c.ecLevel.toNat ≤ 3) :
    let r := capRow c.version.toNat c.ecLevel.toNat
    (romLayout c).dcwTotal.toNat = r.dcw ∧
    (romLayout c).g1.count.toNat = r.g1Count ∧ (romLayout c).g1.dcw.toNat = r.g1Dcw ∧
    (romLayout c).g2.count.toNat = r.g2Count ∧ (romLayout c).g2.dcw.toNat = r.g2Dcw ∧
    (romLayout c).ecwBlk.toNat = r.e ∧ (romLayout c).remBits.toNat = remRom c.version.toNat ∧
    (romLayout c).cciWidth.toNat = cciRom c.mode.toNat (versionRange c.version.toNat) := by
  obtain ⟨h1, h2, h3, h4, h5, h6⟩ := capRow_fits _ (Nat.lt_succ_of_le hv') _ (Nat.lt_succ_of_le he) hv
  exact ⟨Nat.mod_eq_of_lt h1, Nat.mod_eq_of_lt h2, Nat.mod_eq_of_lt h3, Nat.mod_eq_of_lt h4, Nat.mod_eq_of_lt h5,
    Nat.mod_eq_of_lt h6, Nat.mod_eq_of_lt (remRom_lt _), Nat.mod_eq_of_lt (cciRom_lt _ _)⟩

/-! ### CFG (R104) -/

theorem not_versionOk_iff (s : State) :
    (!s.versionOk) = true ↔ s.config.version.toNat < 1 ∨ 40 < s.config.version.toNat := by
  rw [Bool.not_eq_true', ← Bool.not_eq_true, versionOk_iff]
  omega

/-- R104: the three checks in their order. -/
theorem cfgCheck_eq (s : State) : cfgCheck s =
    if s.config.version.toNat < 1 ∨ 40 < s.config.version.toNat then some (invalidParameter 1)
    else if 2 < s.config.mode.toNat then some (invalidParameter 2)
    else if 3 < s.config.ecLevel.toNat then some (invalidParameter 3)
    else none :=
  if_congr (not_versionOk_iff s) rfl rfl

theorem exec_cfg_of_some {s : State} {e : CmdError} (h : cfgCheck s = some e) : exec .cfg s =
    .next (s.failed 1 e.cls.code e.detail e.pos e.chr
      (s.valid.minus { cfg := true, data := true, ecc := true, seq := true })) := by
  rw [exec_eq_perform s (by decide), checkOf, h, perform_some]
  rfl

theorem exec_cfg_of_none {s : State} (h : cfgCheck s = none) : exec .cfg s =
    .next (({ s with layout := romLayout s.config } : State).succeeded
      { s.valid.minus { cfg := true, data := true, ecc := true, seq := true } with cfg := true }) := by
  rw [exec_eq_perform s (by decide), checkOf, h, perform_none, effectOf_valid]
  simp [Valid.plus, setSet, clearSet, Instr.opcode, effectOf, cfgEffect, Valid.minus]

end Sys2Proof.Machine

open Sys2Proof Sys2Proof.Machine

/-- Settles O26: the checks by cases, the ROMs by their tables. -/
theorem cfgLoadsTheLayout : Obligations.CfgLoadsTheLayout := by
  refine ⟨fun s => ?_, fun v e hv hv' he => capRow_columns v (by omega) e (by omega) hv,
    fun v hv hv' => ⟨remRom_eq_mod v (by omega) hv, ?_⟩, by decide, by decide, ?_⟩
  · have hc := cfgCheck_eq s
    dsimp only
    split_ifs at hc with hv hm he
    · rw [if_pos hv]
      exact exec_cfg_of_some hc
    · rw [if_neg hv, if_pos hm]
      exact exec_cfg_of_some hc
    · rw [if_neg hv, if_neg hm, if_pos he]
      exact exec_cfg_of_some hc
    · rw [if_neg hv, if_neg hm, if_neg he]
      exact ⟨romLayout s.config, exec_cfg_of_none hc, romLayout_toNat (by omega) (by omega) (by omega)⟩
  · exact if_congr (by omega) rfl rfl
  · intro p hp
    fin_cases hp <;> exact ⟨_, rfl, by decide +kernel⟩
end

section
/-! PROOFS. What holds of every layout CFG loads: a message that fits the capacity fits the count indicator
(41_bitstream.md R118, R121), and the layout checks pass (43_reed_solomon.md R145). -/

namespace Sys2Proof.Machine

/-! ### Capacity (R118, R121) -/

/-- R52: the greatest D of a version range, that of version 9, 26 or 40 at level L. -/
def maxDcw (range : Nat) : Nat :=
  match range with
  | 0 => 232
  | 1 => 1370
  | _ => 2956

theorem capRow_dcw_le : ∀ v < 41, ∀ e < 4, (capRow v e).dcw ≤ maxDcw (versionRange v) := by decide +kernel

theorem versionRange_lt (v : Nat) : versionRange v < 3 := by
  unfold versionRange
  split_ifs <;> decide

/-- R119, R120: what fits the greatest D of a version range fits its count indicator. In each of the nine pairs of mode and
range the bits of the whole groups of characters alone bound n. -/
theorem count_lt_of_capacity {md range n : Nat} (hm : md ≤ 2) (hr : range < 3)
    (h : requiredBits md n (cciRom md range) ≤ 8 * maxDcw range) : n < 2 ^ cciRom md range := by
  interval_cases md <;> interval_cases range <;> simp only [requiredBits, payloadBits, maxDcw, cciRom] at h ⊢ <;> omega

/-! ### The layout checks (R145) -/

/-- R145: the detail of the first layout check that fails. -/
def layoutDetail (ileave : Bool) (l : Layout) : Option Byte :=
  let c1 := l.g1.count.toNat
  let d1 := l.g1.dcw.toNat
  let c2 := l.g2.count.toNat
  let d2 := l.g2.dcw.toNat
  let d := l.dcwTotal.toNat
  let e := l.ecwBlk.toNat
  if c1 = 0 then some 3
  else if d1 = 0 then some 4
  else if 0 < c2 ∧ d2 ≠ d1 + 1 then some 5
  else if c1 * d1 + (if 0 < c2 then c2 * d2 else 0) ≠ d then some 6
  else if e < 1 ∨ 31 < e then some 7
  else if 4096 < (c1 + c2) * e then some 8
  else if ileave = true ∧ 4096 < d + (c1 + c2) * e + (if l.remBits = 0 then 0 else 1) then some 9
  else none

theorem remBits_pos_iff (l : Layout) : 0 < l.remBits.toNat ↔ ¬ l.remBits = 0 := by
  rw [Nat.pos_iff_ne_zero, ne_eq, ← BitVec.toNat_inj]
  rfl

/-- R145: the check raises INTERNAL_CONSISTENCY with that detail. -/
theorem layoutCheck_eq (ileave : Bool) (l : Layout) :
    layoutCheck ileave l = (layoutDetail ileave l).map internalConsistency := by
  have hrem : (if 0 < l.remBits.toNat then 1 else 0) = if l.remBits = 0 then 0 else 1 := by
    simp only [remBits_pos_iff, ite_not]
  simp only [layoutCheck, layoutDetail, apply_ite (Option.map internalConsistency), Option.map_some, Option.map_none,
    mul_ite, Nat.mul_zero, hrem]
  rfl

theorem layoutCheck_of_detail {ileave : Bool} {l : Layout} {x : Byte} (h : layoutDetail ileave l = some x) :
    layoutCheck ileave l = some (internalConsistency x) := by
  rw [layoutCheck_eq, h]
  rfl

theorem layoutCheck_of_no_detail {ileave : Bool} {l : Layout} (h : layoutDetail ileave l = none) :
    layoutCheck ileave l = none := by
  rw [layoutCheck_eq, h]
  rfl

/-- R52: the blocks of every row of CAP_ROM add up to its data codewords. -/
theorem capRow_blocks : ∀ v < 41, ∀ e < 4, 1 ≤ v →
    let r := capRow v e
    0 < r.g1Count ∧ 0 < r.g1Dcw ∧ (0 < r.g2Count → r.g2Dcw = r.g1Dcw + 1) ∧
    r.g1Count * r.g1Dcw + r.g2Count * r.g2Dcw = r.dcw := by decide +kernel

/-- R52: E of every row of CAP_ROM, and the number of its codewords. -/
theorem capRow_codewords : ∀ v < 41, ∀ e < 4, 1 ≤ v →
    let r := capRow v e
    1 ≤ r.e ∧ r.e ≤ 30 ∧ r.dcw + (r.g1Count + r.g2Count) * r.e ≤ 3706 := by decide +kernel

/-- R145: every layout CFG loads passes the checks of RSENC and ILEAVE. -/
theorem romLayout_passes {c : ConfigReg} (hv : 1 ≤ c.version.toNat) (hv' : c.version.toNat ≤ 40)
    (he : c.ecLevel.toNat ≤ 3) : layoutCheck true (romLayout c) = none ∧ (romLayout c).ecwBlk.toNat ≤ 30 ∧
      (romLayout c).seqTotal ≤ 3706 := by
  obtain ⟨hd, hc1, hd1, hc2, hd2, hecw, -, -⟩ := romLayout_toNat hv hv' he
  obtain ⟨hb1, hl1, hl2, hsum⟩ := capRow_blocks _ (Nat.lt_succ_of_le hv') _ (Nat.lt_succ_of_le he) hv
  obtain ⟨hpos, hle, hall⟩ := capRow_codewords _ (Nat.lt_succ_of_le hv') _ (Nat.lt_succ_of_le he) hv
  rw [layoutCheck_none_iff, Layout.seqTotal, Layout.eccTotal, Layout.nb, hd, hc1, hd1, hc2, hd2, hecw]
  refine ⟨⟨hb1, hl1, hl2, hsum, hpos, by omega, by omega, fun _ => ?_⟩, hle, hall⟩
  split <;> omega

end Sys2Proof.Machine

open Sys2Proof Sys2Proof.Machine

/-- Settles O32: the nine pairs of mode and version range, each by the greatest D of the range. -/
theorem romCapacityFitsTheCount : Obligations.RomCapacityFitsTheCount := by
  intro c hv hv' hm he n h
  obtain ⟨hd, -, -, -, -, -, -, hw⟩ := romLayout_toNat hv hv' he
  rw [hd, hw] at h
  rw [hw]
  have hmax := capRow_dcw_le _ (Nat.lt_succ_of_le hv') _ (Nat.lt_succ_of_le he)
  exact count_lt_of_capacity hm (versionRange_lt _) (h.trans (Nat.mul_le_mul_left 8 hmax))

/-- Settles O40: the checks by their details, the rows by CAP_ROM. -/
theorem layoutChecksInOrder : Obligations.LayoutChecksInOrder := by
  refine ⟨fun s => ⟨fun x hx => ?_, layoutCheck_of_no_detail, fun x hx => ?_, layoutCheck_of_no_detail⟩,
    fun c => romLayout_passes⟩
  · rw [exec_eq_perform s (by decide), checkOf, layoutCheck_of_detail hx, perform_some]
    rfl
  · rw [exec_eq_perform s (by decide), checkOf, layoutCheck_of_detail hx, perform_some]
    rfl
end

section
/-! PROOFS. FMTGEN: its checks, and that neither word is cut (44_mask_format.md R176, R177). EC_IND and VER_BCH_GEN are at the
spec's defaults (logs 9, 10). -/

namespace Sys2Proof.Machine

/-- R179: a format word has 15 bits. -/
theorem formatWord_lt : ∀ ind < 4, ∀ m < 8, formatWord ind m < 2 ^ 15 := by decide +kernel

/-- R180: a version word has 18 bits. -/
theorem versionWord_lt : ∀ v < 41, versionWord v < 2 ^ 18 := by decide +kernel

/-- R56: EC_IND at its default. -/
theorem ecInd_eq {e : Nat} (h : e ≤ 3) :
    ecInd e = if e = 0 then 0b01 else if e = 1 then 0b00 else if e = 2 then 0b11 else 0b10 := by
  interval_cases e <;> rfl

theorem ecInd_lt (e : Nat) : ecInd e < 4 := by
  unfold ecInd
  split <;> decide

/-- R176: the three checks in their order. -/
theorem fmtgenCheck_eq (s : State) (op : MaskOperand) : fmtgenCheck s op =
    if s.config.version.toNat < 1 ∨ 40 < s.config.version.toNat then some (invalidParameter 1)
    else if 3 < s.config.ecLevel.toNat then some (invalidParameter 3)
    else if s.staleBest op = true then some (invalidParameter 5)
    else none :=
  if_congr (not_versionOk_iff s) rfl rfl

theorem fmtgen_of_some {s : State} {op : MaskOperand} {e : CmdError} (h : fmtgenCheck s op = some e) :
    fmtgen s op = s.failed 0x12 e.cls.code e.detail e.pos e.chr (s.valid.minus { fmt := true }) := by
  rw [fmtgen, h, perform_some]
  rfl

/-- R176: FMTGEN writes the two words and nothing else. -/
theorem fmtgen_of_none {s : State} {op : MaskOperand} (h : fmtgenCheck s op = none) : fmtgen s op =
    ({ s with
      fmtWord := BitVec.ofNat 15 (formatWord (ecInd s.level) (s.effectiveMask op).toNat)
      verWord := BitVec.ofNat 18 (versionWord s.version) } : State).succeeded { s.valid with fmt := true } := by
  rw [fmtgen, h, perform_none]
  simp [fmtgenEffect, Valid.minus, Valid.plus, clearSet, setSet]

/-- R84, R177: each form of FMTGEN is `fmtgen` with an operand, and only BEST can be stale. -/
theorem exec_fmtgen {s : State} {i : Instr} {m : BitVec 3}
    (h : (∃ k, k < 8 ∧ i = .fmtgenM k ∧ m = BitVec.ofNat 3 k) ∨ (i = .fmtgenBest ∧ m = s.best)) :
    ∃ op, exec i s = .next (fmtgen s op) ∧ s.effectiveMask op = m ∧
      (s.staleBest op = true ↔ i = .fmtgenBest ∧ s.valid.mask = false) := by
  rcases h with ⟨k, -, rfl, rfl⟩ | ⟨rfl, rfl⟩
  · exact ⟨.explicit k, rfl, rfl, by simp [State.staleBest]⟩
  · exact ⟨.best, rfl, rfl, by simp [State.staleBest]⟩

end Sys2Proof.Machine

open Sys2Proof Sys2Proof.Machine

/-- Settles O52: the checks by cases, and the bounds of the two words. -/
theorem fmtgenWritesTheWords : Obligations.FmtgenWritesTheWords := by
  intro s i m hi
  obtain ⟨op, hx, rfl, hstale⟩ := exec_fmtgen hi
  have hc := fmtgenCheck_eq s op
  dsimp only
  rw [hx, ← if_congr hstale rfl rfl]
  split_ifs at hc with hv he hb
  · rw [if_pos hv, fmtgen_of_some hc]
    rfl
  · rw [if_neg hv, if_pos he, fmtgen_of_some hc]
    rfl
  · rw [if_neg hv, if_neg he, if_pos hb, fmtgen_of_some hc]
    rfl
  · rw [if_neg hv, if_neg he, if_neg hb, ← ecInd_eq (by omega), fmtgen_of_none hc]
    exact ⟨_, _, rfl, Nat.mod_eq_of_lt (formatWord_lt _ (ecInd_lt _) _ (BitVec.isLt _)),
      Nat.mod_eq_of_lt (versionWord_lt _ (by unfold State.version; omega))⟩
end

section
/-! PROOFS. Accesses answered ERROR, and what an OKAY write does: to a memory it stores its bytes, to a read-only location
and to reserved bits it does nothing (20_memory.md R67-R74; 10_state.md R20, R28). -/

namespace Sys2Proof.Machine

/-! ### The two answers (R63, R69-R72) -/

/-- R72: an access answered ERROR is answered and no more. -/
theorem transact_of_accessError (s : State) {x : Access} (h : accessError x.addr x.size) :
    s.transact x = s.respond .error 0 := by
  have hno : ¬ accessOk x.addr x.size = true := fun hok => (accessOk_iff _ _).1 hok h
  cases x with
  | read a sz => exact if_neg hno
  | write a sz v => exact if_neg hno

theorem transact_write_okay (s : State) {a : BitVec 16} {sz : Size} (v : Word) (h : ¬ accessError a.toNat sz.bytes) :
    s.transact (.write a sz v) = (s.writeEffect a.toNat sz.bytes v).answerWrite := if_pos ((accessOk_iff _ _).2 h)

theorem transact_answersOkay (s : State) {x : Access} (h : ¬ accessError x.addr x.size) :
    (s.transact x).answersOkay := by
  cases x with
  | read a sz => rw [transact_read_okay h]; exact ⟨_, rfl⟩
  | write a sz v => rw [transact_write_okay s v h]; exact answerWrite_answersOkay _

/-! ### Writes to the memories (R67, R68, R74, R28) -/

/-- R71: the first byte of an OKAY access is mapped. -/
theorem mapped_of_not_accessError {a : Nat} {sz : Size} (h : ¬ accessError a sz.bytes) : ¬ unmappedAddr a := by
  have hpos : 0 < sz.bytes := by rcases sz.bytes_cases with h | h | h <;> omega
  exact fun hu => h (.inr (.inr ⟨0, hpos, hu⟩))

/-- R64: the memories a host write changes. -/
theorem windowOf_writable {a : Nat} (h : (0x2000 ≤ a ∧ a < 0x7000) ∨ (0x8000 ≤ a ∧ a < 0xFA61)) :
    windowOf a = .msg ∨ windowOf a = .data ∨ windowOf a = .ecc ∨ windowOf a = .seq ∨ windowOf a = .matrix := by
  rw [windowOf_msg_iff, windowOf_data_iff, windowOf_ecc_iff, windowOf_seq_iff, windowOf_matrix_iff]
  omega

theorem writeEffect_memory {s : State} {a : Nat} (n : Nat) (v : Word) (hb : s.busy = false)
    (h : (0x2000 ≤ a ∧ a < 0x7000) ∨ (0x8000 ≤ a ∧ a < 0xFA61)) :
    s.writeEffect a n v = (s.store a (writeBytes v n)).clearValid (windowOf a).hostClears := by
  unfold State.writeEffect
  rcases windowOf_writable h with hw | hw | hw | hw | hw <;> rw [hw, hb] <;> rfl

/-- R28: the rows of the table for the memories. -/
theorem windowOf_hostClears {a : Nat} (h : (0x2000 ≤ a ∧ a < 0x7000) ∨ (0x8000 ≤ a ∧ a < 0xFA61)) :
    (windowOf a).hostClears =
      if a < 0x5000 then { data := true, ecc := true, seq := true }
      else if a < 0x6000 then { ecc := true, seq := true }
      else if a < 0x7000 then { seq := true }
      else { mask := true } := by
  split
  · by_cases hm : a < 0x4000
    · rw [(windowOf_msg_iff a).2 (by omega)]; rfl
    · rw [(windowOf_data_iff a).2 (by omega)]; rfl
  · split
    · rw [(windowOf_ecc_iff a).2 (by omega)]; rfl
    · split
      · rw [(windowOf_seq_iff a).2 (by omega)]; rfl
      · rw [(windowOf_matrix_iff a).2 (by omega)]; rfl

/-- R68: byte k of the data written. -/
theorem writeBytes_getD (v : Word) {n k : Nat} (h : k < n) : (writeBytes v n).getD k 0 = v.extractLsb' (8 * k) 8 := by
  simp [writeBytes, h]

/-- R51, R74: an OKAY access keeps two bits of each of its bytes exactly in MATRIX. -/
theorem keepBits_access {a x : Nat} {sz : Size} (b : Byte) (hok : ¬ accessError a sz.bytes)
    (hx : a ≤ x ∧ x < a + sz.bytes) : keepBits x b = if 0x8000 ≤ a then b &&& 3 else b := by
  have hw : windowOf x = windowOf a := by
    have := access_inside hok (x - a) (by omega)
    rwa [Nat.add_sub_cancel' hx.1] at this
  have hmapped := mapped_of_not_accessError hok
  unfold unmappedAddr at hmapped
  refine if_congr ?_ rfl rfl
  rw [hw, windowOf_matrix_iff]
  omega

/-- R67, R74: every byte after an OKAY write to a memory. -/
theorem hostStore_byteAt (s : State) {a : Nat} {sz : Size} (v : Word) (hok : ¬ accessError a sz.bytes) (x : Nat) :
    (s.store a (writeBytes v sz.bytes)).byteAt x =
      if a ≤ x ∧ x < a + sz.bytes then
        (if 0x8000 ≤ a then v.extractLsb' (8 * (x - a)) 8 &&& 3 else v.extractLsb' (8 * (x - a)) 8)
      else s.byteAt x := by
  rw [byteAt_store, writeBytes_length]
  split
  · next hx => rw [writeBytes_getD v (by omega), keepBits_access _ hok hx]
  · rfl

/-! ### Writes that change nothing (R73) -/

/-- R20: the registers a host write never changes. -/
def roRegisters : List Reg :=
  [.id, .errCode, .errInfo, .valid, .ecwTotal, .statBits, .seqLen, .seqBits, .best, .fmtWord, .verWord, .gfRes]

theorem writeReg_readOnly (s : State) {r : Reg} (hr : r ∈ roRegisters) (v : Word) : s.writeReg r v = s := by
  simp only [roRegisters, List.mem_cons, List.not_mem_nil, or_false] at hr
  rcases hr with rfl | rfl | rfl | rfl | rfl | rfl | rfl | rfl | rfl | rfl | rfl | rfl <;> exact clearValid_empty s

/-- R73: PEN, EXP, LOG and GEN. -/
theorem writeEffect_readOnly {s : State} {a : Nat} (n : Nat) (v : Word) (hb : s.busy = false)
    (h : 0x100 ≤ a ∧ a < 0x420) : s.writeEffect a n v = s := by
  have hw : windowOf a = .pen ∨ windowOf a = .exp ∨ windowOf a = .log ∨ windowOf a = .gen := by
    rw [windowOf_pen_iff, windowOf_exp_iff, windowOf_log_iff, windowOf_gen_iff]
    omega
  unfold State.writeEffect
  rcases hw with hw | hw | hw | hw <;> rw [hw, hb] <;> rfl

/-- R20: the bits of a register that a host write uses; the others are reserved. -/
def Reg.usedBits (r : Reg) : Word := if r = .ctrl then 0x1 else if r = .status then 0x1E else r.rwBits

theorem getLsbD_and_of_set {m : Word} {k : Nat} (h : m.getLsbD k = true) (v : Word) :
    (v &&& m).getLsbD k = v.getLsbD k := by
  rw [BitVec.getLsbD_and, h, Bool.and_true]

theorem extractLsb'_and_of_set {m : Word} {k n : Nat} (h : m.extractLsb' k n = BitVec.allOnes n) (v : Word) :
    (v &&& m).extractLsb' k n = v.extractLsb' k n := by
  rw [BitVec.extractLsb'_and, h, BitVec.and_allOnes]

/-- R20, R73: the reserved bits of the data written are ignored, since every field a register takes lies inside its used
bits. -/
theorem setReg_usedBits (s : State) {r : Reg} (hr : r = .ctrl ∨ r = .status ∨ r ∈ rwRegisters) (v : Word) :
    s.setReg r (v &&& r.usedBits) = s.setReg r v := by
  have bit := fun (m : Word) k (h : m.getLsbD k = true) => getLsbD_and_of_set h v
  have field := fun (m : Word) k n (h : m.extractLsb' k n = BitVec.allOnes n) => extractLsb'_and_of_set h v
  simp only [rwRegisters, List.mem_cons, List.not_mem_nil, or_false] at hr
  rcases hr with rfl | rfl | rfl | rfl | rfl | rfl | rfl | rfl | rfl | rfl | rfl | rfl <;>
    simp only [State.setReg, Reg.usedBits, Reg.rwBits, reduceCtorEq, if_true, if_false]
  · rw [bit _ 0 rfl]
  · rw [State.clearStatus, State.clearStatus, Status.writeOneToClear, Status.writeOneToClear, bit _ 1 rfl, bit _ 2 rfl,
      bit _ 3 rfl, bit _ 4 rfl]
  · rw [IrqEnable.ofWord, IrqEnable.ofWord, bit _ 1 rfl, bit _ 2 rfl]
  · rw [ConfigReg.ofWord, ConfigReg.ofWord, field _ 0 6 rfl, field _ 8 2 rfl, field _ 12 3 rfl]
  · rw [field _ 0 14 rfl]
  · rw [field _ 0 12 rfl]
  · rw [BlkGroup.ofWord, BlkGroup.ofWord, field _ 0 8 rfl, field _ 8 8 rfl]
  · rw [BlkGroup.ofWord, BlkGroup.ofWord, field _ 0 8 rfl, field _ 8 8 rfl]
  · rw [field _ 0 8 rfl]
  · rw [field _ 0 3 rfl]
  · rw [field _ 0 5 rfl]
  · rw [field _ 0 8 rfl, field _ 8 8 rfl]

theorem transact_write_idle {s : State} (r : Reg) (v : Word) (hb : s.busy = false) :
    s.transact (.write (BitVec.ofNat 16 r.offset) .four v) = (s.writeReg r v).answerWrite := by
  rw [transact_write_four, hb]
  rfl

end Sys2Proof.Machine

open Sys2Proof Sys2Proof.Machine

/-- Settles O12: `accessError` is the negation of the check every transaction makes first. -/
theorem errorAccessesChangeNothing : Obligations.ErrorAccessesChangeNothing := fun s _ =>
  ⟨transact_of_accessError s, transact_answersOkay s⟩

/-- Settles O14: an OKAY write to a memory is one store and the clears of its window. -/
theorem memoryWriteStoresItsBytes : Obligations.MemoryWriteStoresItsBytes := by
  intro s a sz v hb hok ha
  have hmapped := mapped_of_not_accessError hok
  unfold unmappedAddr at hmapped
  have ha' : (0x2000 ≤ a.toNat ∧ a.toNat < 0x7000) ∨ (0x8000 ≤ a.toNat ∧ a.toNat < 0xFA61) := by omega
  rw [transact_write_okay s v hok, writeEffect_memory _ _ hb ha', windowOf_hostClears ha']
  refine ⟨rfl, answerWrite_answersOkay _, fun x => ?_⟩
  exact (answerWrite_byteAt _ x).trans ((byteAt_congr rfl rfl x).trans (hostStore_byteAt s v hok x))

/-- Settles O17: the registers, the windows and the bits that a write does not change. -/
theorem readOnlyWritesChangeNothing : Obligations.ReadOnlyWritesChangeNothing := by
  intro s v hb
  refine ⟨fun r hr => ?_, fun a sz ha ha' hok => ?_, fun p hp => ?_⟩
  · rw [transact_write_idle r v hb, writeReg_readOnly s hr]
    exact ⟨answerWrite_answeredAs s, answerWrite_answersOkay s⟩
  · rw [transact_write_okay s v hok, writeEffect_readOnly _ _ hb ⟨ha, ha'⟩]
    exact ⟨answerWrite_answeredAs s, answerWrite_answersOkay s⟩
  · obtain ⟨hr, hbits⟩ : (p.1 = .ctrl ∨ p.1 = .status ∨ p.1 ∈ rwRegisters) ∧ p.2 = p.1.usedBits := by
      revert p
      decide
    rw [transact_write_idle _ _ hb, transact_write_idle _ _ hb, State.writeReg, State.writeReg, hbits,
      setReg_usedBits s hr]
end

section
/-! PROOFS. The steps that perform no command, and what a host act can change while a command runs (20_memory.md R77;
40_control.md R82; 70_reset_and_hazards.md R200, R207, R213, R214). -/

namespace Sys2Proof.Machine

variable {s : State}

/-! ### The scheduler (R214) -/

theorem hostMoves_iff : s.hostMoves = true ↔ s.inbox ≠ [] ∧ (s.busy = false ∨ 0 < s.hostTurns) := by
  simp [State.hostMoves]

theorem hostMoves_of_waiting (hb : s.busy = true) (h : s.inbox = [] ∨ s.hostTurns = 0) : s.hostMoves = false := by
  rw [Bool.eq_false_iff, Ne, hostMoves_iff]
  rintro ⟨hi, hb' | hpos⟩
  · exact Bool.false_ne_true (hb'.symm.trans hb)
  · exact h.elim hi hpos.ne'

/-! ### The step, case by case -/

/-- R77: the host's oldest act. -/
theorem step_host {a : HostAct} {rest : List HostAct} (hi : s.inbox = a :: rest)
    (h : s.busy = false ∨ 0 < s.hostTurns) :
    step s = .next (({ s with inbox := rest, hostTurns := s.hostTurns - 1 } : State).act a) := by
  have hm : s.hostMoves = true := hostMoves_iff.2 ⟨by simp [hi], h⟩
  rw [step, if_pos hm, State.hostStep, hi]

/-- R200: an idle machine with nothing to do. -/
theorem step_idle (hi : s.inbox = []) (he : s.eng = .idle) : step s = .next s := by
  have hm : ¬ s.hostMoves = true := fun h => (hostMoves_iff.1 h).1 hi
  rw [step, if_neg hm, engineStep, he]

/-- R213: a step of LATENCY. -/
theorem step_latency {w : Word} {st : Option Stage} (he : s.eng = .running w st) (hm : s.hostMoves = false)
    (hpos : 0 < s.stepsLeft) : step s = .next s.tick := by
  rw [step, if_neg (ne_true_of_eq_false hm), engineStep, he]
  exact if_pos hpos

theorem engineStep_answers (s : State) : ∃ t, engineStep s = .next t := by
  unfold engineStep
  split
  · exact ⟨_, rfl⟩
  · split
    · exact ⟨_, rfl⟩
    · exact performWord_answers _ s

/-- R193: no step stops. -/
theorem step_answers (s : State) : ∃ t, step s = .next t := by
  unfold step
  split
  · exact ⟨_, rfl⟩
  · exact engineStep_answers s

/-- R188, R207: what a refused write or a W1C write does to STATUS: DONE and ERR do not rise and FATAL stays. -/
theorem busyStatus_bits {old new : Status}
    (h : new = old ∨ new = { old with rej := true } ∨ ∃ v, new = old.writeOneToClear v) :
    new.done = (old.done && new.done) ∧ new.err = (old.err && new.err) ∧ new.fatal = old.fatal := by
  rcases h with rfl | rfl | ⟨v, rfl⟩
  · exact ⟨(Bool.and_self _).symm, (Bool.and_self _).symm, rfl⟩
  · exact ⟨(Bool.and_self _).symm, (Bool.and_self _).symm, rfl⟩
  · exact ⟨(Bool.and_self_left _ _).symm, (Bool.and_self_left _ _).symm, rfl⟩

end Sys2Proof.Machine

open Sys2Proof Sys2Proof.Machine

/-- Settles O10, one lemma a case. -/
theorem otherSteps : Obligations.OtherSteps := fun s =>
  ⟨fun _ _ hi h => step_host hi h, fun hi he => step_idle hi he,
    fun _ _ he h hpos => ⟨_, step_latency he (hostMoves_of_waiting (busy_of_running he) h) hpos⟩, step_answers s,
    fun i => exec_answers i s⟩

/-- Settles O19: the step is the host's act, and what that can change is `busy_act`. -/
theorem nothingElseChangesWhileBusy : Obligations.NothingElseChangesWhileBusy := by
  intro s a rest hi hb hturns hr
  refine ⟨_, step_host hi (.inr hturns), ?_⟩
  obtain ⟨status, ib, d, r, hact, -, hstatus⟩ :=
    busy_act (s := { s with inbox := rest, hostTurns := s.hostTurns - 1 }) hb hr
  rw [hact]
  exact ⟨rfl, busyStatus_bits hstatus⟩
end

section
/-! PROOFS. A command changes nothing outside its write set: neither a byte nor a register nor PEN (40_control.md R96, R98;
20_memory.md R77). -/

namespace Sys2Proof.Machine

/-! ### The write set of the running command (R96) -/

/-- R90: the encoder's word decodes to its command. -/
theorem decode_encode {i : Instr} (hi : i.WellFormed) : decode (encode i) = .ok i := by
  have hfields : Sys2Proof.Laws.WordFields.Statement i := by
    cases i <;> exact Sys2Proof.Laws.WordFields.fields_append ..
  obtain ⟨hop, harg, hrsvd⟩ := hfields
  exact (decode_ok_iff _ i).2 ⟨hop, hrsvd, harg, hi⟩

theorem running_of_encode {s : State} {i : Instr} {st : Option Stage} (hi : i.WellFormed)
    (he : s.eng = .running (encode i) st) : s.running = some i := by
  unfold State.running
  rw [he]
  simp only [decode_encode hi]

theorem busyByte_of_running {s : State} {i : Instr} (h : s.running = some i) (a : Nat) :
    s.busyByte a = (s.writeSpans i).any fun p => p.has a := by
  simp only [State.busyByte, State.busySpans, h]

theorem busyReg_of_running {s : State} {i : Instr} (h : s.running = some i) (r : Reg) :
    s.busyReg r = writesReg i r := by
  simp only [State.busyReg, h]

theorem busyPen_of_running {s : State} {i : Instr} (h : s.running = some i) : s.busyPen = writesPen i := by
  simp only [State.busyPen, h]

/-! ### Bytes outside the write set -/

/-- No span of a list holds the address. -/
def Outside (l : List Span) (a : Nat) : Prop := ∀ p ∈ l, ¬ (p.1 ≤ a ∧ a < p.1 + p.2)

theorem outside_iff {l : List Span} {a : Nat} : (l.any fun p => p.has a) = false ↔ Outside l a := by
  simp [Outside, Span.has]

theorem bitencEffect_byteAt_outside {s : State} {a : Nat} (h : Outside [dataSpan s.layout] a) :
    (bitencEffect s).byteAt a = s.byteAt a := by
  have hdata := h (dataSpan s.layout) (by simp)
  have hd : s.layout.dcwTotal.toNat < 2 ^ 12 := BitVec.isLt _
  simp only [dataSpan, Config.cwBytes] at hdata
  rw [bitencEffect_byteAt, if_neg (by omega)]

theorem rsencEffect_byteAt_outside {s : State} {a : Nat} (hc : layoutCheck false s.layout = none)
    (h : Outside [eccSpan s.layout, genSpan] a) : (rsencEffect s).byteAt a = s.byteAt a := by
  have hecc := h (eccSpan s.layout) (by simp)
  have hgen := h genSpan (by simp)
  obtain ⟨-, -, -, -, -, -, hle, -⟩ := layoutCheck_none hc
  simp only [eccSpan, genSpan, Config.cwBytes, Config.genBytes] at hecc hgen
  rw [rsencEffect_byteAt s hc, if_neg (by omega), if_neg hgen]

/-- R155: the remainder byte is there exactly for a nonzero REM. -/
theorem remainder_length (l : Layout) :
    (if l.remBits = 0 then 0 else 1) = if 0 < l.remBits.toNat then 1 else 0 := by
  by_cases h : l.remBits = 0
  · rw [if_pos h, if_neg (by simp [h])]
  · rw [if_neg h, if_pos (Nat.pos_of_ne_zero fun h0 => h (BitVec.eq_of_toNat_eq h0))]

theorem ileaveEffect_byteAt_outside {s : State} {a : Nat} (hc : layoutCheck true s.layout = none)
    (h : Outside [seqSpan s.layout] a) : (ileaveEffect s).byteAt a = s.byteAt a := by
  have hseq := h (seqSpan s.layout) (by simp)
  obtain ⟨-, -, -, -, -, -, -, hle⟩ := layoutCheck_none hc
  have hle := hle rfl
  simp only [seqSpan, remainder_length, Config.cwBytes] at hseq
  rw [ileaveEffect_byteAt s hc, if_neg (by omega), if_neg]
  rintro ⟨rfl, hr⟩
  rw [if_pos hr] at hseq hle
  omega

theorem mapplyEffect_byteAt_outside {s : State} {a : Nat} (m : BitVec 3) (hv : s.versionOk = true)
    (h : Outside (matrixSpans s) a) : (mapplyEffect s m).byteAt a = s.byteAt a := by
  have hside := side_le s hv
  rw [mapplyEffect_byteAt s m hside, if_neg]
  rintro ⟨hlo, hrow, hcol⟩
  have hmin : min s.side Config.nMax = s.side := Nat.min_eq_left hside
  refine h (moduleAddr ((a - 0x8000) / 177) 0, s.side) ?_ ?_
  · rw [matrixSpans, hmin]
    exact List.mem_map.2 ⟨_, List.mem_range.2 hrow, rfl⟩
  · rw [moduleAddr_eq]
    omega

/-- R96: the spans ENCODE's write set counts under a layout. -/
def encodeSpans (l : Layout) : List Span := [dataSpan l, eccSpan l, genSpan, seqSpan l]

theorem stageEffect_byteAt_outside {s : State} {st : Stage} {a : Nat} (hc : stageCheck s st = none)
    (h : Outside (encodeSpans s.layout) a) : (stageEffect s st).byteAt a = s.byteAt a := by
  have sub : ∀ l : List Span, l ⊆ encodeSpans s.layout → Outside l a := fun l hl p hp => h p (hl hp)
  cases st with
  | cfg => exact byteAt_congr rfl rfl a
  | bitenc => exact bitencEffect_byteAt_outside (sub _ (by simp [encodeSpans]))
  | rsenc => exact rsencEffect_byteAt_outside hc (sub _ (by simp [encodeSpans]))
  | ileave => exact ileaveEffect_byteAt_outside hc (sub _ (by simp [encodeSpans]))

/-- R107: the write set of ENCODE counts the layout the present stage works with. -/
theorem outside_stage {s : State} {a : Nat} (h : Outside (s.writeSpans .encode) a) :
    Outside (encodeSpans s.stageView.layout) a := fun p hp =>
  h p (List.mem_flatMap.2 ⟨s.stageLayout, by simp [State.encodeLayouts], hp⟩)

/-- R96: a command that passes its check writes no byte outside its write set. -/
theorem effectOf_byteAt_outside {s : State} {i : Instr} {a : Nat} (hc : checkOf s i = none)
    (h : Outside (s.writeSpans i) a) : (effectOf s i).byteAt a = s.byteAt a := by
  cases i with
  | bitenc => exact bitencEffect_byteAt_outside h
  | rsenc => exact rsencEffect_byteAt_outside hc h
  | ileave => exact ileaveEffect_byteAt_outside hc h
  | encode => exact (stageEffect_byteAt_outside hc (outside_stage h)).trans (byteAt_congr rfl rfl a)
  | mapplyM m => exact mapplyEffect_byteAt_outside _ (versionOk_of_mapplyCheck hc) h
  | mapplyBest => exact mapplyEffect_byteAt_outside _ (versionOk_of_mapplyCheck hc) h
  | nop | cfg | meval | fmtgenM _ | fmtgenBest | gfmul => exact byteAt_congr rfl rfl a

theorem exec_byteAt_outside {s t : State} {i : Instr} {a : Nat} (hx : exec i s = .next t)
    (h : Outside (s.writeSpans i) a) : t.byteAt a = s.byteAt a := by
  rcases exec_cases hx with ⟨e, op, k, l, -, rfl, -⟩ | ⟨-, hc, st, -, rfl⟩ | ⟨hc, -, rfl⟩
  · exact byteAt_congr rfl rfl a
  · exact (byteAt_congr rfl rfl a).trans (effectOf_byteAt_outside hc h)
  · exact (byteAt_congr rfl rfl a).trans (effectOf_byteAt_outside hc h)

/-! ### Registers outside the write set -/

/-- R96: every command but NOP has VALID in its write set. -/
theorem eq_nop_of_writesReg_valid {i : Instr} (h : writesReg i .valid = false) : i = .nop := by
  cases i with
  | nop => rfl
  | _ => exact nomatch h

/-- R107: ENCODE's write set holds that of its stage CFG. -/
theorem writesReg_cfg_of_encode {r : Reg} (h : writesReg .encode r = false) : writesReg .cfg r = false := by
  revert h
  cases r <;> decide

variable {s t : State} {i : Instr} {r : Reg}

theorem withMem_readReg (s : State) (m : Memory) (r : Reg) : ({ s with mem := m } : State).readReg r = s.readReg r := by
  cases r <;> rfl

/-- R37: the layout shows in its six registers and in ECW_TOTAL alone. -/
theorem withLayout_readReg (l : Layout) (hw : writesReg .cfg r = false) (he : r ≠ .ecwTotal) :
    ({ s with layout := l } : State).readReg r = s.readReg r := by
  cases r with
  | dcwTotal | blkG1 | blkG2 | ecwBlk | remBits | cciWidth => exact nomatch hw
  | ecwTotal => exact absurd rfl he
  | _ => rfl

theorem mapplyEffect_readReg (s : State) (m : BitVec 3) (r : Reg) : (mapplyEffect s m).readReg r = s.readReg r := by
  rw [mapplyEffect_frame]
  exact withMem_readReg s _ r

theorem fmtgenEffect_readReg (m : BitVec 3) (hw : writesReg .fmtgenBest r = false) :
    (fmtgenEffect s m).readReg r = s.readReg r := by
  cases r with
  | fmtWord | verWord => exact nomatch hw
  | _ => rfl

/-- R96: what no stage of ENCODE changes. -/
theorem effectOf_encode_frame (s : State) : effectOf s .encode =
    { s with
      layout := (effectOf s .encode).layout, statBits := (effectOf s .encode).statBits,
      seqLen := (effectOf s .encode).seqLen, seqBits := (effectOf s .encode).seqBits,
      mem := (effectOf s .encode).mem } := by
  simp only [effectOf]
  cases s.encodeStage <;> rfl

/-- R96: a command's effect shows in no register outside its write set but ECW_TOTAL. -/
theorem effectOf_readReg (hw : writesReg i r = false) (he : r ≠ .ecwTotal) :
    (effectOf s i).readReg r = s.readReg r := by
  cases i with
  | nop => rfl
  | cfg => exact withLayout_readReg _ hw he
  | rsenc => exact withMem_readReg s _ r
  | mapplyM m => exact mapplyEffect_readReg s _ r
  | mapplyBest => exact mapplyEffect_readReg s _ r
  | fmtgenM m => exact fmtgenEffect_readReg _ hw
  | fmtgenBest => exact fmtgenEffect_readReg _ hw
  | bitenc =>
    cases r with
    | statBits => exact nomatch hw
    | _ => rfl
  | ileave =>
    cases r with
    | seqLen | seqBits => exact nomatch hw
    | _ => rfl
  | encode =>
    cases r with
    | dcwTotal | blkG1 | blkG2 | ecwBlk | remBits | cciWidth | statBits | seqLen | seqBits => exact nomatch hw
    | ecwTotal => exact absurd rfl he
    | _ => rw [effectOf_encode_frame]; rfl
  | meval =>
    cases r with
    | best => exact nomatch hw
    | _ => rfl
  | gfmul =>
    cases r with
    | gfRes => exact nomatch hw
    | _ => rfl

/-- R98, R184: an error shows in STATUS, ERR_CODE, ERR_INFO and VALID. -/
theorem failed_readReg {op : Byte} {code : BitVec 4} {detail : Byte} {pos : BitVec 16} {chr : Byte} {kept : Valid}
    (hs : r ≠ .status) (hc : r ≠ .errCode) (hi : r ≠ .errInfo) (hv : r ≠ .valid) :
    (s.failed op code detail pos chr kept).readReg r = s.readReg r := by
  cases r with
  | status => exact absurd rfl hs
  | errCode => exact absurd rfl hc
  | errInfo => exact absurd rfl hi
  | valid => exact absurd rfl hv
  | _ => rfl

/-- R98: a success shows in STATUS and, where it changes, in VALID. -/
theorem succeeded_readReg {v : Valid} (hs : r ≠ .status) (hv : r = .valid → v = s.valid) :
    (s.succeeded v).readReg r = s.readReg r := by
  cases r with
  | status => exact absurd rfl hs
  | valid => exact congrArg Valid.word (hv rfl)
  | _ => rfl

/-- R77: a stage of ENCODE that leads to the next shows in no register outside the write set: BUSY stays 1 and the layout
registers, so ECW_TOTAL too, keep their contents. -/
theorem enterStage_readReg (st : Stage) (hb : s.busy = true) (hw : writesReg .encode r = false) :
    ((effectOf s .encode).enterStage st s.layout).readReg r = s.readReg r := by
  rw [effectOf_encode_frame]
  cases r with
  | status =>
    simp only [State.readReg, State.statusWord, hb]
    rfl
  | statBits | seqLen | seqBits => exact nomatch hw
  | _ => rfl

/-- R96: everything a command can do to the registers outside its write set. -/
theorem exec_readReg_outside (hb : s.busy = true) (hx : exec i s = .next t) (hw : writesReg i r = false)
    (hs : r ≠ .status) (hc : r ≠ .errCode) (hi : r ≠ .errInfo) (he : r ≠ .ecwTotal) : t.readReg r = s.readReg r := by
  rcases exec_cases hx with ⟨e, op, k, l, hcheck, rfl, hone, -⟩ | ⟨rfl, -, st, -, rfl⟩ | ⟨-, -, rfl⟩
  · have hv : r ≠ .valid := by
      rintro rfl
      obtain rfl := eq_nop_of_writesReg_valid hw
      exact nomatch hcheck
    refine (failed_readReg hs hc hi hv).trans ?_
    by_cases hi : i = .encode
    · subst hi
      exact withLayout_readReg l (writesReg_cfg_of_encode hw) he
    · obtain ⟨rfl, -, -⟩ := hone hi
      rfl
  · exact enterStage_readReg st hb hw
  · refine (succeeded_readReg hs ?_).trans (effectOf_readReg hw he)
    rintro rfl
    obtain rfl := eq_nop_of_writesReg_valid hw
    exact (plus_empty _).trans (minus_empty _)

/-! ### PEN, and the stages of ENCODE that do not end it -/

theorem exec_pen_outside (hx : exec i s = .next t) (hp : writesPen i = false) : t.pen = s.pen := by
  have hi : i ≠ .meval := by
    rintro rfl
    exact nomatch hp
  rcases exec_cases hx with ⟨e, op, k, l, -, rfl, -⟩ | ⟨-, -, st, -, rfl⟩ | ⟨-, -, rfl⟩
  · rfl
  · exact effectOf_pen s hi
  · exact effectOf_pen s hi

/-- R98: only a stage of ENCODE that leads to the next leaves the engine busy. -/
theorem eq_enterStage_of_busy (hx : exec i s = .next t) (hb : t.busy = true) :
    i = .encode ∧ ∃ st, t = (effectOf s .encode).enterStage st s.layout := by
  rcases exec_cases hx with ⟨e, op, k, l, -, rfl, -⟩ | ⟨rfl, -, st, -, rfl⟩ | ⟨-, -, rfl⟩
  · exact nomatch hb
  · exact ⟨rfl, st, rfl⟩
  · exact nomatch hb

end Sys2Proof.Machine

open Sys2Proof Sys2Proof.Machine

/-- Settles O56: the four clauses, each by the ways a command can end. -/
theorem commandsChangeOnlyTheirWriteSet : Obligations.CommandsChangeOnlyTheirWriteSet := by
  intro s t i st hi he hx
  have hrun := running_of_encode hi he
  have hb := busy_of_running he
  simp only [busyByte_of_running hrun, busyReg_of_running hrun, busyPen_of_running hrun]
  refine ⟨fun a ha => exec_byteAt_outside hx (outside_iff.1 ha), fun r => exec_readReg_outside hb hx,
    exec_pen_outside hx, fun hbt => ?_⟩
  obtain ⟨rfl, st', rfl⟩ := eq_enterStage_of_busy hx hbt
  exact ⟨rfl, fun r hw => enterStage_readReg st' hb hw⟩
end

section
/-! PROOFS. Command words: decoder and encoder agree, the 26 legal words, and the check an illegal word fails
(30_encoding.md R83-R90). -/

namespace Sys2Proof

/-! ### The encoder's words (R83, R84, R90) -/

/-- R83, R90: the fields of a command's word. -/
theorem encode_fields (i : Instr) : Laws.WordFields.Statement i := Laws.WordFields.fields_append ..

/-- R83, R84: a word decodes to a command exactly when the command is well-formed and the word is its own. -/
theorem decode_ok_iff_encode (w : Word) (i : Instr) : decode w = .ok i ↔ i.WellFormed ∧ encode i = w := by
  obtain ⟨hop, harg, hrsvd⟩ := encode_fields i
  rw [decode_ok_iff]
  constructor
  · rintro ⟨hop', hrsvd', harg', hwf⟩
    exact ⟨hwf, word_ext (hop.trans hop'.symm) (harg.trans harg'.symm) (hrsvd.trans hrsvd'.symm)⟩
  · rintro ⟨hwf, rfl⟩
    exact ⟨hop, hrsvd, harg, hwf⟩

/-- R83: a command's word as a number: RSVD is 0, ARG stands above the eight bits of OP. -/
theorem encode_toNat (i : Instr) : (encode i).toNat = 0x100 * i.arg.toNat + i.opcode.code.toNat := by
  rw [encode, toNat_append_eq_add, toNat_append_eq_add]
  simp

/-- R84: the word of a command with an explicit mask. -/
theorem encode_of_mask {i : Instr} {m : Nat} (harg : i.arg = BitVec.ofNat 4 m) (h : m < 8) :
    encode i = BitVec.ofNat 32 (i.opcode.code.toNat + 0x100 * m) := by
  apply BitVec.eq_of_toNat_eq
  have := i.opcode.code.isLt
  rw [encode_toNat, harg, BitVec.toNat_ofNat, BitVec.toNat_ofNat]
  omega

theorem encode_mapplyM {m : Nat} (h : m < 8) : encode (.mapplyM m) = BitVec.ofNat 32 (0x11 + 0x100 * m) :=
  encode_of_mask rfl h

theorem encode_fmtgenM {m : Nat} (h : m < 8) : encode (.fmtgenM m) = BitVec.ofNat 32 (0x12 + 0x100 * m) :=
  encode_of_mask rfl h

/-! ### The legal words (R89) -/

/-- The commands that take no explicit mask: eight opcodes without ARG and the two BEST forms. -/
def plainCommands : List Instr :=
  [.nop, .cfg, .bitenc, .rsenc, .ileave, .encode, .meval, .gfmul, .mapplyBest, .fmtgenBest]

/-- R89: all well-formed commands. -/
def commands : List Instr :=
  plainCommands ++ (List.range 8).map .mapplyM ++ (List.range 8).map .fmtgenM

theorem mem_commands_iff (i : Instr) : i ∈ commands ↔ i.WellFormed := by
  cases i <;> simp [commands, plainCommands, Instr.WellFormed, Instr.wellFormed, maskOk]

/-- R89: a legal word is the word of a command. -/
theorem mem_map_encode_commands_iff (w : Word) : w ∈ commands.map encode ↔ ∃ i, decode w = .ok i := by
  simp only [List.mem_map, mem_commands_iff, decode_ok_iff_encode]

theorem plainCommands_words :
    plainCommands.map encode = [0x00, 0x01, 0x02, 0x03, 0x04, 0x05, 0x10, 0x20, 0x811, 0x812] := by decide

/-- R89: the eight words of a form with an explicit mask. -/
theorem mem_map_encode_masks_iff (w : Word) {form : Nat → Instr} {word : Nat → Word}
    (h : ∀ {m}, m < 8 → encode (form m) = word m) :
    w ∈ ((List.range 8).map form).map encode ↔ ∃ m : Fin 8, w = word m := by
  rw [List.map_map, List.mem_map]
  constructor
  · rintro ⟨m, hm, rfl⟩
    have hm := List.mem_range.1 hm
    exact ⟨⟨m, hm⟩, h hm⟩
  · rintro ⟨m, rfl⟩
    exact ⟨m, List.mem_range.2 m.isLt, h m.isLt⟩

/-- R90: the words of the commands, by form. -/
theorem mem_map_encode_commands_iff_form (w : Word) : w ∈ commands.map encode ↔
    w ∈ plainCommands.map encode ∨
      ∃ m : Fin 8, w = BitVec.ofNat 32 (0x11 + 0x100 * m.val) ∨ w = BitVec.ofNat 32 (0x12 + 0x100 * m.val) := by
  rw [commands, List.map_append, List.map_append, List.mem_append, List.mem_append,
    mem_map_encode_masks_iff w encode_mapplyM, mem_map_encode_masks_iff w encode_fmtgenM, or_assoc, exists_or]

/-! ### The four checks (R86) -/

variable {w : Word}

/-- R85, R87: the numbers of the assigned opcodes. -/
def opcodeNumbers : List Nat := [0x00, 0x01, 0x02, 0x03, 0x04, 0x05, 0x10, 0x11, 0x12, 0x20]

theorem opcode_number_mem (op : Opcode) : op.code.toNat ∈ opcodeNumbers := by cases op <;> decide

/-- R84: the opcodes that take a mask. -/
theorem opcode_number_takesMask (op : Opcode) : op.code.toNat ∈ [0x11, 0x12] ↔ op = .mapply ∨ op = .fmtgen := by
  cases op <;> decide

theorem ofCode_eq_none_of_not_mem {b : Byte} (h : b.toNat ∉ opcodeNumbers) : Opcode.ofCode b = none := by
  cases hc : Opcode.ofCode b with
  | none => rfl
  | some op => exact absurd ((ofCode_eq_some_iff b op).1 hc ▸ opcode_number_mem op) h

theorem exists_ofCode_of_mem {b : Byte} (h : b.toNat ∈ opcodeNumbers) : ∃ op, Opcode.ofCode b = some op := by
  unfold Opcode.ofCode
  simp only [opcodeNumbers, List.mem_cons, List.not_mem_nil, or_false] at h
  rcases h with h | h | h | h | h | h | h | h | h | h <;> rw [h] <;> exact ⟨_, rfl⟩

/-- R86: what decides once the opcode is known. -/
theorem decode_of_opcode_mem (h : w.toNat % 256 ∈ opcodeNumbers) : ∃ op : Opcode, op.code.toNat = w.toNat % 256 ∧
    decode w = if rsvdField w = 0 then decodeArg w op else .error .reservedBits := by
  rw [← opField_toNat] at h ⊢
  obtain ⟨op, hop⟩ := exists_ofCode_of_mem h
  refine ⟨op, by rw [(ofCode_eq_some_iff _ op).1 hop], ?_⟩
  rw [decode, hop]

theorem rsvdField_eq_zero_iff : rsvdField w = 0 ↔ w.toNat / 4096 = 0 := by
  rw [← rsvdField_toNat, ← BitVec.toNat_inj]
  rfl

theorem argField_eq_zero_iff : argField w = 0 ↔ w.toNat / 256 % 16 = 0 := by
  rw [← argField_toNat, ← BitVec.toNat_inj]
  rfl

theorem argMask_eq_zero_iff : argMask w = 0 ↔ w.toNat / 256 % 16 % 8 = 0 := by
  rw [← argField_toNat, ← argMask_of_argField, ← BitVec.toNat_inj]
  rfl

/-- R86, first check. -/
theorem decode_of_unknownOpcode (h : w.toNat % 256 ∉ opcodeNumbers) : decode w = .error .unknownOpcode := by
  rw [← opField_toNat] at h
  rw [decode, ofCode_eq_none_of_not_mem h]

/-- R86, second check. -/
theorem decode_of_reservedBits (hop : w.toNat % 256 ∈ opcodeNumbers) (h : w.toNat / 4096 ≠ 0) :
    decode w = .error .reservedBits := by
  obtain ⟨op, -, hd⟩ := decode_of_opcode_mem hop
  rw [hd, if_neg (mt rsvdField_eq_zero_iff.1 h)]

/-- R86, third check: an opcode that takes no argument. -/
theorem decode_of_plain (hop : w.toNat % 256 ∈ opcodeNumbers) (hr : w.toNat / 4096 = 0)
    (hm : w.toNat % 256 ∉ [0x11, 0x12]) :
    ∃ i, decode w = if w.toNat / 256 % 16 = 0 then .ok i else .error .unexpectedArg := by
  obtain ⟨op, hn, hd⟩ := decode_of_opcode_mem hop
  rw [← hn, opcode_number_takesMask] at hm
  rw [hd, if_pos (rsvdField_eq_zero_iff.2 hr)]
  simp only [← argField_eq_zero_iff]
  cases op with
  | mapply => exact absurd (.inl rfl) hm
  | fmtgen => exact absurd (.inr rfl) hm
  | _ => exact ⟨_, rfl⟩

theorem maskArgument_eq (explicit : Nat → Instr) (best : Instr) : ∃ i, maskArgument w explicit best =
    if 8 ≤ w.toNat / 256 % 16 ∧ w.toNat / 256 % 16 % 8 ≠ 0 then .error .bestWithMask else .ok i := by
  simp only [maskArgument, argBest_eq, argMask_eq_zero_iff, decide_eq_true_eq]
  by_cases hb : 8 ≤ w.toNat / 256 % 16
  · by_cases hz : w.toNat / 256 % 16 % 8 = 0
    · exact ⟨best, by rw [if_pos hb, if_pos hz, if_neg fun h => h.2 hz]⟩
    · exact ⟨best, by rw [if_pos hb, if_neg hz, if_pos ⟨hb, hz⟩]⟩
  · exact ⟨explicit (argMask w).toNat, by rw [if_neg hb, if_neg fun h => hb h.1]⟩

/-- R86, fourth check: an opcode that takes a mask. -/
theorem decode_of_takesMask (hop : w.toNat % 256 ∈ opcodeNumbers) (hr : w.toNat / 4096 = 0)
    (hm : w.toNat % 256 ∈ [0x11, 0x12]) : ∃ i, decode w =
      if 8 ≤ w.toNat / 256 % 16 ∧ w.toNat / 256 % 16 % 8 ≠ 0 then .error .bestWithMask else .ok i := by
  obtain ⟨op, hn, hd⟩ := decode_of_opcode_mem hop
  rw [← hn, opcode_number_takesMask] at hm
  rw [hd, if_pos (rsvdField_eq_zero_iff.2 hr)]
  rcases hm with rfl | rfl
  · exact maskArgument_eq .mapplyM .mapplyBest
  · exact maskArgument_eq .fmtgenM .fmtgenBest

end Sys2Proof

namespace Sys2Proof.Machine

/-! ### The accepted word performed (R86, R97) -/

theorem performWord_of_ok {w : Word} {i : Instr} (h : decode w = .ok i) (s : State) : performWord w s = exec i s := by
  rw [performWord, h]

/-- R86, R184: an illegal word records its OP field and the detail of the check it failed. -/
theorem performWord_of_error {w : Word} {e : Illegal} (h : decode w = .error e) (s : State) :
    performWord w s = .next (s.failed (opField w) 5 e.detail 0 0 s.valid) := by
  rw [performWord, h, ← performIllegal_eq]

theorem opField_eq_ofNat (w : Word) : opField w = BitVec.ofNat 8 (w.toNat % 256) := by
  rw [← opField_toNat, BitVec.ofNat_toNat, BitVec.setWidth_eq]

theorem opField_eq_setWidth (w : Word) : opField w = w.setWidth 8 := by
  apply BitVec.eq_of_toNat_eq
  rw [opField_toNat, BitVec.toNat_setWidth]

/-- Log 12: the state that acceptance of a word reaches when its engine step is the next one. -/
theorem withFetchWord_eng (s : State) (w : Word) : (s.withFetchWord 32 w.toNat).eng = .running w (firstStage w) := by
  rw [State.withFetchWord, Nat.mod_eq_of_lt w.isLt, BitVec.ofNat_toNat, BitVec.setWidth_eq]
  rfl

/-- R97: the step from there performs the word. -/
theorem step_withFetchWord (s : State) (w : Word) :
    step (s.withFetchWord 32 w.toNat) = performWord w (s.withFetchWord 32 w.toNat) :=
  have he := withFetchWord_eng s w
  step_running he (hostMoves_of_waiting (busy_of_running he) (.inr rfl)) rfl

end Sys2Proof.Machine

open Sys2Proof Sys2Proof.Machine

/-- Settles O6: a word is determined by its fields, and the encoder's word has those of its command. -/
theorem decodeAndEncodeAgree : Obligations.DecodeAndEncodeAgree := decode_ok_iff_encode

/-- Settles O7: the legal words are those of `commands`. -/
theorem exactlyTwentySixLegalWords : Obligations.ExactlyTwentySixLegalWords := by
  refine ⟨commands.map encode, by decide, by decide, fun w => ?_, mem_map_encode_commands_iff⟩
  rw [mem_map_encode_commands_iff_form, plainCommands_words]

/-- Settles O8: the checks in their order, one lemma each. -/
theorem illegalWordsRecordTheirDetail : Obligations.IllegalWordsRecordTheirDetail := by
  intro w s
  have hbad : ∀ e : Illegal, decode w = .error e →
      performWord w s = .next (s.failed (BitVec.ofNat 8 (w.toNat % 256)) 5 e.detail 0 0 s.valid) := fun e he =>
    opField_eq_ofNat w ▸ performWord_of_error he s
  have hgood : ∀ i, decode w = .ok i → ∃ i, decode w = .ok i ∧ performWord w s = exec i s := fun i hi =>
    ⟨i, hi, performWord_of_ok hi s⟩
  dsimp only
  split_ifs with hop hr hplain hbest
  · exact hbad _ (decode_of_reservedBits hop hr)
  · obtain ⟨hm, harg⟩ := hplain
    obtain ⟨i, hd⟩ := decode_of_plain hop (not_not.1 hr) hm
    exact hbad _ (hd.trans (if_neg harg))
  · obtain ⟨hm, harg⟩ := hbest
    obtain ⟨i, hd⟩ := decode_of_takesMask hop (not_not.1 hr) hm
    exact hbad _ (hd.trans (if_pos harg))
  · by_cases hm : w.toNat % 256 ∈ [0x11, 0x12]
    · obtain ⟨i, hd⟩ := decode_of_takesMask hop (not_not.1 hr) hm
      exact hgood i (hd.trans (if_neg fun harg => hbest ⟨hm, harg⟩))
    · obtain ⟨i, hd⟩ := decode_of_plain hop (not_not.1 hr) hm
      exact hgood i (hd.trans (if_pos (by_contra fun harg => hplain ⟨hm, harg⟩)))
  · exact hbad _ (decode_of_unknownOpcode hop)

/-- Settles O5: the words by evaluating the encoder, the explicit masks for every mask. -/
theorem commandWordsDecode : Obligations.CommandWordsDecode := by
  have both : ∀ {w : Word} {i : Instr}, i.WellFormed → encode i = w → decode w = .ok i ∧ encode i = w := fun hi hw =>
    ⟨(decode_ok_iff_encode _ _).2 ⟨hi, hw⟩, hw⟩
  refine ⟨fun p hp => ?_, fun m hm => ?_, .bestWithMask, ?_, rfl⟩
  · have hwords : p.2.WellFormed ∧ encode p.2 = p.1 := by
      revert p
      decide
    exact both hwords.1 hwords.2
  · have hok : maskOk m = true := decide_eq_true hm
    obtain ⟨hd, he⟩ := both (i := .mapplyM m) hok (encode_mapplyM hm)
    exact ⟨hd, he, both (i := .fmtgenM m) hok (encode_fmtgenM hm)⟩
  · rfl

/-- Settles O9: the engine's step performs the accepted word. -/
theorem stepRunsTheDecodedCommand : Obligations.StepRunsTheDecodedCommand := by
  refine ⟨fun s w st he h0 hm => ?_, fun s i hi => ?_⟩
  · rw [step_running he hm h0]
    refine ⟨fun i hd => performWord_of_ok hd s, fun i hi hw => ?_, fun e hd => ?_⟩
    · exact performWord_of_ok (hw ▸ decode_encode hi) s
    · exact opField_eq_setWidth w ▸ performWord_of_error hd s
  · exact ⟨withFetchWord_eng s _, (step_withFetchWord s _).trans (performWord_of_ok (decode_encode hi) _)⟩
end

section
/-! PROOFS. The write set of every command, span by span (40_control.md R96; 70_reset_and_hazards.md R204, R208). -/

namespace Sys2Proof.Machine

/-! ### The spans -/

theorem has_iff (p : Span) (a : Nat) : p.has a = true ↔ p.1 ≤ a ∧ a < p.1 + p.2 := by
  simp [Span.has]

/-- R96: DATA[0..D−1]; D has twelve bits, so the set never reaches the end of DATA. -/
theorem dataSpan_has_iff (l : Layout) (a : Nat) :
    (dataSpan l).has a = true ↔ 0x4000 ≤ a ∧ a < 0x4000 + l.dcwTotal.toNat := by
  have := l.dcwTotal.isLt
  simp only [has_iff, dataSpan, dataBase, Config.cwBytes]
  omega

/-- R96: ECC[0..nb·E−1], cut at the end of ECC (log 6). -/
theorem eccSpan_has_iff (l : Layout) (a : Nat) : (eccSpan l).has a = true ↔
    0x5000 ≤ a ∧ a < 0x5000 + (l.g1.count.toNat + l.g2.count.toNat) * l.ecwBlk.toNat ∧ a < 0x6000 := by
  simp only [has_iff, eccSpan, eccBase, Config.cwBytes, Layout.eccTotal, Layout.nb]
  omega

theorem genSpan_has_iff (a : Nat) : genSpan.has a = true ↔ 0x400 ≤ a ∧ a < 0x420 := has_iff ..

/-- R96: SEQ[0..SEQ_LEN], cut at the end of SEQ (log 6). -/
theorem seqSpan_has_iff (l : Layout) (a : Nat) : (seqSpan l).has a = true ↔
    0x6000 ≤ a ∧ a < 0x6000 + (l.dcwTotal.toNat + (l.g1.count.toNat + l.g2.count.toNat) * l.ecwBlk.toNat +
      if l.remBits = 0 then 0 else 1) ∧ a < 0x7000 := by
  simp only [has_iff, seqSpan, seqBase, Config.cwBytes, Layout.seqTotal, Layout.eccTotal, Layout.nb]
  omega

/-- R96: MAT(r, c) for r, c < N, cut at the rows and columns of MATRIX (log 6). -/
theorem matrixSpans_has_iff (s : State) (a : Nat) : ((matrixSpans s).any fun p => p.has a) = true ↔
    ∃ r c, r < s.side ∧ c < s.side ∧ r < 177 ∧ c < 177 ∧ a = 0x8000 + 177 * r + c := by
  simp only [List.any_eq_true, matrixSpans, List.mem_map, List.mem_range, Config.nMax]
  constructor
  · rintro ⟨_, ⟨r, hr, rfl⟩, h⟩
    rw [has_iff, moduleAddr_eq] at h
    exact ⟨r, a - (0x8000 + 177 * r), by omega, by omega, by omega, by omega, by omega⟩
  · rintro ⟨r, c, hr, hc, hr', hc', rfl⟩
    refine ⟨_, ⟨r, by omega, rfl⟩, ?_⟩
    rw [has_iff, moduleAddr_eq]
    omega

/-! ### ENCODE's write set (log 7) -/

theorem encodeSpans_has_iff (l : Layout) (a : Nat) : ((encodeSpans l).any fun p => p.has a) = true ↔
    (dataSpan l).has a = true ∨ (eccSpan l).has a = true ∨ genSpan.has a = true ∨ (seqSpan l).has a = true := by
  simp [encodeSpans]

theorem config_legal_iff (c : ConfigReg) : c.legal = true ↔
    1 ≤ c.version.toNat ∧ c.version.toNat ≤ 40 ∧ c.mode.toNat ≤ 2 ∧ c.ecLevel.toNat ≤ 3 := by
  simp only [ConfigReg.legal, Bool.and_eq_true, decide_eq_true_eq, and_assoc]
  rfl

/-- R107: the layout of the present stage, by the stage ENG names. -/
theorem stageLayout_eq {s : State} {w : Word} {st : Option Stage} (he : s.eng = .running w st) :
    s.stageLayout = if st = none ∨ st = some .cfg then s.layout else s.encodeLayout := by
  unfold State.stageLayout State.encodeStage
  rw [he]
  cases st with
  | none => rfl
  | some st => cases st <;> rfl

theorem encode_writeSpans_has_iff (s : State) (a : Nat) : ((s.writeSpans .encode).any fun p => p.has a) = true ↔
    ((encodeSpans s.layout).any fun p => p.has a) = true ∨ ((encodeSpans s.stageLayout).any fun p => p.has a) = true ∨
      (s.config.legal = true ∧ ((encodeSpans (romLayout s.config)).any fun p => p.has a) = true) := by
  show (s.encodeLayouts.flatMap encodeSpans).any _ = true ↔ _
  rw [List.any_flatMap, State.encodeLayouts]
  cases s.config.legal <;> simp

/-! ### No command running (log 17) -/

theorem running_of_illegal {s : State} {w : Word} {st : Option Stage} {e : Illegal} (he : s.eng = .running w st)
    (hd : decode w = .error e) : s.running = none := by
  rw [State.running, he]
  simp only [hd]

theorem busyReg_of_none {s : State} (h : s.running = none) (r : Reg) : s.busyReg r = false := by
  simp only [State.busyReg, h]

theorem busyPen_of_none {s : State} (h : s.running = none) : s.busyPen = false := by
  simp only [State.busyPen, h]

theorem busyByte_of_none {s : State} (h : s.running = none) (a : Nat) : s.busyByte a = false := by
  simp only [State.busyByte, State.busySpans, h, List.any_nil]

end Sys2Proof.Machine

open Sys2Proof Sys2Proof.Machine

/-- Settles O60: the registers by the rows of `writesReg`, the bytes span by span. -/
theorem writeSetsOfTheCommands : Obligations.WriteSetsOfTheCommands := by
  intro s
  dsimp only
  refine ⟨fun i st hi he => ?_, fun h => ?_⟩
  · have hrun := running_of_encode hi he
    simp only [busyByte_of_running hrun, busyReg_of_running hrun, busyPen_of_running hrun]
    refine ⟨fun r => ?_, ?_, fun a => ?_⟩
    · cases i <;> simp [writesReg, or_assoc]
    · cases i <;> simp [writesPen]
    · cases i with
      | bitenc => simp [State.writeSpans, dataSpan_has_iff]
      | rsenc => simp [State.writeSpans, eccSpan_has_iff, genSpan_has_iff]
      | ileave => simp [State.writeSpans, seqSpan_has_iff]
      | mapplyM m => exact matrixSpans_has_iff s a
      | mapplyBest => exact matrixSpans_has_iff s a
      | encode =>
        rw [encode_writeSpans_has_iff, stageLayout_eq he, config_legal_iff]
        simp only [encodeSpans_has_iff, dataSpan_has_iff, eccSpan_has_iff, genSpan_has_iff, seqSpan_has_iff]
      | nop | cfg | meval | fmtgenM _ | fmtgenBest | gfmul => simp [State.writeSpans]
  · have hrun : s.running = none := by
      rcases h with he | ⟨w, st, e, he, hd⟩
      · exact running_of_not_busy ((not_busy_iff s).2 he)
      · exact running_of_illegal he hd
    exact ⟨busyReg_of_none hrun, busyPen_of_none hrun, busyByte_of_none hrun⟩
end

section
/-! PROOFS. NOP, and what a failed command leaves (40_control.md R98, R99, R103; 60_exceptions.md R181-R185). -/

namespace Sys2Proof.Machine

/-! ### NOP (R103) -/

theorem exec_nop (s : State) : exec .nop s = .next (s.succeeded s.valid) := by
  have hv : (s.valid.minus (clearSet .nop)).plus (setSet .nop) = s.valid := (plus_empty _).trans (minus_empty _)
  rw [exec_eq_perform s (by decide), checkOf, perform_none, Instr.opcode, effectOf, hv]

/-- Bit 1 of a word of bits is set by an OR with 2. -/
theorem wordOfBits_set_one (a b : Bool) (l : List Bool) :
    wordOfBits (a :: true :: l) = wordOfBits (a :: b :: l) ||| 2 := by
  have hb : (((if b then 1 else 0 : Word) <<< 1) ||| 2) = (1 : Word) <<< 1 := by cases b <;> rfl
  simp only [wordOfBits, BitVec.shiftLeft_or_distrib, if_true, ← hb]
  ac_rfl

/-- R23: DONE is bit 1 of STATUS. -/
theorem statusWord_of_done {s t : State} (hb : t.busy = s.busy) (hs : t.status = { s.status with done := true }) :
    t.statusWord = s.statusWord ||| 2 := by
  rw [State.statusWord, hb, hs]
  exact wordOfBits_set_one ..

/-! ### The error classes of the checks (R181, R183) -/

/-- A check raises only the classes 1 to 4 of R181; ILLEGAL_COMMAND is the decoder's. -/
def RaisesOneToFour (check : Option CmdError) : Prop :=
  ∀ e, check = some e → 1 ≤ e.cls.code.toNat ∧ e.cls.code.toNat ≤ 4

theorem raises_none : RaisesOneToFour none := nofun

theorem raises_some {e : CmdError} (h : e.cls ≠ .illegalCommand) : RaisesOneToFour (some e) := by
  rintro _ ⟨⟩
  revert h
  cases e.cls <;> decide

/-- One check of a chain. -/
theorem raises_ite {c : Prop} [Decidable c] {a b : Option CmdError} (ha : RaisesOneToFour a) (hb : RaisesOneToFour b) :
    RaisesOneToFour (if c then a else b) := by
  split
  · exact ha
  · exact hb

theorem raises_invalidParameter (d : Byte) : RaisesOneToFour (some (invalidParameter d)) := raises_some nofun

theorem raises_internalConsistency (d : Byte) : RaisesOneToFour (some (internalConsistency d)) := raises_some nofun

theorem raises_capacityError (d : Byte) (req : Nat) : RaisesOneToFour (some (capacityError d req)) := raises_some nofun

theorem cfgCheck_raises (s : State) : RaisesOneToFour (cfgCheck s) :=
  raises_ite (raises_invalidParameter 1) <| raises_ite (raises_invalidParameter 2) <|
    raises_ite (raises_invalidParameter 3) raises_none

theorem bitencCheck_raises (s : State) : RaisesOneToFour (bitencCheck s) := by
  refine raises_ite (raises_invalidParameter 2) <| raises_ite (raises_invalidParameter 4) <|
    raises_ite (raises_internalConsistency 1) <| raises_ite (raises_internalConsistency 2) ?_
  split
  · exact raises_some nofun
  · exact raises_ite (raises_capacityError 1 _) <| raises_ite (raises_capacityError 2 _) raises_none

theorem layoutCheck_raises (ileave : Bool) (l : Layout) : RaisesOneToFour (layoutCheck ileave l) :=
  raises_ite (raises_internalConsistency 3) <| raises_ite (raises_internalConsistency 4) <|
    raises_ite (raises_internalConsistency 5) <| raises_ite (raises_internalConsistency 6) <|
    raises_ite (raises_internalConsistency 7) <| raises_ite (raises_internalConsistency 8) <|
    raises_ite (raises_internalConsistency 9) raises_none

theorem mevalCheck_raises (s : State) : RaisesOneToFour (mevalCheck s) :=
  raises_ite raises_none (raises_invalidParameter 1)

theorem mapplyCheck_raises (s : State) (op : MaskOperand) : RaisesOneToFour (mapplyCheck s op) :=
  raises_ite (raises_invalidParameter 1) <| raises_ite (raises_invalidParameter 5) raises_none

theorem fmtgenCheck_raises (s : State) (op : MaskOperand) : RaisesOneToFour (fmtgenCheck s op) :=
  raises_ite (raises_invalidParameter 1) <| raises_ite (raises_invalidParameter 3) <|
    raises_ite (raises_invalidParameter 5) raises_none

theorem stageCheck_raises (s : State) (st : Stage) : RaisesOneToFour (stageCheck s st) := by
  cases st with
  | cfg => exact cfgCheck_raises s
  | bitenc => exact bitencCheck_raises s
  | rsenc => exact layoutCheck_raises false s.layout
  | ileave => exact layoutCheck_raises true s.layout

theorem checkOf_raises (s : State) (i : Instr) : RaisesOneToFour (checkOf s i) := by
  cases i with
  | nop | gfmul => exact raises_none
  | cfg => exact cfgCheck_raises s
  | bitenc => exact bitencCheck_raises s
  | rsenc => exact layoutCheck_raises false s.layout
  | ileave => exact layoutCheck_raises true s.layout
  | encode => exact stageCheck_raises s.stageView s.encodeStage
  | meval => exact mevalCheck_raises s
  | mapplyM m => exact mapplyCheck_raises s (.explicit m)
  | mapplyBest => exact mapplyCheck_raises s .best
  | fmtgenM m => exact fmtgenCheck_raises s (.explicit m)
  | fmtgenBest => exact fmtgenCheck_raises s .best

/-! ### A command that fails (R184, R185) -/

theorem effectOf_errCode (s : State) (i : Instr) : (effectOf s i).errCode = s.errCode := by rw [effectOf_frame]

/-- R107: a stage after CFG sees the engine's working copy of the layout. -/
theorem stageView_eq_ite (s : State) :
    s.stageView = if s.encodeStage = .cfg then s else { s with layout := s.encodeLayout } := by
  unfold State.stageView State.stageLayout
  cases s.encodeStage <;> rfl

end Sys2Proof.Machine

open Sys2Proof Sys2Proof.Machine

/-- Settles O25: NOP has no check, no effect and empty VALID sets. -/
theorem nopOnlyCompletes : Obligations.NopOnlyCompletes := by
  refine ⟨exec_nop, fun s hb hf => ⟨_, exec_nop _, ?_⟩⟩
  rw [transact_write_cmd 0 hb, if_neg (by simp [hf])]
  exact ⟨rfl, rfl, statusWord_of_done hb.symm rfl⟩

/-- Settles O23: only the failure of the command's check records an error. -/
theorem failedCommandWritesNothing : Obligations.FailedCommandWritesNothing := by
  intro i s t h0 hx hne u
  rcases exec_cases hx with ⟨e, op, k, l, hc, rfl, hone, hencode⟩ | ⟨-, -, st, -, rfl⟩ | ⟨-, -, rfl⟩
  · have hu : ({ s with layout := l } : State) = u := by
      by_cases hi : i = .encode
      · obtain ⟨rfl, -, -⟩ := hencode hi
        exact (stageView_eq_ite s).trans (by simp only [u, hi, true_and, ite_not])
      · obtain ⟨rfl, -, -⟩ := hone hi
        exact (if_neg fun h => hi h.1).symm
    obtain ⟨hlo, hhi⟩ := checkOf_raises s i e hc
    exact ⟨congrArg (State.failed · op _ _ _ _ k) hu, hlo, hhi, fun hi => (hencode hi).2, fun hi => (hone hi).2⟩
  · exact absurd ((effectOf_errCode s i).trans h0) hne
  · exact absurd ((effectOf_errCode s i).trans h0) hne
end

section
/-! PROOFS. ENCODE stage by stage, and ENCODE as the pipeline of its four commands (40_control.md R97-R99, R107;
70_reset_and_hazards.md R213). -/

namespace Sys2Proof.Machine

variable {s t u p x : State} {w : Word} {st : Stage}

/-! ### One stage (R107) -/

theorem stageView_of_running (he : s.eng = .running w (some st)) :
    s.stageView = if st = .cfg then s else { s with layout := s.encodeLayout } := by
  rw [stageView_eq_ite, encodeStage_of_running he]

theorem exec_encode_of_running (he : s.eng = .running w (some st)) :
    exec .encode s = .next (s.performStage st (stageCheck s.stageView st) (stageEffect s.stageView st)) := by
  rw [exec_encode, encodeStage_of_running he]

theorem performStage_next {st' : Stage} (h : st.next = some st') (u : State) :
    s.performStage st none u = u.enterStage st' s.layout := by
  simp only [State.performStage, h]

theorem performStage_last (u : State) :
    s.performStage .ileave none u = u.succeeded ((u.valid.minus (clearSet .encode)).plus (setSet .encode)) := rfl

/-- R99: the bits an error of each stage leaves. -/
theorem plus_earlierSet (v : Valid) : v.plus Stage.cfg.earlierSet = v ∧
    v.plus Stage.bitenc.earlierSet = { v with cfg := true } ∧
    v.plus Stage.rsenc.earlierSet = { v with cfg := true, data := true } ∧
    v.plus Stage.ileave.earlierSet = { v with cfg := true, data := true, ecc := true } := by
  simp [Valid.plus, Stage.earlierSet]

/-- R99: a completed ENCODE has set its four bits, whatever they were. -/
theorem encode_bits (v : Valid) :
    (v.minus (clearSet .encode)).plus (setSet .encode) = { v with cfg := true, data := true, ecc := true, seq := true } := by
  simp [Valid.minus, Valid.plus, clearSet, setSet]

/-! ### Runs -/

/-- Some number of steps leads from one state to another. -/
def Reaches (s t : State) : Prop := ∃ n, Host.Core.run Sys2Proof.core n s = .next t

theorem Reaches.refl (s : State) : Reaches s s := ⟨0, rfl⟩

theorem Reaches.head (h : step s = .next t) : Reaches t u → Reaches s u
  | ⟨n, hn⟩ => ⟨n + 1, run_succ h hn⟩

theorem reaches_of_step (h : step s = .next t) : Reaches s t := .head h (.refl t)

theorem Reaches.trans (h : Reaches s t) (h' : Reaches t u) : Reaches s u := by
  obtain ⟨n, hn⟩ := h
  induction n generalizing s with
  | zero =>
    obtain rfl : s = t := by injection hn
    exact h'
  | succ n ih =>
    obtain ⟨s', hs⟩ := step_answers s
    have hs' : Sys2Proof.core.step s = .next s' := hs
    simp only [Host.Core.run, hs'] at hn
    exact .head hs (ih hn)

/-! ### ENCODE and its four commands side by side (R107)

ENCODE at a stage is compared with the state that the commands of the stages before it, performed on their own, have
left: the stage sees that state but for fields that no command of a stage reads. -/

/-- The command of a stage's name. -/
def Stage.command : Stage → Instr
  | .cfg => .cfg
  | .bitenc => .bitenc
  | .rsenc => .rsenc
  | .ileave => .ileave

/-- What the command of a stage's name, performed on its own, leaves. -/
def stageCommand (p : State) (st : Stage) : State := p.perform st.opcode (stageCheck p st) (stageEffect p st)

theorem exec_command (p : State) (st : Stage) : exec st.command p = .next (stageCommand p st) := by cases st <;> rfl

theorem stageCommand_of_exec (h : exec st.command p = .next t) : stageCommand p st = t := by
  rw [exec_command] at h
  injection h

/-- `p` with ENG, VALID, DONE and the model's own fields of `x`, which no command of a stage reads. -/
def State.withControl (p x : State) : State :=
  { p with eng := x.eng, valid := x.valid, status := { p.status with done := x.status.done }, stepsLeft := x.stepsLeft,
           hostTurns := x.hostTurns, draws := x.draws, encodeLayout := x.encodeLayout }

@[simp] theorem withControl_valid (p x : State) : (p.withControl x).valid = x.valid := rfl

/-- Log 3, log 8: `t` is `u`, timing and working copy apart. -/
def EqUpToTiming (t u : State) : Prop :=
  t = { u with stepsLeft := t.stepsLeft, hostTurns := t.hostTurns, draws := t.draws, encodeLayout := t.encodeLayout }

/-- ENCODE at the start of stage `st`, with no host act to come, stands where the commands before it have led: to `p`. An
error of the stage would leave the same VALID bits as one of its command. -/
structure InPipeline (st : Stage) (x p : State) : Prop where
  eng : x.eng = .running (encode .encode) (some st)
  inbox : x.inbox = []
  view : x.stageView = p.withControl x
  valid : (x.valid.minus (clearSet .encode)).plus st.earlierSet = p.valid.minus (clearSet st.opcode)

theorem stageCheck_withControl (p x : State) (st : Stage) : stageCheck (p.withControl x) st = stageCheck p st := by
  cases st <;> rfl

theorem stageEffect_withControl (p x : State) (st : Stage) :
    stageEffect (p.withControl x) st = (stageEffect p st).withControl x := by
  cases st <;> rfl

/-- R99: the bits of the stages so far, one stage on: those its command sets and the next command does not clear. -/
theorem earlierSet_next {st' : Stage} (h : st.next = some st') (v : Valid) :
    (v.minus (clearSet .encode)).plus st'.earlierSet =
      (((v.minus (clearSet .encode)).plus st.earlierSet).plus (setSet st.opcode)).minus (clearSet st'.opcode) := by
  cases st <;> cases h <;> simp [Valid.minus, Valid.plus, clearSet, setSet, Stage.earlierSet, Stage.opcode]

/-- R99: ENCODE sets the bits of its stages. -/
theorem earlierSet_last (v : Valid) :
    v.plus (setSet .encode) = (v.plus Stage.ileave.earlierSet).plus (setSet .ileave) := by
  simp [Valid.plus, setSet, Stage.earlierSet]

theorem InPipeline.hostMoves (h : InPipeline st x p) : x.hostMoves = false :=
  hostMoves_of_waiting (busy_of_running h.eng) (.inl h.inbox)

theorem InPipeline.tick (h : InPipeline st x p) : InPipeline st x.tick p where
  eng := h.eng
  inbox := h.inbox
  view := congrArg State.tick h.view
  valid := h.valid

/-- R213: LATENCY passes. -/
theorem InPipeline.reaches_stage (h : InPipeline st x p) :
    ∃ y, InPipeline st y p ∧ Reaches x (y.performStage st (stageCheck p st) ((stageEffect p st).withControl y)) := by
  induction hn : x.stepsLeft generalizing x with
  | zero =>
    refine ⟨x, h, reaches_of_step ?_⟩
    have hd : decode (encode .encode) = .ok .encode := decode_encode rfl
    rw [step_running h.eng h.hostMoves hn, performWord_of_ok hd, exec_encode_of_running h.eng, h.view,
      stageCheck_withControl, stageEffect_withControl]
  | succ n ih =>
    obtain ⟨y, hy, hr⟩ := ih h.tick (by simp [hn])
    exact ⟨y, hy, .head (step_latency h.eng h.hostMoves (by omega)) hr⟩

/-- R107: a stage that fails ends ENCODE as its command ends. -/
theorem InPipeline.fails {e : CmdError} (h : InPipeline st x p) (hc : stageCheck p st = some e) :
    ∃ t, Reaches x t ∧ EqUpToTiming t (stageCommand p st) := by
  obtain ⟨y, hy, hr⟩ := h.reaches_stage
  rw [hc, performStage_some, hy.valid, hy.view] at hr
  refine ⟨_, hr, ?_⟩
  rw [stageCommand, hc, perform_some]
  rfl

theorem stageEffect_inbox (s : State) (st : Stage) : (stageEffect s st).inbox = s.inbox := by cases st <;> rfl

/-- R107: a stage that succeeds leads to the next where its command leads. -/
theorem InPipeline.proceeds {st' : Stage} (h : InPipeline st x p) (hc : stageCheck p st = none)
    (hn : st.next = some st') : ∃ t, Reaches x t ∧ InPipeline st' t (stageCommand p st) := by
  obtain ⟨y, hy, hr⟩ := h.reaches_stage
  rw [hc, performStage_next hn] at hr
  rw [stageCommand, hc, perform_none]
  refine ⟨_, hr, rfl, ?_, ?_, ?_⟩
  · have hp : p.inbox = [] := (congrArg State.inbox hy.view).symm.trans hy.inbox
    exact (stageEffect_inbox p st).trans hp
  · rw [stageView_of_running rfl, if_neg (next_ne_cfg hn)]
    rfl
  · rw [stageEffect_valid, ← hy.valid]
    exact earlierSet_next hn y.valid

/-- R107: the last stage ends ENCODE as ILEAVE ends. -/
theorem InPipeline.succeeds (h : InPipeline .ileave x p) (hc : stageCheck p .ileave = none) :
    ∃ t, Reaches x t ∧ EqUpToTiming t (stageCommand p .ileave) := by
  obtain ⟨y, hy, hr⟩ := h.reaches_stage
  have hv : (y.valid.minus (clearSet .encode)).plus (setSet .encode) =
      (p.valid.minus (clearSet .ileave)).plus (setSet .ileave) := by
    rw [earlierSet_last, hy.valid]
    rfl
  rw [hc, performStage_last, withControl_valid, hv] at hr
  refine ⟨_, hr, ?_⟩
  rw [stageCommand, hc, perform_none, stageEffect_valid]
  rfl

/-- R107: ENCODE's first stage starts where the command CFG would. -/
theorem inPipeline_start (he : s.eng = .running (encode .encode) (some .cfg)) (hi : s.inbox = []) :
    InPipeline .cfg s s where
  eng := he
  inbox := hi
  view := stageView_of_cfg s (encodeStage_of_running he)
  valid := plus_empty _

/-- R107: the pipeline stops at the first error, and else goes on behind the stage's command. -/
theorem InPipeline.andThen {st' : Stage} (h : InPipeline st x p) (hn : st.next = some st')
    (rest : ∀ {y}, InPipeline st' y (stageCommand p st) → ∃ t, Reaches y t ∧ EqUpToTiming t u) :
    ∃ t, Reaches x t ∧ EqUpToTiming t (if stageCheck p st ≠ none then stageCommand p st else u) := by
  cases hc : stageCheck p st with
  | some e =>
    rw [if_pos nofun]
    exact h.fails hc
  | none =>
    rw [if_neg (not_not.2 rfl)]
    obtain ⟨y, hxy, hy⟩ := h.proceeds hc hn
    obtain ⟨t, hyt, ht⟩ := rest hy
    exact ⟨t, hxy.trans hyt, ht⟩

theorem InPipeline.ends (h : InPipeline .ileave x p) : ∃ t, Reaches x t ∧ EqUpToTiming t (stageCommand p .ileave) := by
  cases hc : stageCheck p .ileave with
  | some e => exact h.fails hc
  | none => exact h.succeeds hc

end Sys2Proof.Machine

open Sys2Proof Sys2Proof.Machine

/-- Settles O43: ENCODE at a stage by `performStage`, whose three ends are the three clauses. -/
theorem encodePerformsItsStages : Obligations.EncodePerformsItsStages := by
  intro s w st he cleared u check after
  have hu : u = s.stageView := (stageView_of_running he).symm
  have hcheck : check = stageCheck s.stageView st := by rw [← hu]; cases st <;> rfl
  have hafter : after = stageEffect s.stageView st := by rw [← hu]; cases st <;> rfl
  rw [exec_encode_of_running he, ← hcheck, ← hafter]
  refine ⟨fun e hc => ?_, fun hc hst => ?_, fun hc hst => ?_⟩
  · rw [hc, performStage_some, ← hu]
    obtain ⟨hcfg, hbitenc, hrsenc, hileave⟩ := plus_earlierSet (s.valid.minus (clearSet .encode))
    cases st with
    | cfg => rw [hcfg]; rfl
    | bitenc => rw [hbitenc]; rfl
    | rsenc => rw [hrsenc]; rfl
    | ileave => rw [hileave]; rfl
  · rw [hc]
    cases st with
    | ileave => exact absurd rfl hst
    | cfg | bitenc | rsenc => exact ⟨_, rfl, rfl⟩
  · subst hst
    rw [hc, performStage_last, encode_bits, hafter]
    rfl

/-- Settles O44: stage by stage, ENCODE beside its four commands. -/
theorem encodeIsThePipeline : Obligations.EncodeIsThePipeline := by
  intro s s1 s2 s3 s4 he hi h1 h2 h3 h4 u
  obtain rfl : stageCommand s .cfg = s1 := stageCommand_of_exec h1
  obtain rfl : stageCommand _ .bitenc = s2 := stageCommand_of_exec h2
  obtain rfl : stageCommand _ .rsenc = s3 := stageCommand_of_exec h3
  obtain rfl : stageCommand _ .ileave = s4 := stageCommand_of_exec h4
  obtain ⟨t, ⟨n, hn⟩, ht⟩ : ∃ t, Reaches s t ∧ EqUpToTiming t u :=
    (inPipeline_start he hi).andThen rfl fun hbitenc => hbitenc.andThen rfl fun hrsenc =>
      hrsenc.andThen rfl InPipeline.ends
  exact ⟨n, t, hn, ht⟩
end

section
/-! PROOFS. Every accepted command completes (40_control.md R97; 70_reset_and_hazards.md R213, R214). -/

namespace Sys2Proof.Machine

variable {s t : State} {st : Stage}

/-! ### The time a command has left (R214) -/

/-- R107: how many stages follow the one the engine is in; 3 for a command of one stage. -/
def Stage.following : Stage → Nat
  | .cfg => 3
  | .bitenc => 2
  | .rsenc => 1
  | .ileave => 0

theorem following_next {st' : Stage} (h : st.next = some st') : st'.following < st.following := by
  cases st <;> cases h <;> decide

/-- Logs 2, 3: stages, then steps of LATENCY, then host steps, each number drawn anew when one before it falls. -/
def State.timeLeft (s : State) : Nat ×ₗ Nat ×ₗ Nat :=
  toLex (s.encodeStage.following, toLex (s.stepsLeft, s.hostTurns))

theorem timeLeft_lt_of_stage (h : t.encodeStage.following < s.encodeStage.following) : t.timeLeft < s.timeLeft :=
  Prod.Lex.toLex_lt_toLex.2 (.inl h)

/-- At the same stage the steps of LATENCY decide, then the host steps. -/
theorem timeLeft_lt_of_eng (he : t.eng = s.eng)
    (h : t.stepsLeft < s.stepsLeft ∨ t.stepsLeft = s.stepsLeft ∧ t.hostTurns < s.hostTurns) : t.timeLeft < s.timeLeft := by
  have hst : t.encodeStage = s.encodeStage := by simp only [State.encodeStage, he]
  exact Prod.Lex.toLex_lt_toLex.2 (.inr ⟨congrArg Stage.following hst, Prod.Lex.toLex_lt_toLex.2 h⟩)

/-- R97, R98: the command has completed. -/
def Completed (t : State) : Prop := t.eng = .idle ∧ t.status.done = true

/-- A command runs and the host will not reset the machine. -/
def RunsOn (s : State) : Prop := s.busy = true ∧ ∀ a ∈ s.inbox, a.resets = false

theorem exec_progress {i : Instr} (hx : exec i s = .next t) (h : RunsOn s) :
    t.cmd = s.cmd ∧ (Completed t ∨ RunsOn t ∧ t.timeLeft < s.timeLeft) := by
  rcases exec_cases hx with ⟨e, op, k, l, -, rfl, -⟩ | ⟨rfl, -, st, hn, rfl⟩ | ⟨-, -, rfl⟩
  · exact ⟨rfl, .inl ⟨rfl, rfl⟩⟩
  · rw [effectOf_frame]
    exact ⟨rfl, .inr ⟨⟨rfl, h.2⟩, timeLeft_lt_of_stage (following_next hn)⟩⟩
  · rw [effectOf_frame]
    exact ⟨rfl, .inl ⟨rfl, rfl⟩⟩

theorem act_progress {a : HostAct} {rest : List HostAct} (hi : s.inbox = a :: rest) (hpos : 0 < s.hostTurns)
    (ht : t = ({ s with inbox := rest, hostTurns := s.hostTurns - 1 } : State).act a) (h : RunsOn s) :
    t.cmd = s.cmd ∧ RunsOn t ∧ t.timeLeft < s.timeLeft := by
  obtain ⟨hb, hr⟩ := h
  simp only [hi, List.forall_mem_cons] at hr
  obtain ⟨status, ib, d, r, hact, hib, -⟩ :=
    busy_act (s := { s with inbox := rest, hostTurns := s.hostTurns - 1 }) hb hr.1
  rw [ht, hact]
  refine ⟨rfl, ⟨hb, fun b hm => ?_⟩, timeLeft_lt_of_eng rfl (.inr ⟨rfl, Nat.sub_one_lt_of_lt hpos⟩)⟩
  rcases hib b hm with hm | rfl
  · exact hr.2 b hm
  · rfl

/-- R214: every step of a machine with a command running completes the command or leaves it less time. -/
theorem step_progress (hs : step s = .next t) (h : RunsOn s) :
    t.cmd = s.cmd ∧ (Completed t ∨ RunsOn t ∧ t.timeLeft < s.timeLeft) := by
  rcases step_cases hs with ⟨a, rest, hi, hturn, rfl⟩ | ⟨he, -, -⟩ | ⟨w, st, -, hpos, rfl⟩ | ⟨w, st, -, -, hp⟩
  · have hpos : 0 < s.hostTurns := hturn.resolve_left (by simp [h.1])
    obtain ⟨hcmd, hrun, hlt⟩ := act_progress hi hpos rfl h
    exact ⟨hcmd, .inr ⟨hrun, hlt⟩⟩
  · exact absurd he ((busy_iff s).1 h.1)
  · exact ⟨rfl, .inr ⟨h, timeLeft_lt_of_eng rfl (.inl (Nat.sub_one_lt_of_lt hpos))⟩⟩
  · rcases performWord_cases hp with ⟨i, -, hx⟩ | ⟨e, -, rfl⟩
    · exact exec_progress hx h
    · exact ⟨rfl, .inl ⟨rfl, rfl⟩⟩

theorem reaches_completion (h : RunsOn s) : ∃ t, Reaches s t ∧ Completed t ∧ t.cmd = s.cmd := by
  induction hm : s.timeLeft using WellFoundedLT.induction generalizing s with
  | _ m ih =>
    obtain ⟨s', hs⟩ := step_answers s
    obtain ⟨hcmd, hdone | ⟨hrun, hlt⟩⟩ := step_progress hs h
    · exact ⟨s', reaches_of_step hs, hdone, hcmd⟩
    · obtain ⟨t, hr, hdone, hcmd'⟩ := ih _ (hm ▸ hlt) hrun rfl
      exact ⟨t, .head hs hr, hdone, hcmd'.trans hcmd⟩

end Sys2Proof.Machine

open Sys2Proof Sys2Proof.Machine

/-- Settles O11: the time left falls at every step, lexicographically. -/
theorem acceptedCommandCompletes : Obligations.AcceptedCommandCompletes := by
  intro s w st he hi
  obtain ⟨t, ⟨n, hn⟩, ⟨hidle, hdone⟩, hcmd⟩ := reaches_completion ⟨busy_of_running he, hi⟩
  exact ⟨n, t, hn, hidle, hdone, hcmd⟩
end

section
/-! PROOFS. BITENC: the alphabets, the checks in their order, and the codewords written (41_bitstream.md R111-R121, R129). -/

namespace Sys2Proof.Machine

/-! ### The alphabets (R114, R116) -/

theorem inAlphabet_numeric (b : Byte) : inAlphabet 0 b = true ↔ 0x30 ≤ b.toNat ∧ b.toNat ≤ 0x39 := by
  simp [inAlphabet]

/-- R114: the symbols of the Alphanumeric alphabet, in the order of their indexes. -/
def alnumSymbols : List Nat := symbolIndex.map (·.1)

/-- R114, R116: the Alphanumeric alphabet in the order of the indexes: the digits, the capital letters, the symbols. -/
def alnumAlphabet : List Nat := List.range' 0x30 10 ++ (List.range' 0x41 26 ++ alnumSymbols)

theorem mem_alnumAlphabet (c : Nat) : c ∈ alnumAlphabet ↔
    (0x30 ≤ c ∧ c ≤ 0x39) ∨ (0x41 ≤ c ∧ c ≤ 0x5A) ∨ c ∈ alnumSymbols := by
  rw [alnumAlphabet, List.mem_append, List.mem_append, List.mem_range'_1, List.mem_range'_1, Nat.lt_succ_iff, Nat.lt_succ_iff]

theorem isSymbol_iff (c : Nat) : symbolIndex.any (fun p => p.1 == c) = true ↔ c ∈ alnumSymbols := by
  simp only [alnumSymbols, List.any_eq_true, List.mem_map, beq_iff_eq]

theorem inAlphabet_alnum (b : Byte) : inAlphabet 1 b = true ↔ b.toNat ∈ alnumAlphabet := by
  simp only [inAlphabet, Bool.or_eq_true, Bool.and_eq_true, decide_eq_true_eq, isSymbol_iff, mem_alnumAlphabet, or_assoc]

theorem alnumIndex_digit {b : Byte} (h : 0x30 ≤ b.toNat ∧ b.toNat ≤ 0x39) : alnumIndex b = b.toNat - 0x30 :=
  if_pos h.symm

theorem alnumIndex_letter {b : Byte} (h : 0x41 ≤ b.toNat ∧ b.toNat ≤ 0x5A) : alnumIndex b = b.toNat - 0x41 + 10 := by
  rw [alnumIndex, if_neg (by omega), if_pos h]

/-- R116: the symbols stand behind the 36 digits and letters. -/
theorem alnumIndex_symbol : ∀ c ∈ alnumSymbols,
    36 ≤ alnumIndex (BitVec.ofNat 8 c) ∧ alnumSymbols[alnumIndex (BitVec.ofNat 8 c) - 36]? = some c := by
  decide

/-- R116: the character at a character's index is the character itself. -/
theorem alnumAlphabet_alnumIndex {b : Byte} (h : b.toNat ∈ alnumAlphabet) :
    alnumAlphabet[alnumIndex b]? = some b.toNat := by
  rcases (mem_alnumAlphabet _).1 h with hd | hl | hs
  · rw [alnumIndex_digit hd, alnumAlphabet, List.getElem?_append_left (by rw [List.length_range']; omega),
      List.getElem?_range' (by omega)]
    congr 1
    omega
  · rw [alnumIndex_letter hl, alnumAlphabet, List.getElem?_append_right (by rw [List.length_range']; omega),
      List.length_range', Nat.add_sub_cancel, List.getElem?_append_left (by rw [List.length_range']; omega),
      List.getElem?_range' (by omega)]
    congr 1
    omega
  · obtain ⟨hi, hc⟩ := alnumIndex_symbol _ hs
    rw [BitVec.ofNat_toNat, BitVec.setWidth_eq] at hi hc
    rw [alnumAlphabet, List.getElem?_append_right (by rw [List.length_range']; omega), List.length_range',
      List.getElem?_append_right (by rw [List.length_range']; omega), List.length_range', Nat.sub_sub, hc]

/-! ### The first bad character (R117) -/

theorem firstBad_none {md i : Nat} {msg : List Byte} (h : ∀ b ∈ msg, inAlphabet md b = true) :
    firstBad md i msg = none := by
  induction msg generalizing i with
  | nil => rfl
  | cons b rest ih =>
    rw [List.forall_mem_cons] at h
    rw [firstBad, if_pos h.1]
    exact ih h.2

theorem firstBad_some {md i k : Nat} {msg : List Byte} {b : Byte} (hb : msg[k]? = some b) (hbad : inAlphabet md b = false)
    (hgood : ∀ j c, j < k → msg[j]? = some c → inAlphabet md c = true) : firstBad md i msg = some (i + k, b) := by
  induction k generalizing i msg with
  | zero =>
    cases msg with
    | nil => cases hb
    | cons c rest =>
      cases hb
      rw [firstBad, if_neg (by simp [hbad]), Nat.add_zero]
  | succ k ih =>
    cases msg with
    | nil => cases hb
    | cons c rest =>
      rw [firstBad, if_pos (hgood 0 c k.succ_pos rfl), ih hb fun j d hj => hgood (j + 1) d (Nat.succ_lt_succ hj),
        Nat.add_assoc, Nat.add_comm 1]

variable {s : State}

/-- R46: MSG[i] for i < MSG_LEN. -/
theorem message_getElem? {i : Nat} (h : i < s.msgLen.toNat) : s.message[i]? = some (s.byteAt (0x2000 + i)) := by
  rw [State.message, State.messageLength, State.bytesAt, List.getElem?_map, List.getElem?_range h]
  rfl

theorem forall_mem_message {P : Byte → Prop} :
    (∀ b ∈ s.message, P b) ↔ ∀ i, i < s.msgLen.toNat → P (s.byteAt (0x2000 + i)) := by
  simp [State.message, State.bytesAt, State.messageLength, msgBase]

/-! ### The checks (R112, R113, R117, R118, R121) -/

/-- R117, R118, R121: the checks of the message: its characters, then its capacity. -/
def contentCheck (s : State) : Option CmdError :=
  let req := requiredBits s.config.mode.toNat s.msgLen.toNat s.layout.cciWidth.toNat
  match firstBad s.config.mode.toNat 0 s.message with
  | some (i, b) => some ⟨.invalidCharacter, s.config.mode.setWidth 8, BitVec.ofNat 16 i, b⟩
  | none =>
    if 2 ^ s.layout.cciWidth.toNat ≤ s.msgLen.toNat then some (capacityError 1 req)
    else if 8 * s.layout.dcwTotal.toNat < req then some (capacityError 2 req)
    else none

/-- R112, R113, R183: the checks of the registers come before those of the message. -/
theorem bitencCheck_eq (s : State) : bitencCheck s =
    if 2 < s.config.mode.toNat then some (invalidParameter 2)
    else if 8192 < s.msgLen.toNat then some (invalidParameter 4)
    else if s.layout.cciWidth.toNat < 1 ∨ 16 < s.layout.cciWidth.toNat then some (internalConsistency 1)
    else if s.layout.dcwTotal.toNat = 0 then some (internalConsistency 2)
    else contentCheck s := by
  rw [contentCheck, ← BitVec.ofNat_toNat]
  rfl

theorem contentCheck_of_bad {i : Nat} (hi : i < s.msgLen.toNat)
    (hbad : inAlphabet s.config.mode.toNat (s.byteAt (0x2000 + i)) = false)
    (hgood : ∀ j, j < i → inAlphabet s.config.mode.toNat (s.byteAt (0x2000 + j)) = true) :
    contentCheck s =
      some ⟨.invalidCharacter, s.config.mode.setWidth 8, BitVec.ofNat 16 i, s.byteAt (0x2000 + i)⟩ := by
  have hfirst : firstBad s.config.mode.toNat 0 s.message = some (0 + i, s.byteAt (0x2000 + i)) :=
    firstBad_some (message_getElem? hi) hbad fun j c hj hc => by
      rw [message_getElem? (hj.trans hi)] at hc
      cases hc
      exact hgood j hj
  rw [Nat.zero_add] at hfirst
  rw [contentCheck, hfirst]

theorem contentCheck_of_good (h : ∀ b ∈ s.message, inAlphabet s.config.mode.toNat b = true) : contentCheck s =
    if 2 ^ s.layout.cciWidth.toNat ≤ s.msgLen.toNat then
      some (capacityError 1 (requiredBits s.config.mode.toNat s.msgLen.toNat s.layout.cciWidth.toNat))
    else if 8 * s.layout.dcwTotal.toNat < requiredBits s.config.mode.toNat s.msgLen.toNat s.layout.cciWidth.toNat then
      some (capacityError 2 (requiredBits s.config.mode.toNat s.msgLen.toNat s.layout.cciWidth.toNat))
    else none := by
  rw [contentCheck, firstBad_none h]

/-! ### The command -/

theorem exec_bitenc_of_some {e : CmdError} (h : bitencCheck s = some e) : exec .bitenc s =
    .next (s.failed 2 e.cls.code e.detail e.pos e.chr (s.valid.minus { data := true, ecc := true, seq := true })) := by
  rw [exec_eq_perform s (by decide), checkOf, h, perform_some]
  rfl

/-- R99: of the bits BITENC clears only DATA comes back. -/
theorem exec_bitenc_of_none (h : bitencCheck s = none) : exec .bitenc s =
    .next ((bitencEffect s).succeeded { s.valid with data := true, ecc := false, seq := false }) := by
  rw [exec_eq_perform s (by decide), checkOf, h, perform_none, effectOf_valid]
  simp [Valid.plus, setSet, clearSet, Instr.opcode, effectOf, Valid.minus]

/-- R118, R121: a required bit count of a message that fits is not cut in STAT_BITS. -/
theorem bitencEffect_statBits
    (h : requiredBits s.config.mode.toNat s.msgLen.toNat s.layout.cciWidth.toNat ≤ 8 * s.layout.dcwTotal.toNat) :
    (bitencEffect s).statBits.toNat = requiredBits s.config.mode.toNat s.msgLen.toNat s.layout.cciWidth.toNat :=
  have hd : s.layout.dcwTotal.toNat < 2 ^ 12 := BitVec.isLt _
  Nat.mod_eq_of_lt (h.trans_lt (by omega))

end Sys2Proof.Machine

open Sys2Proof Sys2Proof.Machine

/-- Settles O27: the Alphanumeric alphabet part by part: digits, letters, symbols. -/
theorem alphabetsAndIndexes : Obligations.AlphabetsAndIndexes := fun b =>
  ⟨inAlphabet_numeric b, inAlphabet_alnum b, rfl, alnumAlphabet_alnumIndex, fun _ => rfl⟩

/-- Settles O28: the checks by cases, and the first bad character by its index. -/
theorem bitencRejectsInOrder : Obligations.BitencRejectsInOrder := by
  intro s
  have hc := bitencCheck_eq s
  dsimp only
  split_ifs at hc with hmd hn hw hd
  · rw [if_pos hmd]
    exact exec_bitenc_of_some hc
  · rw [if_neg hmd, if_pos hn]
    exact exec_bitenc_of_some hc
  · rw [if_neg hmd, if_neg hn, if_pos hw]
    exact exec_bitenc_of_some hc
  · rw [if_neg hmd, if_neg hn, if_neg hw, if_pos hd]
    exact exec_bitenc_of_some hc
  · rw [if_neg hmd, if_neg hn, if_neg hw, if_neg hd]
    refine ⟨fun i hi hbad hgood => exec_bitenc_of_some (hc.trans (contentCheck_of_bad hi hbad hgood)),
      fun hgood => ?_⟩
    rw [contentCheck_of_good (forall_mem_message.2 hgood)] at hc
    refine ⟨fun hcount => ?_, fun hcount hcap => ?_⟩
    · rw [if_pos hcount] at hc
      exact exec_bitenc_of_some hc
    · rw [if_neg (Nat.not_le.2 hcount), if_pos hcap] at hc
      exact exec_bitenc_of_some hc

/-- Settles O29: no check fails, and the effect is the codewords and STAT_BITS. -/
theorem bitencWritesTheCodewords : Obligations.BitencWritesTheCodewords := by
  intro s md n d w msg hmd hn hw hw' hd hgood hcount hcap
  have hc : bitencCheck s = none := by
    rw [bitencCheck_eq, if_neg (Nat.not_lt.2 hmd), if_neg (Nat.not_lt.2 hn), if_neg (by omega), if_neg hd,
      contentCheck_of_good hgood, if_neg (Nat.not_le.2 hcount), if_neg (Nat.not_lt.2 hcap)]
  exact ⟨_, exec_bitenc_of_none hc, rfl, bitencEffect_statBits hcap, bitencEffect_byteAt s⟩
end

section
/-! PROOFS. GF(256): EXP and LOG by one pass over the tables, powers as repeated multiplication by x, and the product by a
power of α as that many multiplications by x. The laws and the product without tables follow from this (42_gf256.md
R131-R138). -/

namespace Sys2Proof.Machine

/-! ### Multiplication by x (R131) -/

theorem timesX_xor : Function.Semiconj₂ timesX (· ^^^ ·) (· ^^^ ·) := fun a b => by
  have hbit (p q : Bool) : (if p ^^ q then 0x1D else 0 : Byte) = (if p then 0x1D else 0) ^^^ (if q then 0x1D else 0) := by
    decide +revert
  rw [timesX, timesX, timesX, BitVec.shiftLeft_xor_distrib, BitVec.getLsbD_xor, hbit]
  ac_rfl

theorem timesX_zero : timesX 0 = 0 := rfl

theorem timesX_iterate_zero (i : Nat) : timesX^[i] 0 = 0 := Function.iterate_fixed timesX_zero i

/-! ### The tables (R131, R132) -/

theorem expRom_succ : ∀ i < 254, expRom (i + 1) = timesX (expRom i) := by decide +kernel

/-- R136: `α^255 = 1`, where the recurrence of EXP closes. -/
theorem timesX_expRom_last : timesX (expRom 254) = 1 := by decide +kernel

theorem logRom_lt : ∀ a : Byte, a ≠ 0 → (logRom a.toNat).toNat < 255 := by decide +kernel

theorem expRom_logRom : ∀ a : Byte, a ≠ 0 → expRom (logRom a.toNat).toNat = a := by decide +kernel

theorem logRom_expRom : ∀ i < 255, (logRom (expRom i).toNat).toNat = i := by decide +kernel

theorem expRom_ne_zero : ∀ i < 255, expRom i ≠ 0 := by decide +kernel

/-! ### Powers of α (R136) -/

theorem gfPow_zero : gfPow 0 = 1 := rfl

theorem gfPow_succ (i : Nat) : gfPow (i + 1) = timesX (gfPow i) := by
  have hlt : i % 255 < 255 := Nat.mod_lt i (by decide)
  by_cases hi : i % 255 = 254
  · rw [gfPow, gfPow, hi, show (i + 1) % 255 = 0 by omega, timesX_expRom_last]
    rfl
  · rw [gfPow, gfPow, show (i + 1) % 255 = i % 255 + 1 by omega, expRom_succ _ (by omega)]

theorem gfPow_eq_iterate (i : Nat) : gfPow i = timesX^[i] 1 := by
  induction i with
  | zero => rfl
  | succ i ih => rw [gfPow_succ, ih, Function.iterate_succ_apply']

theorem gfPow_mod (i : Nat) : gfPow (i % 255) = gfPow i := by rw [gfPow, gfPow, Nat.mod_mod]

theorem gfPow_ne_zero (i : Nat) : gfPow i ≠ 0 := expRom_ne_zero _ (Nat.mod_lt i (by decide))

theorem logRom_gfPow (i : Nat) : (logRom (gfPow i).toNat).toNat = i % 255 :=
  logRom_expRom _ (Nat.mod_lt i (by decide))

theorem gfPow_logRom {a : Byte} (h : a ≠ 0) : gfPow (logRom a.toNat).toNat = a := by
  rw [gfPow, Nat.mod_eq_of_lt (logRom_lt a h), expRom_logRom a h]

/-- R132: EXP reaches every element but 0. -/
theorem eq_zero_or_gfPow (a : Byte) : a = 0 ∨ ∃ i, a = gfPow i := by
  by_cases h : a = 0
  · exact .inl h
  · exact .inr ⟨_, (gfPow_logRom h).symm⟩

/-! ### The product (R134) -/

theorem gfMul_zero_left (a : Byte) : gfMul 0 a = 0 := if_pos (.inl rfl)

theorem gfMul_zero_right (a : Byte) : gfMul a 0 = 0 := if_pos (.inr rfl)

theorem gfMul_comm (a b : Byte) : gfMul a b = gfMul b a := by
  rw [gfMul, gfMul, Nat.add_comm]
  exact if_congr or_comm rfl rfl

theorem gfMul_gfPow (i j : Nat) : gfMul (gfPow i) (gfPow j) = gfPow (i + j) := by
  rw [gfMul, if_neg (not_or.2 ⟨gfPow_ne_zero i, gfPow_ne_zero j⟩), logRom_gfPow, logRom_gfPow, ← Nat.add_mod, gfPow]

/-- The key fact: the product by `α^i` is i multiplications by x. -/
theorem gfMul_gfPow_left (i : Nat) (b : Byte) : gfMul (gfPow i) b = timesX^[i] b := by
  obtain rfl | ⟨j, rfl⟩ := eq_zero_or_gfPow b
  · rw [gfMul_zero_right, timesX_iterate_zero]
  · rw [gfMul_gfPow, gfPow_eq_iterate, gfPow_eq_iterate, Function.iterate_add_apply]

theorem gfMul_one_left (a : Byte) : gfMul 1 a = a := by
  rw [← gfPow_zero, gfMul_gfPow_left, Function.iterate_zero_apply]

theorem gfMul_assoc (a b c : Byte) : gfMul (gfMul a b) c = gfMul a (gfMul b c) := by
  obtain rfl | ⟨i, rfl⟩ := eq_zero_or_gfPow a
  · rw [gfMul_zero_left, gfMul_zero_left, gfMul_zero_left]
  obtain rfl | ⟨j, rfl⟩ := eq_zero_or_gfPow b
  · rw [gfMul_zero_right, gfMul_zero_left, gfMul_zero_right]
  rw [gfMul_gfPow, gfMul_gfPow_left, gfMul_gfPow_left, gfMul_gfPow_left, Function.iterate_add_apply]

theorem gfMul_xor (a b c : Byte) : gfMul a (b ^^^ c) = gfMul a b ^^^ gfMul a c := by
  obtain rfl | ⟨i, rfl⟩ := eq_zero_or_gfPow a
  · rw [gfMul_zero_left, gfMul_zero_left, gfMul_zero_left]
    exact BitVec.xor_self.symm
  · rw [gfMul_gfPow_left, gfMul_gfPow_left, gfMul_gfPow_left]
    exact timesX_xor.iterate i b c

/-- R135: `α^(255 − LOG[a])` is the inverse of a. -/
theorem gfMul_inverse {a : Byte} (h : a ≠ 0) : gfMul a (gfPow ((255 - (logRom a.toNat).toNat) % 255)) = 1 := by
  let k := (logRom a.toNat).toNat
  calc
    gfMul a (gfPow ((255 - k) % 255)) = gfMul (gfPow k) (gfPow (255 - k)) := by rw [gfPow_logRom h, gfPow_mod]
    _ = gfPow 255 := by rw [gfMul_gfPow, Nat.add_sub_cancel' (logRom_lt a h).le]
    _ = 1 := rfl

/-! ### The product without tables -/

theorem polyProduct_zero_left (b : Byte) (n : Nat) : polyProduct 0 b n = 0 := by
  induction n with
  | zero => rfl
  | succ n ih =>
    rw [polyProduct, ih, timesX_zero, ite_self]
    exact BitVec.xor_self

/-- Multiplication by x in the first factor is multiplication by x of the product. -/
theorem polyProduct_timesX (b : Byte) (n : Nat) : Function.Commute (polyProduct · b n) timesX := fun a => by
  induction n with
  | zero => exact timesX_zero.symm
  | succ n ih =>
    have hite : (if b.getMsbD n then timesX a else 0) = timesX (if b.getMsbD n then a else 0) := by
      rw [apply_ite timesX, timesX_zero]
    dsimp only [polyProduct] at ih ⊢
    rw [ih, hite]
    exact (timesX_xor _ _).symm

theorem polyProduct_one_left : ∀ b : Byte, polyProduct 1 b 8 = b := by decide +kernel

theorem polyProduct_gfPow_left (i : Nat) (b : Byte) : polyProduct (gfPow i) b 8 = timesX^[i] b := by
  rw [gfPow_eq_iterate]
  exact ((polyProduct_timesX b 8).iterate_right i 1).trans (congrArg _ (polyProduct_one_left b))

/-! ### The command (R138) -/

/-- R99: GFMUL makes VALID.GF true; the bit it clears first is the same one. -/
theorem exec_gfmul (s : State) : exec .gfmul s = .next ((gfmulEffect s).succeeded { s.valid with gf := true }) := by
  rw [exec_eq_perform s (by decide), checkOf, perform_none, effectOf_valid]
  simp [Valid.plus, Valid.minus, setSet, clearSet, Instr.opcode, effectOf]

end Sys2Proof.Machine

open Sys2Proof Sys2Proof.Machine

/-- Settles O33: the recurrence of EXP is multiplication by x, and LOG is its inverse on the nonzero bytes. -/
theorem fieldTables : Obligations.FieldTables :=
  ⟨rfl, expRom_succ, fun a h => ⟨logRom_lt a h, expRom_logRom a h⟩, logRom_expRom, rfl, rfl⟩

/-- Settles O34: a nonzero byte is a power of α, and the product by a power is repeated multiplication by x. -/
theorem fieldLaws : Obligations.FieldLaws :=
  ⟨gfMul_comm, gfMul_assoc, gfMul_xor, gfMul_one_left, gfMul_gfPow, fun _ => gfMul_inverse⟩

/-- Settles O35: both products by a power of α are that many multiplications by x. -/
theorem fieldProductIsPolynomialProduct : Obligations.FieldProductIsPolynomialProduct := fun a b => by
  obtain rfl | ⟨i, rfl⟩ := eq_zero_or_gfPow a
  · rw [gfMul_zero_left, polyProduct_zero_left]
  · rw [gfMul_gfPow_left, polyProduct_gfPow_left]

/-- Settles O36: GFMUL has no check, and its effect is the product. -/
theorem gfmulWritesTheProduct : Obligations.GfmulWritesTheProduct :=
  ⟨exec_gfmul, by decide +kernel, by decide +kernel, fun a => ⟨gfMul_zero_right a, gfMul_zero_left a⟩⟩
end

section
/-! PROOFS. Reed-Solomon codes as polynomials over GF(256): evaluation is linear, so the generator is the product of its root
factors; one step of the division register adds one multiple of the generator, so a block with its EC codewords is a
multiple of it; and the register is linear in the block (43_reed_solomon.md R142-R144, R151). -/

namespace Sys2Proof.Machine

/-! ### Coefficient lists -/

theorem gfMul_xor_left (a b c : Byte) : gfMul (a ^^^ b) c = gfMul a c ^^^ gfMul b c := by
  rw [gfMul_comm, gfMul_xor, gfMul_comm c a, gfMul_comm c b]

theorem gfMul_one_right (a : Byte) : gfMul a 1 = a := by rw [gfMul_comm, gfMul_one_left]

theorem addCoeffs_cons (a b : Byte) (p q : List Byte) : addCoeffs (a :: p) (b :: q) = (a ^^^ b) :: addCoeffs p q := rfl

theorem addCoeffs_comm (p q : List Byte) : addCoeffs p q = addCoeffs q p :=
  List.zipWith_comm_of_comm BitVec.xor_comm

theorem addCoeffs_append {p p' : List Byte} (h : p.length = p'.length) (q q' : List Byte) :
    addCoeffs (p ++ q) (p' ++ q') = addCoeffs p p' ++ addCoeffs q q' := List.zipWith_append h

theorem addCoeffs_zeros {p : List Byte} {n : Nat} (h : p.length ≤ n) : addCoeffs p (List.replicate n 0) = p := by
  apply List.ext_getElem
  · simpa using h
  · simp [addCoeffs]

/-- Two sums, added coefficient by coefficient. -/
theorem addCoeffs_addCoeffs (p q p' q' : List Byte) :
    addCoeffs (addCoeffs p q) (addCoeffs p' q') = addCoeffs (addCoeffs p p') (addCoeffs q q') := by
  apply List.ext_getElem
  · simp only [addCoeffs_length]
    omega
  · intro i _ _
    simp only [addCoeffs, List.getElem_zipWith]
    ac_rfl

theorem scaleCoeffs_cons (c a : Byte) (p : List Byte) : scaleCoeffs c (a :: p) = gfMul a c :: scaleCoeffs c p := rfl

theorem scaleCoeffs_zero (p : List Byte) : scaleCoeffs 0 p = List.replicate p.length 0 :=
  List.map_eq_replicate_iff.2 fun a _ => gfMul_zero_right a

theorem scaleCoeffs_one (p : List Byte) : scaleCoeffs 1 p = p :=
  (List.map_congr_left fun a _ => gfMul_one_right a).trans (List.map_id p)

theorem scaleCoeffs_xor (c d : Byte) (p : List Byte) :
    scaleCoeffs (c ^^^ d) p = addCoeffs (scaleCoeffs c p) (scaleCoeffs d p) := by
  simp [scaleCoeffs, addCoeffs, List.zipWith_map, List.zipWith_self, gfMul_xor]

/-! ### Evaluation -/

/-- The value at x of the coefficients `p` behind others whose value is `a`. -/
def polyEvalFrom (a : Byte) (p : List Byte) (x : Byte) : Byte := p.foldl (fun acc c => gfMul acc x ^^^ c) a

theorem polyEval_eq_polyEvalFrom (p : List Byte) (x : Byte) : polyEval p x = polyEvalFrom 0 p x := rfl

theorem polyEvalFrom_cons (a c : Byte) (p : List Byte) (x : Byte) :
    polyEvalFrom a (c :: p) x = polyEvalFrom (gfMul a x ^^^ c) p x := rfl

theorem polyEvalFrom_addCoeffs {p q : List Byte} (h : p.length = q.length) (a b x : Byte) :
    polyEvalFrom (a ^^^ b) (addCoeffs p q) x = polyEvalFrom a p x ^^^ polyEvalFrom b q x := by
  induction p generalizing q a b with
  | nil =>
    obtain rfl := List.eq_nil_of_length_eq_zero h.symm
    rfl
  | cons c p ih =>
    obtain ⟨d, q, rfl⟩ := List.exists_cons_of_length_eq_add_one h.symm
    have hhead : gfMul (a ^^^ b) x ^^^ (c ^^^ d) = (gfMul a x ^^^ c) ^^^ (gfMul b x ^^^ d) := by
      rw [gfMul_xor_left]
      ac_rfl
    rw [addCoeffs_cons, polyEvalFrom_cons, hhead, ih (Nat.succ.inj h), polyEvalFrom_cons, polyEvalFrom_cons]

theorem polyEvalFrom_scaleCoeffs (a c : Byte) (p : List Byte) (x : Byte) :
    polyEvalFrom (gfMul a c) (scaleCoeffs c p) x = gfMul (polyEvalFrom a p x) c := by
  induction p generalizing a with
  | nil => rfl
  | cons b p ih =>
    have hhead : gfMul (gfMul a c) x ^^^ gfMul b c = gfMul (gfMul a x ^^^ b) c := by
      rw [gfMul_xor_left, gfMul_assoc, gfMul_comm c x, ← gfMul_assoc]
    rw [scaleCoeffs_cons, polyEvalFrom_cons, hhead, ih, polyEvalFrom_cons]

theorem polyEval_addCoeffs {p q : List Byte} (h : p.length = q.length) (x : Byte) :
    polyEval (addCoeffs p q) x = polyEval p x ^^^ polyEval q x := polyEvalFrom_addCoeffs h 0 0 x

theorem polyEval_scaleCoeffs (c : Byte) (p : List Byte) (x : Byte) :
    polyEval (scaleCoeffs c p) x = gfMul (polyEval p x) c := polyEvalFrom_scaleCoeffs 0 c p x

theorem polyEval_concat (p : List Byte) (c x : Byte) : polyEval (p ++ [c]) x = gfMul (polyEval p x) x ^^^ c :=
  List.foldl_append

theorem polyEval_concat_zero (p : List Byte) (x : Byte) : polyEval (p ++ [0]) x = gfMul (polyEval p x) x :=
  (polyEval_concat p 0 x).trans BitVec.xor_zero

theorem polyEval_zero_cons (p : List Byte) (x : Byte) : polyEval (0 :: p) x = polyEval p x := by
  rw [polyEval_eq_polyEvalFrom, polyEvalFrom_cons, gfMul_zero_left]
  rfl

theorem polyEval_zeros_append (n : Nat) (p : List Byte) (x : Byte) :
    polyEval (List.replicate n 0 ++ p) x = polyEval p x := by
  induction n with
  | zero => rfl
  | succ n ih => rw [List.replicate_succ, List.cons_append, polyEval_zero_cons, ih]

/-! ### The generator (R142, R143) -/

/-- R143: one round of the loop multiplies by (x ⊕ c). -/
theorem polyEval_mulByRoot (g : List Byte) (c x : Byte) :
    polyEval (mulByRoot g c) x = gfMul (polyEval g x) (x ^^^ c) := by
  rw [mulByRoot, polyEval_addCoeffs (by simp), polyEval_concat_zero, polyEval_zero_cons, polyEval_scaleCoeffs, gfMul_xor]

theorem rootProduct_succ (e : Nat) (x : Byte) :
    rootProduct (e + 1) x = gfMul (rootProduct e x) (x ^^^ gfPow e) := by
  rw [rootProduct, List.range_succ, List.foldl_append]
  rfl

theorem polyEval_genPoly (e : Nat) (x : Byte) : polyEval (genPoly e) x = rootProduct e x := by
  induction e with
  | zero =>
    show gfMul 0 x ^^^ 1 = 1
    rw [gfMul_zero_left]
    rfl
  | succ e ih => rw [genPoly, polyEval_mulByRoot, ih, rootProduct_succ]

theorem rootProduct_gfPow {e i : Nat} (h : i < e) : rootProduct e (gfPow i) = 0 := by
  induction e with
  | zero => exact absurd h (Nat.not_lt_zero i)
  | succ e ih =>
    rw [rootProduct_succ]
    rcases Nat.lt_succ_iff_lt_or_eq.1 h with hlt | rfl
    · rw [ih hlt, gfMul_zero_left]
    · rw [BitVec.xor_self]
      exact gfMul_zero_right _

theorem mulByRoot_one_cons (g : List Byte) (c : Byte) : mulByRoot (1 :: g) c = 1 :: (mulByRoot (1 :: g) c).tail := rfl

/-- R143: the generator is monic. -/
theorem genPoly_eq_cons (e : Nat) : genPoly e = 1 :: (genPoly e).tail := by
  induction e with
  | zero => rfl
  | succ e ih =>
    rw [genPoly, ih]
    exact mulByRoot_one_cons ..

theorem mulByRoot_getLast? {g : List Byte} {a : Byte} (h : g.getLast? = some a) (c : Byte) :
    (mulByRoot g c).getLast? = some (gfMul a c) := by
  obtain ⟨p, rfl⟩ := List.getLast?_eq_some_iff.1 h
  have hcut : mulByRoot (p ++ [a]) c = addCoeffs (p ++ [a]) (0 :: scaleCoeffs c p) ++ addCoeffs [0] [gfMul a c] := by
    rw [← addCoeffs_append (by simp), mulByRoot]
    simp [scaleCoeffs]
  rw [hcut]
  simp [addCoeffs]

/-- R143: the constant term is the product of the roots. -/
theorem genPoly_getLast? (e : Nat) : (genPoly e).getLast? = some (gfPow (e * (e - 1) / 2)) := by
  induction e with
  | zero => rfl
  | succ e ih =>
    rw [genPoly, mulByRoot_getLast? ih, gfMul_gfPow, Nat.triangle_succ]

/-! ### Division by the generator (R144, R146) -/

theorem ecCodewords_concat (e : Nat) (block : List Byte) (m : Byte) :
    ecCodewords e (block ++ [m]) = divStep (genPoly e) (ecCodewords e block) m := List.foldl_append

theorem polyTimes_concat (g q : List Byte) (c : Byte) : polyTimes g (q ++ [c]) =
    addCoeffs (polyTimes g q ++ [0])
      (List.replicate ((polyTimes g q).length + 1 - g.length) 0 ++ scaleCoeffs c g) := List.foldl_append

theorem polyTimes_length (g q : List Byte) : (polyTimes g q).length = q.length + (g.length - 1) := by
  induction q using List.reverseRecOn with
  | nil => simp [polyTimes]
  | append_singleton q c ih =>
    rw [polyTimes_concat]
    simp [ih]
    omega

/-- R144: `polyTimes` is the product. -/
theorem polyEval_polyTimes (g q : List Byte) (x : Byte) :
    polyEval (polyTimes g q) x = gfMul (polyEval g x) (polyEval q x) := by
  induction q using List.reverseRecOn with
  | nil =>
    have h0 := polyEval_zeros_append (g.length - 1) [] x
    rw [List.append_nil] at h0
    exact h0.trans (gfMul_zero_right _).symm
  | append_singleton q c ih =>
    have hlen := polyTimes_length g q
    rw [polyTimes_concat, polyEval_addCoeffs (by simp; omega), polyEval_concat_zero, polyEval_zeros_append,
      polyEval_scaleCoeffs, ih, polyEval_concat, gfMul_xor, gfMul_assoc]

/-- R146: one step of the register: the coefficient the step shifts out adds the multiple of the generator that turns it
into the codeword taken in. -/
theorem polyTimes_divStep {e : Nat} {q block r : List Byte} (he : 1 ≤ e) (hr : r.length = e)
    (h : polyTimes (genPoly e) q = block ++ r) (m : Byte) :
    polyTimes (genPoly e) (q ++ [m ^^^ r.headD 0]) = block ++ [m] ++ divStep (genPoly e) r m := by
  obtain ⟨r₀, r, rfl⟩ := List.exists_cons_of_length_pos (hr ▸ he)
  have hm : r₀ ^^^ (m ^^^ r₀) = m := by rw [BitVec.xor_comm m, ← BitVec.xor_assoc, BitVec.xor_self, BitVec.zero_xor]
  have hzeros : (block ++ r₀ :: r).length + 1 - (genPoly e).length = block.length := by
    simp [← hr]
  calc
    polyTimes (genPoly e) (q ++ [m ^^^ r₀])
      = addCoeffs (block ++ r₀ :: (r ++ [0]))
          (List.replicate block.length 0 ++ scaleCoeffs (m ^^^ r₀) (genPoly e)) := by
        rw [polyTimes_concat, h, hzeros, List.append_assoc, List.cons_append]
    _ = block ++ addCoeffs (r₀ :: (r ++ [0])) ((m ^^^ r₀) :: scaleCoeffs (m ^^^ r₀) (genPoly e).tail) := by
        rw [addCoeffs_append (by simp), addCoeffs_zeros le_rfl, genPoly_eq_cons, scaleCoeffs_cons, gfMul_one_left,
          List.tail_cons]
    _ = block ++ [m] ++ divStep (genPoly e) (r₀ :: r) m := by
        rw [addCoeffs_cons, hm, List.append_assoc]
        rfl

/-- R144: a block with its EC codewords is the generator times a quotient. -/
theorem exists_quotient {e : Nat} (he : 1 ≤ e) (block : List Byte) :
    ∃ q : List Byte, q.length = block.length ∧ polyTimes (genPoly e) q = block ++ ecCodewords e block := by
  induction block using List.reverseRecOn with
  | nil => exact ⟨[], rfl, by simp [polyTimes, ecCodewords]⟩
  | append_singleton block m ih =>
    obtain ⟨q, hlen, hq⟩ := ih
    refine ⟨q ++ [m ^^^ (ecCodewords e block).headD 0], by simp [hlen], ?_⟩
    rw [polyTimes_divStep he (ecCodewords_length e block he) hq, ecCodewords_concat]

/-! ### Corner cases (R151) -/

theorem tail_zeros_concat (e : Nat) : (List.replicate e (0 : Byte)).tail ++ [0] = List.replicate (e - 1 + 1) 0 := by
  rw [List.tail_replicate, List.replicate_succ']

theorem genPoly_tail_length (e : Nat) : (genPoly e).tail.length = e := by simp

/-- A codeword taken into the cleared register adds its multiple of the generator. -/
theorem divStep_zeros (e : Nat) (m : Byte) :
    divStep (genPoly e) (List.replicate e 0) m = scaleCoeffs m (genPoly e).tail := by
  have hm : m ^^^ (List.replicate e 0).headD 0 = m := by cases e <;> exact BitVec.xor_zero
  rw [divStep, hm, tail_zeros_concat, addCoeffs_comm, addCoeffs_zeros]
  rw [scaleCoeffs_length, genPoly_tail_length]
  omega

theorem ecCodewords_zeros (e n : Nat) : ecCodewords e (List.replicate n 0) = List.replicate e 0 := by
  induction n with
  | zero => rfl
  | succ n ih => rw [List.replicate_succ', ecCodewords_concat, ih, divStep_zeros, scaleCoeffs_zero, genPoly_tail_length]

theorem ecCodewords_one (e : Nat) : ecCodewords e [1] = (genPoly e).tail :=
  (divStep_zeros e 1).trans (scaleCoeffs_one _)

theorem divStep_genPoly_one (r m : Byte) : divStep (genPoly 1) [r] m = [r ^^^ m] := by
  show [0 ^^^ gfMul 1 (m ^^^ r)] = _
  rw [gfMul_one_left, BitVec.xor_comm m]
  exact congrArg (fun c => [c]) BitVec.zero_xor

/-- R151: with one EC codeword the register is the sum of the codewords taken in. -/
theorem ecCodewords_degree_one (block : List Byte) : ecCodewords 1 block = [block.foldl (· ^^^ ·) 0] := by
  induction block using List.reverseRecOn with
  | nil => rfl
  | append_singleton block m ih =>
    rw [ecCodewords_concat, ih, divStep_genPoly_one, List.foldl_append]
    rfl

theorem addCoeffs_headD : ∀ {p q : List Byte}, p.length = q.length →
    (addCoeffs p q).headD 0 = p.headD 0 ^^^ q.headD 0
  | [], [], _ => rfl
  | _ :: _, _ :: _, _ => rfl

/-- The register is linear in itself and in the codeword taken in. -/
theorem divStep_addCoeffs {r r' : List Byte} (h : r.length = r'.length) (g : List Byte) (m m' : Byte) :
    divStep g (addCoeffs r r') (m ^^^ m') = addCoeffs (divStep g r m) (divStep g r' m') := by
  have hfeedback : (m ^^^ m') ^^^ (r.headD 0 ^^^ r'.headD 0) = (m ^^^ r.headD 0) ^^^ (m' ^^^ r'.headD 0) := by ac_rfl
  have hshift : (addCoeffs r r').tail ++ [0] = addCoeffs (r.tail ++ [0]) (r'.tail ++ [0]) := by
    rw [addCoeffs_append (by simp [h]), addCoeffs, List.tail_zipWith]
    rfl
  rw [divStep, addCoeffs_headD h, hfeedback, scaleCoeffs_xor, hshift, addCoeffs_addCoeffs, divStep, divStep]

theorem foldl_divStep_addCoeffs (g : List Byte) {a b r r' : List Byte} (h : a.length = b.length)
    (hr : r.length = r'.length) : (addCoeffs a b).foldl (divStep g) (addCoeffs r r') =
      addCoeffs (a.foldl (divStep g) r) (b.foldl (divStep g) r') := by
  induction a generalizing b r r' with
  | nil =>
    obtain rfl := List.eq_nil_of_length_eq_zero h.symm
    rfl
  | cons m a ih =>
    obtain ⟨m', b, rfl⟩ := List.exists_cons_of_length_eq_add_one h.symm
    rw [addCoeffs_cons, List.foldl_cons, divStep_addCoeffs hr, ih (Nat.succ.inj h) (by simp [divStep, hr]),
      List.foldl_cons, List.foldl_cons]

theorem ecCodewords_addCoeffs (e : Nat) {a b : List Byte} (h : a.length = b.length) :
    ecCodewords e (addCoeffs a b) = addCoeffs (ecCodewords e a) (ecCodewords e b) := by
  have hz : addCoeffs (List.replicate e 0) (List.replicate e 0) = List.replicate e 0 := addCoeffs_zeros (by simp)
  rw [ecCodewords, ← hz, foldl_divStep_addCoeffs _ h rfl]
  rfl

/-- R151: D = 0 is not a sum of blocks that hold data, so the layout check fails. -/
theorem layoutCheck_no_data (ileave : Bool) {l : Layout} (h : l.dcwTotal = 0) : ∃ e, layoutCheck ileave l = some e := by
  rw [← Option.ne_none_iff_exists']
  intro hc
  obtain ⟨hc1, hd1, -, hsum, -⟩ := layoutCheck_none hc
  have hpos := Nat.mul_pos hc1 hd1
  have hd : l.dcwTotal.toNat = 0 := by rw [h]; rfl
  omega

end Sys2Proof.Machine
open Sys2Proof Sys2Proof.Machine

/-- Settles O37: each round of the construction multiplies by one root factor. -/
theorem generatorIsTheRootProduct : Obligations.GeneratorIsTheRootProduct := fun e =>
  ⟨genPoly_length e, by rw [genPoly_eq_cons]; rfl, genPoly_getLast? e, polyEval_genPoly e⟩

/-- Settles O38: the quotient is what the register shifts out, and the generator vanishes at its roots. -/
theorem codewordIsAMultipleOfTheGenerator : Obligations.CodewordIsAMultipleOfTheGenerator := by
  intro e block he r
  obtain ⟨q, hlen, hq⟩ := exists_quotient he block
  refine ⟨ecCodewords_length e block he, ⟨q, hlen, hq⟩, fun i hi => ?_⟩
  rw [← hq, polyEval_polyTimes, polyEval_genPoly, rootProduct_gfPow hi, gfMul_zero_left]

/-- Settles O39: the register with one codeword, on zeros, on a sum and on a single one; a layout without data fails. -/
theorem ecCornerCases : Obligations.EcCornerCases :=
  ⟨ecCodewords_degree_one, ecCodewords_zeros, fun e _ _ => ecCodewords_addCoeffs e, ecCodewords_one,
    fun ileave _ => layoutCheck_no_data ileave⟩
end

section
/-! PROOFS. RSENC and ILEAVE once their layout checks pass: each writes its buffers and nothing else, with SEQ by index
(43_reed_solomon.md R146-R155). -/

namespace Sys2Proof.Machine

variable {s : State}

/-! ### RSENC (R146, R147, R149, R150) -/

/-- R147: the data codewords of block b, by its group. -/
theorem blockData_eq_ite (s : State) (b : Nat) : s.blockData b =
    if b < s.layout.g1.count.toNat then
      (List.range s.layout.g1.dcw.toNat).map fun j => s.byteAt (0x4000 + (b * s.layout.g1.dcw.toNat + j))
    else (List.range s.layout.g2.dcw.toNat).map fun j => s.byteAt (0x4000 +
      (s.layout.g1.count.toNat * s.layout.g1.dcw.toNat +
        (b - s.layout.g1.count.toNat) * s.layout.g2.dcw.toNat + j)) := by
  rw [State.blockData, State.bytesAt, Layout.blockStart, Layout.blockLength]
  split <;> simp only [dataBase, Nat.add_assoc]

/-- R99: of the bits RSENC clears only ECC comes back. -/
theorem exec_rsenc_of_none (h : layoutCheck false s.layout = none) :
    exec .rsenc s = .next ((rsencEffect s).succeeded { s.valid with ecc := true, seq := false }) := by
  rw [exec_eq_perform s (by decide), checkOf, h, perform_none, effectOf_valid]
  simp [Valid.plus, Valid.minus, setSet, clearSet, Instr.opcode, effectOf]

theorem rsencEffect_gen (h : layoutCheck false s.layout = none) {i : Nat} (hi : i < 32) :
    (rsencEffect s).byteAt (0x400 + i) =
      if i ≤ s.layout.ecwBlk.toNat then (genPoly s.layout.ecwBlk.toNat).getD i 0 else 0 := by
  rw [rsencEffect_byteAt s h, if_neg (by simp only [eccBase]; omega), if_pos (by simp only [genBase]; omega),
    show 0x400 + i - genBase = i from Nat.add_sub_cancel_left .., genBuffer_getD]

/-- Element k of part b lies in the n parts of length e. -/
theorem part_lt {b k n e : Nat} (hb : b < n) (hk : k < e) : b * e + k < n * e :=
  (Nat.add_lt_add_left hk _).trans_le (Nat.succ_mul b e ▸ Nat.mul_le_mul_right e hb)

theorem rsencEffect_ecc (h : layoutCheck false s.layout = none) {b k : Nat} (hb : b < s.layout.nb)
    (hk : k < s.layout.ecwBlk.toNat) : (rsencEffect s).byteAt (0x5000 + (b * s.layout.ecwBlk.toNat + k)) =
      (ecCodewords s.layout.ecwBlk.toNat (s.blockData b)).getD k 0 := by
  obtain ⟨-, -, -, -, he, -⟩ := layoutCheck_none h
  have hlt : b * s.layout.ecwBlk.toNat + k < s.layout.eccTotal := part_lt hb hk
  rw [rsencEffect_byteAt s h, if_pos ⟨Nat.le_add_right .., Nat.add_lt_add_left hlt _⟩,
    show 0x5000 + (b * s.layout.ecwBlk.toNat + k) - eccBase = _ from Nat.add_sub_cancel_left .., allEcc_getD s he b k hb hk]

/-! ### ILEAVE (R153, R154, R155) -/

theorem exec_ileave_of_none (h : layoutCheck true s.layout = none) :
    exec .ileave s = .next ((ileaveEffect s).succeeded { s.valid with seq := true }) := by
  rw [exec_eq_perform s (by decide), checkOf, h, perform_none, effectOf_valid]
  simp [Valid.plus, Valid.minus, setSet, clearSet, Instr.opcode, effectOf]

theorem seqTotal_le (h : layoutCheck true s.layout = none) : s.layout.seqTotal ≤ 4096 := by
  obtain ⟨-, -, -, -, -, -, -, hle⟩ := layoutCheck_none h
  exact (Nat.le_add_right ..).trans (hle rfl)

theorem ileaveEffect_seqLen (h : layoutCheck true s.layout = none) :
    (ileaveEffect s).seqLen.toNat = s.layout.seqTotal := by
  have hle := seqTotal_le h
  rw [ileaveEffect, interleaved_length s (layoutCheck_false_of_true h)]
  exact Nat.mod_eq_of_lt (by omega)

theorem ileaveEffect_seqBits (h : layoutCheck true s.layout = none) :
    (ileaveEffect s).seqBits.toNat = 8 * s.layout.seqTotal + s.layout.remBits.toNat := by
  have hle := seqTotal_le h
  have hrem := s.layout.remBits.isLt
  rw [ileaveEffect, interleaved_length s (layoutCheck_false_of_true h)]
  exact Nat.mod_eq_of_lt (by omega)

theorem ileaveEffect_seq (h : layoutCheck true s.layout = none) {i : Nat} (hi : i < s.layout.seqTotal) :
    (ileaveEffect s).byteAt (0x6000 + i) = s.interleaved.getD i 0 := by
  rw [ileaveEffect_byteAt s h, if_pos ⟨Nat.le_add_right .., Nat.add_lt_add_left hi _⟩,
    show 0x6000 + i - seqBase = i from Nat.add_sub_cancel_left ..]

/-- R154: D codewords are d1 full columns and the c2 codewords of the extra one. -/
theorem dcwTotal_eq_columns (h : layoutCheck false s.layout = none) :
    s.layout.dcwTotal.toNat = s.layout.g1.dcw.toNat * s.layout.nb + s.layout.g2.count.toNat := by
  obtain ⟨-, -, hd2, hsum, -⟩ := layoutCheck_none h
  rw [← hsum, Layout.nb]
  rcases Nat.eq_zero_or_pos s.layout.g2.count.toNat with hz | hz
  · rw [hz]; ring
  · rw [hd2 hz]; ring

theorem fullColumns_length (s : State) : ((List.range s.layout.g1.dcw.toNat).flatMap fun j =>
    (List.range s.layout.nb).map fun b => s.byteAt (dataBase + (s.layout.blockStart b + j))).length =
      s.layout.g1.dcw.toNat * s.layout.nb := flatMap_range_length _ _ _ fun _ _ => by simp

/-- R154: codeword j of block b in the full columns. -/
theorem interleaved_full (h : layoutCheck false s.layout = none) {j b : Nat} (hj : j < s.layout.g1.dcw.toNat)
    (hb : b < s.layout.nb) : s.interleaved.getD (j * s.layout.nb + b) 0 =
      s.byteAt (dataBase + (s.layout.blockStart b + j)) := by
  rw [interleaved_eq s h, List.getD_append _ _ _ _ (fullColumns_length s ▸ part_lt hj hb),
    flatMap_range_getD _ s.layout.nb _ _ (fun _ _ => by simp) _ _ hj hb]
  simp [hb]

/-- R154: codeword d1 of the k-th longer block. -/
theorem interleaved_extra (h : layoutCheck false s.layout = none) {k : Nat} (hk : k < s.layout.g2.count.toNat) :
    s.interleaved.getD (s.layout.g1.dcw.toNat * s.layout.nb + k) 0 =
      s.byteAt (dataBase + (s.layout.blockStart (s.layout.g1.count.toNat + k) + s.layout.g1.dcw.toNat)) := by
  have hfull := fullColumns_length s
  rw [interleaved_eq s h, List.getD_append_right _ _ _ _ (by omega), hfull, Nat.add_sub_cancel_left,
    List.getD_append _ _ _ _ (by simpa using hk)]
  simp [hk]

/-- R154: EC codeword j of block b, behind the D data codewords. -/
theorem interleaved_ecc (h : layoutCheck false s.layout = none) {j b : Nat} (hj : j < s.layout.ecwBlk.toNat)
    (hb : b < s.layout.nb) : s.interleaved.getD (s.layout.dcwTotal.toNat + (j * s.layout.nb + b)) 0 =
      s.byteAt (eccBase + (b * s.layout.ecwBlk.toNat + j)) := by
  have hfull := fullColumns_length s
  rw [interleaved_eq s h, dcwTotal_eq_columns h, Nat.add_assoc, List.getD_append_right _ _ _ _ (by omega), hfull,
    Nat.add_sub_cancel_left, List.getD_append_right _ _ _ _ (by simp), List.length_map, List.length_range,
    Nat.add_sub_cancel_left, flatMap_range_getD _ s.layout.nb _ _ (fun _ _ => eccColumn_length ..) _ _ hj hb]
  simp [State.eccColumn, hb]

end Sys2Proof.Machine

open Sys2Proof Sys2Proof.Machine

/-- Settles O41: the bytes RSENC writes are GEN and, block by block, ECC. -/
theorem rsencWritesTheEcCodewords : Obligations.RsencWritesTheEcCodewords := by
  intro s h c1 d1 d2 nb e block
  refine ⟨_, exec_rsenc_of_none h, rfl, fun i hi => rsencEffect_gen h hi, fun b k hb hk => ?_, fun a hgen hecc => ?_⟩
  · exact (rsencEffect_ecc h hb hk).trans (by rw [blockData_eq_ite])
  · exact (rsencEffect_byteAt s h a).trans ((if_neg hecc).trans (if_neg hgen))

/-- Settles O42: SEQ is the full columns, the extra one and the EC columns, by index. -/
theorem ileaveClosedForm : Obligations.IleaveClosedForm := by
  intro s h c1 d1 c2 d2 nb e d rem start
  have h' := layoutCheck_false_of_true h
  have hd : d = d1 * nb + c2 := dcwTotal_eq_columns h'
  have hseq {i : Nat} (hi : i < d + nb * e) := ileaveEffect_seq h (i := i) hi
  refine ⟨_, exec_ileave_of_none h, rfl, ileaveEffect_seqLen h, ileaveEffect_seqBits h, fun j b hj hb => ?_,
    fun k hk => ?_, fun j b hj hb => ?_, fun hr => ?_, fun a ha => ?_⟩
  · have hlt : j * nb + b < d1 * nb := part_lt hj hb
    exact (hseq (by omega)).trans (interleaved_full h' hj hb)
  · exact (hseq (by omega)).trans (interleaved_extra h' hk)
  · have hlt : j * nb + b < nb * e := Nat.mul_comm nb e ▸ part_lt hj hb
    exact (hseq (Nat.add_lt_add_left hlt d)).trans (interleaved_ecc h' hj hb)
  · exact (ileaveEffect_byteAt s h _).trans ((if_neg fun hlt => Nat.lt_irrefl _ hlt.2).trans (if_pos ⟨rfl, hr⟩))
  · refine (ileaveEffect_byteAt s h a).trans ((if_neg ?_).trans (if_neg ?_))
    · exact fun hin => ha ⟨hin.1, Nat.lt_add_right _ hin.2⟩
    · rintro ⟨rfl, hr⟩
      exact ha ⟨Nat.le_add_right .., by rw [if_pos hr]; exact Nat.lt_succ_self _⟩
end

section
/-! PROOFS. Remainders over GF(2), and the format and version words made with them (44_mask_format.md R178-R180). -/

namespace Sys2Proof.Machine

/-! ### The loop of `bchrem` (R178) -/

theorem bitLength_le_iff (x n : Nat) : bitLength x ≤ n ↔ x < 2 ^ n := by
  unfold bitLength
  split
  · next h => simp [h]
  · next h => rw [Nat.succ_le_iff, Nat.log2_lt h]

theorem testBit_of_bitLength {x m : Nat} (h : bitLength x = m + 1) : x.testBit m = true := by
  have hx : x ≠ 0 := by
    rintro rfl
    exact absurd h (by simp [bitLength])
  rw [bitLength, if_neg hx, Nat.succ.injEq] at h
  exact h ▸ Nat.testBit_log2 hx

theorem testBit_of_bitLength_le {x i : Nat} (h : bitLength x ≤ i) : x.testBit i = false :=
  Nat.testBit_lt_two_pow ((bitLength_le_iff x i).1 h)

/-- A round cancels the leading bit of x against that of the shifted generator. -/
theorem bitLength_round_lt {x g k : Nat} (hg : bitLength g = k + 1) (hx : k < bitLength x) :
    bitLength (x ^^^ (g <<< (bitLength x - 1 - k))) < bitLength x := by
  obtain ⟨m, hm⟩ := Nat.exists_eq_add_one_of_ne_zero (Nat.ne_zero_of_lt hx)
  rw [hm, Nat.lt_succ_iff, bitLength_le_iff]
  refine Nat.lt_pow_two_of_testBit _ fun i hi => ?_
  rw [Nat.testBit_xor, Nat.testBit_shiftLeft, decide_eq_true (by omega), Bool.true_and]
  rcases hi.eq_or_lt with rfl | hi
  · rw [testBit_of_bitLength hm, show m - (m + 1 - 1 - k) = k by omega, testBit_of_bitLength hg]
    rfl
  · rw [testBit_of_bitLength_le (by omega), testBit_of_bitLength_le (by omega)]
    rfl

theorem bitLength_bchLoop_le {g k : Nat} (hg : bitLength g = k + 1) {fuel x : Nat} (hx : bitLength x ≤ fuel) :
    bitLength (bchLoop g k fuel x) ≤ k := by
  induction fuel generalizing x with
  | zero => exact hx.trans (Nat.zero_le k)
  | succ fuel ih =>
    unfold bchLoop
    split
    · next hk => exact ih (by have := bitLength_round_lt hg hk; omega)
    · next hk => exact Nat.le_of_not_lt hk

/-- A generator that is not 0 has a degree. -/
theorem bitLength_eq_degree {g : Nat} (hg : 0 < g) : bitLength g = bitLength g - 1 + 1 := by
  have hpos : bitLength g ≠ 0 := by simp [bitLength, hg.ne']
  omega

/-- R178: the remainder is shorter than the generator. -/
theorem bitLength_bchRem_lt (x : Nat) {g : Nat} (hg : 0 < g) : bitLength (bchRem x g) < bitLength g :=
  (Nat.lt_succ_of_le (bitLength_bchLoop_le (bitLength_eq_degree hg) le_rfl)).trans_eq (bitLength_eq_degree hg).symm

/-! ### The quotient (R178) -/

theorem bitProduct_zero_left (g n : Nat) : bitProduct 0 g n = 0 := by
  induction n with
  | zero => rfl
  | succ n ih => simp [bitProduct, ih]

theorem bitProduct_xor_two_pow (q g j n : Nat) :
    bitProduct (q ^^^ 2 ^ j) g n = bitProduct q g n ^^^ (if j < n then g <<< j else 0) := by
  induction n with
  | zero => simp [bitProduct]
  | succ n ih =>
    rw [bitProduct, bitProduct, ih, Nat.testBit_xor, Nat.testBit_two_pow, Nat.xor_right_comm]
    rcases Nat.lt_trichotomy j n with hj | rfl | hj
    · simp [hj, hj.ne, Nat.lt_succ_of_lt hj, Nat.xor_right_comm]
    · cases q.testBit j <;> simp
    · simp [hj.ne', hj.not_gt, (Nat.succ_le_of_lt hj).not_gt]

/-- Every round adds a shifted generator, a bit of the quotient. -/
theorem exists_bitProduct_bchLoop {g k : Nat} (hg : bitLength g = k + 1) (n fuel : Nat) {x : Nat}
    (hx : bitLength x ≤ n) : ∃ q, x = bitProduct q g n ^^^ bchLoop g k fuel x := by
  induction fuel generalizing x with
  | zero => exact ⟨0, by rw [bitProduct_zero_left, Nat.zero_xor]; rfl⟩
  | succ fuel ih =>
    unfold bchLoop
    split
    · next hk =>
      obtain ⟨q, hq⟩ := ih ((bitLength_round_lt hg hk).le.trans hx)
      refine ⟨q ^^^ 2 ^ (bitLength x - 1 - k), ?_⟩
      rw [bitProduct_xor_two_pow, if_pos (by omega), Nat.xor_right_comm, ← hq, Nat.xor_xor_cancel_right]
    · exact ⟨0, by rw [bitProduct_zero_left, Nat.zero_xor]⟩

/-! ### Words with their remainder (R179, R180) -/

/-- A remainder of at most k bits stands below a word shifted by k. -/
theorem shiftLeft_or_bchRem (d x : Nat) {g k : Nat} (hg : bitLength g = k + 1) :
    (d <<< k) ||| bchRem x g = (d * 2 ^ k) ^^^ bchRem x g := by
  have hpos : 0 < g := Nat.pos_of_ne_zero fun h => by simp [h, bitLength] at hg
  have hr : bitLength (bchRem x g) ≤ k := Nat.le_of_lt_succ ((bitLength_bchRem_lt x hpos).trans_eq hg)
  rw [← Nat.shiftLeft_eq]
  refine Nat.eq_of_testBit_eq fun i => ?_
  rw [Nat.testBit_or, Nat.testBit_xor, Nat.testBit_shiftLeft]
  rcases Nat.lt_or_ge i k with hi | hi
  · simp [Nat.not_le_of_lt hi]
  · simp [testBit_of_bitLength_le (hr.trans hi)]

/-- R179: the mask index stands in the low three bits. -/
theorem formatWord_eq (d : Nat) {m : Nat} (hm : m < 8) :
    formatWord d m = (((8 * d + m) * 1024) ^^^ bchRem ((8 * d + m) * 1024) 0x537) ^^^ 0x5412 := by
  have hd : (d <<< 3) ||| m = 8 * d + m := by
    rw [← Nat.shiftLeft_add_eq_or_of_lt hm, Nat.shiftLeft_eq, Nat.mul_comm]
  rw [formatWord, hd, shiftLeft_or_bchRem _ _ (by decide +kernel), Nat.shiftLeft_eq]
  rfl

theorem versionWordWith_default (v : Nat) :
    versionWordWith 0x1F25 v = (v * 4096) ^^^ bchRem (v * 4096) 0x1F25 := by
  rw [versionWordWith, shiftLeft_or_bchRem _ _ (by decide +kernel), Nat.shiftLeft_eq]
  rfl

/-- The number of the low n bits in which two words differ. -/
def bitDistance (n x y : Nat) : Nat := ((List.range n).filter fun k => x.testBit k != y.testBit k).length

theorem formatWord_distance : ∀ a < 32, ∀ b < 32, a ≠ b →
    7 ≤ bitDistance 15 (formatWord (a / 8) (a % 8)) (formatWord (b / 8) (b % 8)) := by decide +kernel

theorem versionWord_distance : ∀ b < 41, ∀ a < b, 7 ≤ a →
    8 ≤ bitDistance 18 (versionWord a) (versionWord b) := by decide +kernel

theorem versionWord_of_lt {v : Nat} (h : v < 7) : versionWord v = 0 := if_neg (Nat.not_le_of_lt h)

end Sys2Proof.Machine

open Sys2Proof Sys2Proof.Machine

/-- Settles O53: every round shortens x by its leading bit and adds a shifted generator. -/
theorem bchRemainderIsTheRemainder : Obligations.BchRemainderIsTheRemainder := by
  intro x g hg
  obtain ⟨q, hq⟩ := exists_bitProduct_bchLoop (bitLength_eq_degree hg) _ (bitLength x) le_rfl
  exact ⟨bitLength_bchRem_lt x hg, q, _, hq⟩

/-- Settles O54: the table by evaluation, the formula for every data word. -/
theorem formatWordTable : Obligations.FormatWordTable := by
  refine ⟨fun e m he hm => ?_, fun d m _ hm => formatWord_eq d hm, fun a b ha hb => formatWord_distance a ha b hb⟩
  interval_cases e <;> interval_cases m <;> decide +kernel

/-- Settles O55: the table by evaluation, the formula for every version. -/
theorem versionWordTable : Obligations.VersionWordTable := by
  refine ⟨fun v => versionWord_of_lt, fun v h7 h40 => ?_, fun v _ => versionWordWith_default v,
    fun a b h7 hab hb => versionWord_distance b (Nat.lt_succ_of_le hb) a hab h7, by decide +kernel⟩
  interval_cases v <;> decide +kernel
end

section
/-! PROOFS. The four penalties of a square candidate and their bounds (44_mask_format.md R160, R166-R170). -/

namespace Sys2Proof.Machine

/-! ### Lines (R160) -/

theorem map_range_getD {α : Type} (l : List α) (d : α) : (List.range l.length).map (fun k => l.getD k d) = l :=
  List.ext_getElem (by simp) fun k _ h => by simp [h]

/-- The 2 n lines of an n × n candidate are its rows and its columns. -/
theorem scanLines_eq {g : List (List Bool)} {n : Nat} (h : Square n g) :
    scanLines g = (List.range n).map (gridRow g) ++ (List.range n).map (gridColumn g n) := by
  obtain ⟨hlen, -⟩ := h
  have hrows : (List.range n).map (gridRow g) = g := by rw [← hlen]; exact map_range_getD g []
  have hcolumn (c : Nat) : g.map (fun row => row.getD c false) = gridColumn g n c := by
    conv_lhs => rw [← hrows, List.map_map]
    rfl
  rw [scanLines, columns, hrows, hlen, List.map_congr_left fun c _ => hcolumn c]

theorem sum_scanLines {g : List (List Bool)} {n : Nat} (h : Square n g) (score : List Bool → Nat) :
    ((scanLines g).map score).sum = sumOverLines score g n := by
  rw [scanLines_eq h, List.map_append, List.sum_append, List.map_map, List.map_map]
  rfl

/-! ### Rule 1 (R167) -/

/-- A line that is not empty starts with a maximal run. -/
theorem exists_first_run (b : Bool) (l : List Bool) :
    ∃ n rest, l = List.replicate n b ++ rest ∧ rest.head? ≠ some b := by
  induction l with
  | nil => exact ⟨0, [], rfl, by simp⟩
  | cons a l ih =>
    by_cases hab : a = b
    · obtain ⟨n, rest, rfl, hrest⟩ := ih
      exact ⟨n + 1, rest, by rw [hab]; rfl, hrest⟩
    · exact ⟨0, a :: l, rfl, by simpa using hab⟩

/-- Induction on the runs of a line. -/
theorem induction_on_runs {P : List Bool → Prop} (nil : P [])
    (run : ∀ b n rest, rest.head? ≠ some b → P rest → P (List.replicate (n + 1) b ++ rest)) (line : List Bool) :
    P line := by
  induction hl : line.length using Nat.strong_induction_on generalizing line with
  | _ len ih =>
    cases line with
    | nil => exact nil
    | cons b l =>
      obtain ⟨n, rest, rfl, hrest⟩ := exists_first_run b l
      rw [List.length_cons, List.length_append, List.length_replicate] at hl
      exact run b n rest hrest (ih rest.length (by omega) rest rfl)

/-- R167: what a maximal run of a length adds. -/
def scoreOfLength (len : Nat) : Nat := if 5 ≤ len then len - 2 else 0

theorem runsFrom_replicate {b : Bool} {rest : List Bool} (hrest : rest.head? ≠ some b) (m n : Nat) :
    runsFrom b m (List.replicate n b ++ rest) = (m + n) :: runLengths rest := by
  induction n generalizing m with
  | zero =>
    cases rest with
    | nil => rfl
    | cons a rest => exact if_neg (by simpa using hrest)
  | succ n ih =>
    rw [List.replicate_succ, List.cons_append, runsFrom, if_pos rfl, ih, Nat.add_right_comm, Nat.add_assoc]

theorem runScore_run {b : Bool} {rest : List Bool} (hrest : rest.head? ≠ some b) (n : Nat) :
    runScore (List.replicate (n + 1) b ++ rest) = scoreOfLength (n + 1) + runScore rest := by
  rw [runScore, List.replicate_succ, List.cons_append, runLengths, runsFrom_replicate hrest, Nat.add_comm 1 n,
    List.map_cons, List.sum_cons]
  rfl

theorem maximalRun_iff (line : List Bool) (i len : Nat) : maximalRun line i len = true ↔
    0 < len ∧ i + len ≤ line.length ∧ (∀ k < len, line.getD (i + k) false = line.getD i false) ∧
    (i = 0 ∨ line.getD (i - 1) false ≠ line.getD i false) ∧
    (i + len = line.length ∨ line.getD (i + len) false ≠ line.getD i false) := by
  simp only [maximalRun, Bool.and_eq_true, Bool.or_eq_true, decide_eq_true_eq, beq_iff_eq, bne_iff_ne, List.all_eq_true,
    List.mem_range, and_assoc]

/-- What the len modules from i on add to rule 1. -/
def runTerm (line : List Bool) (i len : Nat) : Nat := if maximalRun line i len && decide (5 ≤ len) then len - 2 else 0

theorem maximalRunScore_eq (line : List Bool) : maximalRunScore line =
    ∑ i ∈ Finset.range line.length, ∑ len ∈ Finset.range (line.length + 1), runTerm line i len := rfl

theorem runTerm_of_maximal {line : List Bool} {i len : Nat} (h : maximalRun line i len = true) :
    runTerm line i len = scoreOfLength len := by simp [runTerm, scoreOfLength, h]

theorem runTerm_of_not_maximal {line : List Bool} {i len : Nat} (h : ¬ maximalRun line i len = true) :
    runTerm line i len = 0 := by simp [runTerm, h]

section FirstRun
variable {b : Bool} {rest : List Bool}

theorem getD_first_run (n : Nat) (rest : List Bool) {k : Nat} (h : k < n) :
    (List.replicate n b ++ rest).getD k false = b := by
  rw [List.getD_append _ _ _ _ (by simpa using h)]
  simp [h]

theorem getD_after_run (b : Bool) (n : Nat) (rest : List Bool) (k : Nat) :
    (List.replicate n b ++ rest).getD (n + k) false = rest.getD k false := by
  rw [List.getD_append_right _ _ _ _ (by simp)]
  simp

theorem getD_zero_ne (hrest : rest.head? ≠ some b) (h : rest.length ≠ 0) : rest.getD 0 false ≠ b := by
  cases rest with
  | nil => exact absurd rfl h
  | cons a rest => simpa using hrest

/-- The maximal run at the start of a line is its first run. -/
theorem maximalRun_first (hrest : rest.head? ≠ some b) (n len : Nat) :
    maximalRun (List.replicate (n + 1) b ++ rest) 0 len = true ↔ len = n + 1 := by
  have hfirst {k : Nat} (hk : k < n + 1) := getD_first_run (b := b) (n + 1) rest hk
  have hend := getD_after_run b (n + 1) rest 0
  rw [maximalRun_iff, hfirst n.succ_pos, List.length_append, List.length_replicate]
  simp only [Nat.zero_add, Nat.add_zero] at hend ⊢
  constructor
  · rintro ⟨-, hle, hall, -, hlast⟩
    by_contra hne
    rcases Nat.lt_or_gt_of_ne hne with hlt | hgt
    · exact hlast.elim (by omega) fun h => h (hfirst hlt)
    · exact getD_zero_ne hrest (by omega) (hend ▸ hall _ hgt)
  · rintro rfl
    refine ⟨by omega, by omega, fun k hk => hfirst hk, .inl trivial, ?_⟩
    by_cases h : rest.length = 0
    · exact .inl (by omega)
    · exact .inr (hend ▸ getD_zero_ne hrest h)

/-- No maximal run starts inside the first run. -/
theorem maximalRun_inside {n i : Nat} (hi : i < n) (len : Nat) :
    ¬ maximalRun (List.replicate (n + 1) b ++ rest) (i + 1) len = true := by
  rw [maximalRun_iff, getD_first_run _ _ (by omega : i + 1 < n + 1), Nat.add_sub_cancel, getD_first_run _ _ (by omega)]
  simp

/-- Behind the first run the maximal runs are those of the rest. -/
theorem maximalRun_behind (hrest : rest.head? ≠ some b) (n i len : Nat) :
    maximalRun (List.replicate (n + 1) b ++ rest) (n + 1 + i) len = maximalRun rest i len := by
  have hprev (hpos : 0 < len) (hle : i + len ≤ rest.length) :
      (n + 1 + i = 0 ∨ (List.replicate (n + 1) b ++ rest).getD (n + 1 + i - 1) false ≠ rest.getD i false) ↔
        (i = 0 ∨ rest.getD (i - 1) false ≠ rest.getD i false) := by
    cases i with
    | zero =>
      rw [Nat.add_zero, Nat.add_sub_cancel, getD_first_run _ _ n.lt_succ_self]
      simpa using Ne.symm (getD_zero_ne hrest (by omega))
    | succ i =>
      rw [← Nat.add_assoc, Nat.add_sub_cancel, Nat.add_sub_cancel, getD_after_run]
      simp
  rw [Bool.eq_iff_iff, maximalRun_iff, maximalRun_iff]
  simp only [Nat.add_assoc (n + 1), getD_after_run, List.length_append, List.length_replicate, Nat.add_le_add_iff_left,
    Nat.add_left_cancel_iff]
  exact and_congr_right fun hpos => and_congr_right fun hle => and_congr_right fun _ =>
    and_congr_left' (hprev hpos hle)

theorem sum_runTerm_first (hrest : rest.head? ≠ some b) {n top : Nat} (htop : n + 1 < top) :
    ∑ len ∈ Finset.range top, runTerm (List.replicate (n + 1) b ++ rest) 0 len = scoreOfLength (n + 1) := by
  rw [Finset.sum_eq_single_of_mem (n + 1) (Finset.mem_range.2 htop) fun len _ hne =>
    runTerm_of_not_maximal (mt (maximalRun_first hrest n len).1 hne)]
  exact runTerm_of_maximal ((maximalRun_first hrest n _).2 rfl)

theorem sum_runTerm_inside {n i : Nat} (hi : i < n) (top : Nat) :
    ∑ len ∈ Finset.range top, runTerm (List.replicate (n + 1) b ++ rest) (i + 1) len = 0 :=
  Finset.sum_eq_zero fun len _ => runTerm_of_not_maximal (maximalRun_inside hi len)

/-- Lengths past the end of the rest add nothing. -/
theorem sum_runTerm_behind (hrest : rest.head? ≠ some b) (n i : Nat) {top : Nat} (htop : rest.length + 1 ≤ top) :
    ∑ len ∈ Finset.range top, runTerm (List.replicate (n + 1) b ++ rest) (n + 1 + i) len =
      ∑ len ∈ Finset.range (rest.length + 1), runTerm rest i len := by
  simp only [runTerm, maximalRun_behind hrest]
  refine Finset.eventually_constant_sum (fun len hlen => runTerm_of_not_maximal ?_) htop
  rw [maximalRun_iff]
  omega

/-- R167: the first run adds its score to that of the rest. -/
theorem maximalRunScore_run (hrest : rest.head? ≠ some b) (n : Nat) :
    maximalRunScore (List.replicate (n + 1) b ++ rest) = scoreOfLength (n + 1) + maximalRunScore rest := by
  have hlen : (List.replicate (n + 1) b ++ rest).length = n + 1 + rest.length := by simp
  rw [maximalRunScore_eq, maximalRunScore_eq, hlen, Finset.sum_range_add, Finset.sum_range_succ',
    Finset.sum_eq_zero fun i hi => sum_runTerm_inside (Finset.mem_range.1 hi) _, sum_runTerm_first hrest (by omega),
    Nat.zero_add]
  exact congrArg _ (Finset.sum_congr rfl fun i _ => sum_runTerm_behind hrest n i (by omega))

end FirstRun

theorem runScore_eq (line : List Bool) : runScore line = maximalRunScore line := by
  induction line using induction_on_runs with
  | nil => rfl
  | run b n rest hrest ih => rw [runScore_run hrest, maximalRunScore_run hrest, ih]

/-! ### Rule 2 (R168) -/

/-- The uniform positions between two rows, by column. -/
def uniformColumns (r0 r1 : List Bool) (n : Nat) : Nat :=
  ((List.range n).filter fun c => r0.getD c false == r0.getD (c + 1) false && r0.getD c false == r1.getD c false &&
    r0.getD c false == r1.getD (c + 1) false).length

theorem uniformBlocks_eq {r0 r1 : List Bool} (h : r0.length = r1.length) :
    uniformBlocks r0 r1 = uniformColumns r0 r1 (r0.length - 1) := by
  induction r0 generalizing r1 with
  | nil => rfl
  | cons a xs ih =>
    obtain ⟨c, ys, rfl⟩ := List.exists_cons_of_length_eq_add_one h.symm
    cases xs with
    | nil => rfl
    | cons b xs =>
      obtain ⟨d, ys, rfl⟩ := List.exists_cons_of_length_eq_add_one (Nat.succ.inj h).symm
      rw [uniformBlocks, ih (Nat.succ.inj h), uniformColumns, uniformColumns]
      simp only [List.length_cons, Nat.add_sub_cancel, ← List.countP_eq_length_filter]
      rw [List.range_succ_eq_map, List.countP_cons, List.countP_map, Nat.add_comm]
      congr 1
      simp [and_assoc]

theorem blockCount_eq {g : List (List Bool)} {n : Nat} (h : ∀ row ∈ g, row.length = n) :
    blockCount g = ((List.range (g.length - 1)).map fun r =>
      uniformColumns (gridRow g r) (gridRow g (r + 1)) (n - 1)).sum := by
  induction g with
  | nil => rfl
  | cons r0 g ih =>
    cases g with
    | nil => rfl
    | cons r1 g =>
      have h0 : r0.length = n := h r0 (by simp)
      have h1 : r1.length = n := h r1 (by simp)
      rw [blockCount, ih fun row hrow => h row (List.mem_cons_of_mem _ hrow), uniformBlocks_eq (h0.trans h1.symm), h0]
      simp only [List.length_cons, Nat.add_sub_cancel]
      rw [List.range_succ_eq_map, List.map_cons, List.sum_cons, List.map_map]
      rfl

/-- R168: the positions row by row. -/
theorem penalty2_eq {g : List (List Bool)} {n : Nat} (h : Square n g) : penalty2 g = 3 * uniformPositions g n := by
  obtain ⟨hlen, hrows⟩ := h
  rw [penalty2, blockCount_eq hrows, hlen]
  rfl

/-! ### Rule 3 (R169) -/

/-- A pattern stands at a position when its first module does and the others stand behind. -/
theorem take_drop_eq_cons_iff (line : List Bool) (t k : Nat) (b : Bool) (p : List Bool) :
    (line.drop t).take (k + 1) = b :: p ↔
      (t < line.length ∧ line.getD t false = b) ∧ (line.drop (t + 1)).take k = p := by
  rcases Nat.lt_or_ge t line.length with h | h
  · rw [List.drop_eq_getElem_cons h, List.take_succ_cons, List.cons.injEq, List.getD_eq_getElem _ _ h]
    simp [h]
  · simp [List.drop_eq_nil_of_le h, Nat.not_lt_of_le h]

theorem lightMargin_iff (line : List Bool) (t : Nat) : lightMargin line t = true ↔
    t + 4 ≤ line.length ∧ line.getD t false = false ∧ line.getD (t + 1) false = false ∧
    line.getD (t + 2) false = false ∧ line.getD (t + 3) false = false := by
  rw [lightMargin, beq_iff_eq]
  simp only [take_drop_eq_cons_iff, List.take_zero, and_true]
  grind

theorem core_iff (line : List Bool) (t : Nat) : ((line.drop t).take 7 == finderCore) = true ↔
    t + 7 ≤ line.length ∧ line.getD t false = true ∧ line.getD (t + 1) false = false ∧ line.getD (t + 2) false = true ∧
    line.getD (t + 3) false = true ∧ line.getD (t + 4) false = true ∧ line.getD (t + 5) false = false ∧
    line.getD (t + 6) false = true := by
  rw [finderCore, beq_iff_eq]
  simp only [take_drop_eq_cons_iff, List.take_zero, and_true]
  grind

/-- R169: the model's test of a position is the rule's: four light modules from t - 4 on are those before t, and from t + 7
on those behind the core. -/
theorem finderAt_eq (line : List Bool) (t : Nat) : finderAt line t = finderOccurrence line t := by
  rw [Bool.eq_iff_iff, finderAt, Bool.and_eq_true, core_iff, Bool.or_eq_true, Bool.and_eq_true, decide_eq_true_eq,
    lightMargin_iff, lightMargin_iff]
  simp only [finderOccurrence, Bool.and_eq_true, Bool.or_eq_true, decide_eq_true_eq, Bool.not_eq_true', Nat.add_assoc]
  grind

theorem finderOccurrence_of_short {line : List Bool} {t : Nat} (h : line.length - 6 ≤ t) :
    finderOccurrence line t = false := by
  rw [finderOccurrence, decide_eq_false (by omega)]
  rfl

theorem mul_length_filter {α : Type} (k : Nat) (p : α → Bool) (l : List α) :
    k * (l.filter p).length = (l.map fun a => if p a then k else 0).sum := by
  induction l with
  | nil => rfl
  | cons a l ih => cases h : p a <;> simp [h, ← ih, Nat.mul_succ, Nat.add_comm]

theorem finderScore_eq (line : List Bool) : finderScore line = finderOccurrenceScore line := by
  rw [finderScore, funext (finderAt_eq line), mul_length_filter]
  exact (Finset.eventually_constant_sum (fun t ht => by rw [finderOccurrence_of_short ht]; rfl) (Nat.sub_le ..)).symm

/-! ### Rule 4 (R170) -/

/-- R170: dk, module by module. -/
theorem darkCount_eq {g : List (List Bool)} {n : Nat} (h : Square n g) : darkCount g =
    ((List.range n).map fun r => ((List.range n).filter fun c => (g.getD r []).getD c false).length).sum := by
  obtain ⟨hlen, hrows⟩ := h
  have hrow (row : List Bool) (hr : row ∈ g) :
      (row.filter fun b => b).length = ((List.range n).filter fun c => row.getD c false).length := by
    conv_lhs => rw [← map_range_getD row false, hrows row hr, List.filter_map, List.length_map]
    rfl
  rw [darkCount, List.map_congr_left hrow]
  conv_lhs => rw [← map_range_getD g [], hlen, List.map_map]
  rfl

theorem distance_eq (a b : Nat) : (distance a b : Int) = |(a : Int) - b| := by
  unfold distance
  rcases Nat.le_total a b with h | h
  · rw [abs_of_nonpos (by omega)]; omega
  · rw [abs_of_nonneg (by omega)]; omega

/-- R170: the model's natural numbers and the rule's integers agree. -/
theorem penalty4_eq {g : List (List Bool)} {n : Nat} (h : Square n g) : (penalty4 g : Int) =
    10 * (|100 * (darkCount g : Int) - 50 * (n * n : Int)| / (5 * (n * n : Int))) := by
  obtain ⟨hlen, -⟩ := h
  rw [penalty4, hlen]
  push_cast [distance_eq]
  rfl

/-! ### Bounds (R166) -/

/-- A list of numbers of at most k each. -/
theorem sum_map_le {α : Type} {f : α → Nat} {l : List α} {k : Nat} (h : ∀ a ∈ l, f a ≤ k) :
    (l.map f).sum ≤ l.length * k := by
  have hle := List.sum_le_card_nsmul (l.map f) k fun x hx => by
    obtain ⟨a, ha, rfl⟩ := List.mem_map.1 hx
    exact h a ha
  simpa using hle

theorem length_of_mem_scanLines {g : List (List Bool)} {n : Nat} (h : Square n g) {line : List Bool}
    (hl : line ∈ scanLines g) : line.length = n := by
  obtain ⟨hlen, hrows⟩ := h
  rcases List.mem_append.1 hl with hrow | hcol
  · exact hrows line hrow
  · obtain ⟨c, -, rfl⟩ := List.mem_map.1 hcol
    rw [List.length_map, hlen]

/-- A score of at most k a line is at most 2 n k for the 2 n lines. -/
theorem sum_scanLines_le {g : List (List Bool)} {n k : Nat} (h : Square n g) {score : List Bool → Nat}
    (hscore : ∀ line : List Bool, line.length = n → score line ≤ k) : ((scanLines g).map score).sum ≤ 2 * n * k := by
  have hlines : (scanLines g).length = 2 * n := by rw [scanLines_eq h]; simp [Nat.two_mul]
  exact hlines ▸ sum_map_le fun line hl => hscore line (length_of_mem_scanLines h hl)

/-- Every run of five or more loses two modules, and there is one at least when anything is scored. -/
theorem sum_runsFrom_le (b : Bool) (m : Nat) (l : List Bool) :
    ((runsFrom b m l).map scoreOfLength).sum ≤ m + l.length - 2 := by
  induction l generalizing b m with
  | nil =>
    rw [runsFrom, List.map_singleton, List.sum_singleton, scoreOfLength, List.length_nil]
    split <;> omega
  | cons a l ih =>
    rw [runsFrom, List.length_cons]
    split
    · exact (ih b (m + 1)).trans (by omega)
    · have hrest := ih a 1
      rw [List.map_cons, List.sum_cons]
      unfold scoreOfLength at hrest ⊢
      split <;> omega

theorem runScore_le (line : List Bool) : runScore line ≤ line.length - 2 := by
  cases line with
  | nil => exact Nat.le_refl 0
  | cons b l => exact (sum_runsFrom_le b 1 l).trans (by rw [List.length_cons, Nat.add_comm])

theorem finderScore_le (line : List Bool) : finderScore line ≤ 40 * (line.length - 6) :=
  Nat.mul_le_mul_left 40 ((List.length_filter_le ..).trans_eq List.length_range)

theorem sum_length_filter_range_le (p : Nat → Nat → Bool) (n : Nat) :
    ((List.range n).map fun r => ((List.range n).filter (p r)).length).sum ≤ n * n := by
  simpa using sum_map_le (l := List.range n) fun r _ =>
    (List.length_filter_le (p r) (List.range n)).trans_eq List.length_range

section Bounds
variable {g : List (List Bool)} {n : Nat}

theorem penalty1_le (h : Square n g) : penalty1 g ≤ 2 * n * (n - 2) :=
  sum_scanLines_le h fun line hl => hl ▸ runScore_le line

theorem penalty2_le (h : Square n g) : penalty2 g ≤ 3 * ((n - 1) * (n - 1)) :=
  penalty2_eq h ▸ Nat.mul_le_mul_left 3 (sum_length_filter_range_le ..)

theorem penalty3_le (h : Square n g) : penalty3 g ≤ 2 * n * (40 * (n - 6)) :=
  sum_scanLines_le h fun line hl => hl ▸ finderScore_le line

theorem darkCount_le (h : Square n g) : darkCount g ≤ n * n :=
  darkCount_eq h ▸ sum_length_filter_range_le ..

/-- R170: the balance is off by half of the modules at most, ten steps of 5 %. -/
theorem penalty4_le (h : Square n g) : penalty4 g ≤ 100 := by
  have hdark := darkCount_le h
  obtain ⟨hlen, -⟩ := h
  rw [penalty4, hlen]
  have hdistance : distance (100 * darkCount g) (50 * (n * n)) ≤ 5 * (n * n) * 10 := by
    unfold distance
    omega
  exact Nat.mul_le_mul_left 10 (Nat.div_le_of_le_mul hdistance)

end Bounds

end Sys2Proof.Machine

open Sys2Proof Sys2Proof.Machine

/-- Settles O48: each rule by its lines, its pairs of rows or its modules. -/
theorem penaltyRules : Obligations.PenaltyRules := by
  intro g n h
  refine ⟨?_, penalty2_eq h, ?_, ?_⟩
  · rw [penalty1, sum_scanLines h, funext runScore_eq]
  · rw [penalty3, sum_scanLines h, funext finderScore_eq]
  · rw [penalty4_eq h, darkCount_eq h]

/-- Settles O49: the bounds for n, at most those for 177. -/
theorem penaltiesFitTheirWords : Obligations.PenaltiesFitTheirWords := by
  intro g n h hn
  have h1 : penalty1 g ≤ 2 * 177 * 175 :=
    (penalty1_le h).trans (Nat.mul_le_mul (Nat.mul_le_mul_left 2 hn) (by omega))
  have h2 : penalty2 g ≤ 3 * 176 ^ 2 :=
    (penalty2_le h).trans (Nat.mul_le_mul_left 3 (Nat.mul_le_mul (n₂ := 176) (by omega) (by omega)))
  have h3 : penalty3 g ≤ 40 * 2 * 177 * 171 :=
    (penalty3_le h).trans (Nat.mul_le_mul (m₂ := 40 * 171) (Nat.mul_le_mul_left 2 hn) (by omega))
  have h4 := penalty4_le h
  exact ⟨h1, h2, h3, h4, by omega⟩
end

section
/-! PROOFS. The candidates of the symbol, the selection among them, and MEVAL (44_mask_format.md R157-R165). MASK_FN is at the
spec's default (log 9). -/

namespace Sys2Proof.Machine

/-! ### Candidates (R157-R161) -/

/-- R159: the candidate module by module. -/
theorem candidate_symbol (s : State) (m : BitVec 3) : candidate m s.symbol =
    (List.range s.side).map fun r => (List.range s.side).map fun c => maskedColour m r c (s.moduleAt r c) := by
  simp only [candidate, State.symbol, List.length_map, List.length_range, List.zipWith_map_right, List.zipWith_self]

theorem square_candidate (s : State) (m : BitVec 3) : Square s.side (candidate m s.symbol) := by
  rw [candidate_symbol]
  refine ⟨by simp, fun row hrow => ?_⟩
  obtain ⟨r, -, rfl⟩ := List.mem_map.1 hrow
  simp

theorem candidate_getD (s : State) (m : BitVec 3) {r c : Nat} (hr : r < s.side) (hc : c < s.side) :
    ((candidate m s.symbol).getD r []).getD c false = maskedColour m r c (s.moduleAt r c) := by
  simp [candidate_symbol, hr, hc]

/-! ### The selection (R164) -/

/-- Of the values of f below n, that at b is the least and the first such. -/
def FirstLeast (f : Nat → Nat) (n b : Nat) : Prop := b < n ∧ (∀ k < n, f b ≤ f k) ∧ ∀ k < b, f b < f k

theorem firstLeast_one (f : Nat → Nat) : FirstLeast f 1 0 :=
  ⟨Nat.one_pos, fun k hk => by rw [Nat.lt_one_iff.1 hk], fun k hk => absurd hk k.not_lt_zero⟩

/-- A smaller value becomes the first least one. -/
theorem FirstLeast.of_lt {f : Nat → Nat} {n b : Nat} (h : FirstLeast f n b) (hn : f n < f b) :
    FirstLeast f (n + 1) n := by
  obtain ⟨-, hle, -⟩ := h
  refine ⟨n.lt_succ_self, fun k hk => ?_, fun k hk => hn.trans_le (hle k hk)⟩
  rcases Nat.lt_succ_iff_lt_or_eq.1 hk with hk | rfl
  · exact hn.le.trans (hle k hk)
  · exact le_rfl

/-- On a tie the earlier index stays. -/
theorem FirstLeast.of_le {f : Nat → Nat} {n b : Nat} (h : FirstLeast f n b) (hn : f b ≤ f n) :
    FirstLeast f (n + 1) b := by
  obtain ⟨hb, hle, hlt⟩ := h
  refine ⟨Nat.lt_succ_of_lt hb, fun k hk => ?_, hlt⟩
  rcases Nat.lt_succ_iff_lt_or_eq.1 hk with hk | rfl
  · exact hle k hk
  · exact hn

/-- The loop keeps the first least index of the values it has seen. -/
theorem firstLeast_selectFrom (f : Nat → Nat) (n : Nat) {i b : Nat} (h : FirstLeast f i b) :
    FirstLeast f (i + n) (selectFrom b (f b) i ((List.range' i n).map f)) := by
  induction n generalizing i b with
  | zero => exact h
  | succ n ih =>
    rw [List.range'_succ, List.map_cons, selectFrom, ← Nat.add_assoc, Nat.add_right_comm]
    split
    · next hlt => exact ih (h.of_lt hlt)
    · next hge => exact ih (h.of_le (Nat.le_of_not_lt hge))

/-- The total of candidate k in PEN. -/
def totalAt (pen : Vector PenRecord 8) (k : Nat) : Nat := (pen.toList.getD k {}).total.toNat

theorem totalAt_fin (pen : Vector PenRecord 8) (k : Fin 8) : totalAt pen k = pen[k].total.toNat := by
  simp [totalAt]

theorem totals_eq (pen : Vector PenRecord 8) :
    pen.toList.map (fun p => p.total.toNat) = (List.range' 0 8).map (totalAt pen) :=
  List.ext_getElem (by simp) fun k h _ => by
    have hk : k < 8 := by simpa using h
    simp [totalAt, hk]

/-- R164: the selected mask as an index. -/
theorem exists_selectMask (pen : Vector PenRecord 8) :
    ∃ b, selectMask pen = BitVec.ofNat 3 b ∧ FirstLeast (totalAt pen) 8 b := by
  refine ⟨_, ?_, firstLeast_selectFrom (totalAt pen) 7 (firstLeast_one _)⟩
  rw [selectMask, totals_eq]
  rfl

/-! ### MEVAL (R162, R163) -/

theorem mevalCheck_eq (s : State) : mevalCheck s =
    if s.config.version.toNat < 1 ∨ 40 < s.config.version.toNat then some (invalidParameter 1) else none := by
  rw [← if_congr (not_versionOk_iff s) rfl rfl, mevalCheck]
  cases s.versionOk <;> rfl

theorem exec_meval_of_some {s : State} {e : CmdError} (h : mevalCheck s = some e) : exec .meval s =
    .next (s.failed 0x10 e.cls.code e.detail e.pos e.chr (s.valid.minus { mask := true })) := by
  rw [exec_eq_perform s (by decide), checkOf, h, perform_some]
  rfl

theorem exec_meval_of_none {s : State} (h : mevalCheck s = none) : exec .meval s =
    .next (({ s with pen := penFile s.symbol, best := selectMask (penFile s.symbol) } : State).succeeded
      { s.valid with mask := true }) := by
  rw [exec_eq_perform s (by decide), checkOf, h, perform_none, effectOf_valid]
  simp [Valid.plus, Valid.minus, setSet, clearSet, Instr.opcode, effectOf, mevalEffect]

theorem penFile_getElem (sym : List (List Module)) (m : Fin 8) :
    (penFile sym)[m] = penRecord (candidate (BitVec.ofNat 3 m.val) sym) := by
  fin_cases m <;> rfl

/-- R166: a record of penalties that fit holds them uncut. -/
theorem penRecord_toNat {g : List (List Bool)} (h : penalty1 g + penalty2 g + penalty3 g + penalty4 g < 2 ^ 32) :
    (penRecord g).p1.toNat = penalty1 g ∧ (penRecord g).p2.toNat = penalty2 g ∧ (penRecord g).p3.toNat = penalty3 g ∧
    (penRecord g).p4.toNat = penalty4 g ∧
    (penRecord g).total.toNat = penalty1 g + penalty2 g + penalty3 g + penalty4 g :=
  ⟨Nat.mod_eq_of_lt (by omega), Nat.mod_eq_of_lt (by omega), Nat.mod_eq_of_lt (by omega), Nat.mod_eq_of_lt (by omega),
    Nat.mod_eq_of_lt h⟩

end Sys2Proof.Machine

open Sys2Proof Sys2Proof.Machine

/-- Settles O45: the candidate module by module, the formula by the mask. -/
theorem candidateColours : Obligations.CandidateColours := by
  rintro s m n rfl
  refine ⟨square_candidate s _, fun i j hi hj => (candidate_getD s _ hi hj).trans ?_⟩
  fin_cases m <;> rfl

/-- Settles O47: the loop over the eight totals. -/
theorem selectionIsTheFirstLeast : Obligations.SelectionIsTheFirstLeast := by
  intro pen
  obtain ⟨b, hsel, hb, hle, hlt⟩ := exists_selectMask pen
  refine ⟨⟨b, hb⟩, hsel, fun k => ?_, fun k hk => ?_⟩
  · simpa only [totalAt_fin pen ⟨b, hb⟩, totalAt_fin] using hle k k.isLt
  · simpa only [totalAt_fin pen ⟨b, hb⟩, totalAt_fin] using hlt k hk

/-- Settles O46: the check by VERSION, and records that hold the penalties uncut. -/
theorem mevalScoresTheCandidates : Obligations.MevalScoresTheCandidates := by
  intro s
  have hc := mevalCheck_eq s
  split_ifs at hc ⊢ with hv
  · exact exec_meval_of_some hc
  · refine ⟨penFile s.symbol, exec_meval_of_none hc, fun m => ?_⟩
    have hside : s.side ≤ 177 := side_le s ((versionOk_iff s).2 (by omega))
    obtain ⟨-, -, -, -, hfit⟩ := penaltiesFitTheirWords _ _ (square_candidate s (BitVec.ofNat 3 m.val)) hside
    rw [penFile_getElem]
    exact penRecord_toNat hfit
end

section
/-! PROOFS. MAPPLY: its checks, the masked symbol, and that masking twice restores it (44_mask_format.md R173-R175). -/

namespace Sys2Proof.Machine

/-! ### The checks (R173, R174) -/

theorem mapplyCheck_eq (s : State) (op : MaskOperand) : mapplyCheck s op =
    if s.config.version.toNat < 1 ∨ 40 < s.config.version.toNat then some (invalidParameter 1)
    else if s.staleBest op = true then some (invalidParameter 5)
    else none :=
  if_congr (not_versionOk_iff s) rfl rfl

theorem mapply_of_some {s : State} {op : MaskOperand} {e : CmdError} (h : mapplyCheck s op = some e) :
    mapply s op = s.failed 0x11 e.cls.code e.detail e.pos e.chr (s.valid.minus { mask := true }) := by
  rw [mapply, h, perform_some]
  rfl

theorem mapplyEffect_valid (s : State) (m : BitVec 3) : (mapplyEffect s m).valid = s.valid := by rw [mapplyEffect_frame]

/-- The state in which MAPPLY has succeeded: R98, it sets no VALID bit. -/
def State.masked (s : State) (m : BitVec 3) : State := (mapplyEffect s m).succeeded (s.valid.minus { mask := true })

theorem mapply_of_none {s : State} {op : MaskOperand} (h : mapplyCheck s op = none) :
    mapply s op = s.masked (s.effectiveMask op) := by
  rw [mapply, h, perform_none, mapplyEffect_valid, State.masked]
  simp [Valid.minus, Valid.plus, clearSet, setSet]

theorem masked_eq (s : State) (m : BitVec 3) : s.masked m =
    ({ s with mem := (s.masked m).mem } : State).succeeded (s.valid.minus { mask := true }) := by
  rw [State.masked, mapplyEffect_frame]
  rfl

@[simp] theorem masked_config (s : State) (m : BitVec 3) : (s.masked m).config = s.config := by rw [masked_eq]; rfl

theorem masked_byteAt (s : State) (m : BitVec 3) (a : Nat) : (s.masked m).byteAt a = (mapplyEffect s m).byteAt a := rfl

/-- Completing MAPPLY twice leaves the registers as completing it once does. -/
theorem masked_masked_eq (s : State) (m : BitVec 3) : (s.masked m).masked m =
    ({ s with mem := ((s.masked m).masked m).mem } : State).succeeded (s.valid.minus { mask := true }) := by
  obtain ⟨mem, hmem⟩ : ∃ mem, s.masked m = ({ s with mem := mem } : State).succeeded (s.valid.minus { mask := true }) :=
    ⟨_, masked_eq s m⟩
  rw [hmem, masked_eq]
  simp [State.succeeded, Valid.minus]

/-- R84, R174: each form of MAPPLY is `mapply` with an operand, and only BEST can be stale. -/
theorem exec_mapply {s : State} {i : Instr} {m : BitVec 3}
    (h : (∃ k, k < 8 ∧ i = .mapplyM k ∧ m = BitVec.ofNat 3 k) ∨ (i = .mapplyBest ∧ m = s.best)) :
    ∃ op, exec i s = .next (mapply s op) ∧ s.effectiveMask op = m ∧
      (s.staleBest op = true ↔ i = .mapplyBest ∧ s.valid.mask = false) := by
  rcases h with ⟨k, -, rfl, rfl⟩ | ⟨rfl, rfl⟩
  · exact ⟨.explicit k, rfl, rfl, by simp [State.staleBest]⟩
  · exact ⟨.best, rfl, rfl, by simp [State.staleBest]⟩

/-- R173: MAPPLY m with a legal VERSION. -/
theorem exec_mapplyM (m : Nat) {s : State} (h : s.versionOk = true) :
    exec (.mapplyM m) s = .next (s.masked (BitVec.ofNat 3 m)) :=
  congrArg _ (mapply_of_none (by simp [mapplyCheck, h, State.staleBest]))

/-! ### The symbol (R157, R173) -/

/-- A byte of the symbol after MAPPLY. -/
theorem mapplyEffect_module {s : State} (m : BitVec 3) (hs : s.side ≤ 177) {r c : Nat} (hr : r < s.side)
    (hc : c < s.side) : (mapplyEffect s m).byteAt (0x8000 + 177 * r + c) = s.maskedModule m r c := by
  have hrow : (0x8000 + 177 * r + c - 0x8000) / 177 = r := by omega
  have hcol : (0x8000 + 177 * r + c - 0x8000) % 177 = c := by omega
  rw [mapplyEffect_byteAt s m hs, hrow, hcol, if_pos ⟨by omega, hr, hc⟩]

/-- A byte outside the symbol after MAPPLY. -/
theorem mapplyEffect_outside {s : State} (m : BitVec 3) (hs : s.side ≤ 177) {a : Nat}
    (h : ∀ r c, r < s.side → c < s.side → a ≠ 0x8000 + 177 * r + c) : (mapplyEffect s m).byteAt a = s.byteAt a := by
  rw [mapplyEffect_byteAt s m hs, if_neg]
  rintro ⟨hlo, hrow, hcol⟩
  exact h _ _ hrow hcol (by omega)

/-! ### Masking twice (R175) -/

theorem ofByte_toByte (md : Module) : Module.ofByte md.toByte = md := by
  rcases md with ⟨_ | _, _ | _⟩ <;> rfl

theorem toByte_ofByte : ∀ b : Byte, (Module.ofByte b).toByte = b &&& 3 := by decide +kernel

/-- The mask flips a module that is not reserved, or none: twice it changes nothing. -/
theorem maskedColour_twice (m : BitVec 3) (r c : Nat) (md : Module) :
    maskedColour m r c ⟨maskedColour m r c md, md.rsv⟩ = md.dark := by
  simp [maskedColour]

theorem moduleAt_mapplyEffect {s : State} (m : BitVec 3) (hs : s.side ≤ 177) {r c : Nat} (hr : r < s.side)
    (hc : c < s.side) :
    (mapplyEffect s m).moduleAt r c = ⟨maskedColour m r c (s.moduleAt r c), (s.moduleAt r c).rsv⟩ := by
  rw [State.moduleAt, moduleAddr_eq, mapplyEffect_module m hs hr hc, State.maskedModule, ofByte_toByte]

theorem mem_of_byte? {m : Memory} {a : Nat} {b : Byte} (h : Memory.byte? m a = some b) : (a, b) ∈ m := by
  induction m with
  | nil => cases h
  | cons c rest ih =>
    obtain ⟨x, y⟩ := c
    rw [Memory.byte?] at h
    split at h
    · next hx =>
      cases h
      exact hx ▸ List.mem_cons_self
    · exact List.mem_cons_of_mem _ (ih h)

/-- R51: a byte of a memory in canonical form holds only the bits its address has. -/
theorem keepBits_byteAt {s : State} (h : Memory.wf s.mem) (a : Nat) : keepBits a (s.byteAt a) = s.byteAt a := by
  obtain ⟨-, hcells⟩ := h
  unfold State.byteAt
  split
  · next b hb =>
    have hok := hcells _ (mem_of_byte? hb)
    rw [cellOk, Bool.and_eq_true, beq_iff_eq] at hok
    exact hok.2
  · exact keepBits_idem ..

/-- MAPPLY on a state with the symbol masked and VERSION as before. -/
theorem mapplyEffect_restores {s t : State} (m : BitVec 3) (hs : s.side ≤ 177) (hwf : Memory.wf s.mem)
    (hconfig : t.config = s.config) (hbyte : ∀ a, t.byteAt a = (mapplyEffect s m).byteAt a) (a : Nat) :
    (mapplyEffect t m).byteAt a = s.byteAt a := by
  have hside : t.side = s.side := by rw [State.side, hconfig, State.side]
  by_cases ha : ∃ r c, r < s.side ∧ c < s.side ∧ a = 0x8000 + 177 * r + c
  · obtain ⟨r, c, hr, hc, rfl⟩ := ha
    have hmodule : t.moduleAt r c = (mapplyEffect s m).moduleAt r c := congrArg Module.ofByte (hbyte _)
    have hkeep := keepBits_byteAt hwf (0x8000 + 177 * r + c)
    rw [keepBits, if_pos ((windowOf_matrix_iff _).2 (by omega))] at hkeep
    rw [mapplyEffect_module m (hside ▸ hs) (hside ▸ hr) (hside ▸ hc), State.maskedModule, hmodule,
      moduleAt_mapplyEffect m hs hr hc, maskedColour_twice]
    exact (toByte_ofByte _).trans hkeep
  · have hout (r c : Nat) (hr : r < s.side) (hc : c < s.side) : a ≠ 0x8000 + 177 * r + c :=
      fun h => ha ⟨r, c, hr, hc, h⟩
    rw [mapplyEffect_outside m (hside ▸ hs) (hside ▸ hout), hbyte, mapplyEffect_outside m hs hout]

end Sys2Proof.Machine

open Sys2Proof Sys2Proof.Machine

/-- Settles O50: the checks by cases, the bytes by module. -/
theorem mapplyMasksTheSymbol : Obligations.MapplyMasksTheSymbol := by
  intro s i m hi
  obtain ⟨op, hx, rfl, hstale⟩ := exec_mapply hi
  have hc := mapplyCheck_eq s op
  dsimp only
  rw [hx, ← if_congr hstale rfl rfl]
  split_ifs at hc ⊢ with hv hb
  · rw [mapply_of_some hc]
    rfl
  · rw [mapply_of_some hc]
    rfl
  · have hs : s.side ≤ 177 := side_le s (versionOk_of_mapplyCheck hc)
    rw [mapply_of_none hc]
    refine ⟨_, rfl, masked_eq s _, fun r c hr hcol => ?_, fun a ha => ?_⟩
    · exact mapplyEffect_module _ hs hr hcol
    · exact mapplyEffect_outside _ hs ha

/-- Settles O51: the second mask flips back what the first one flipped. -/
theorem mapplyTwiceRestores : Obligations.MapplyTwiceRestores := by
  intro s m _ hwf h1 h40
  have hv : s.versionOk = true := (versionOk_iff s).2 ⟨h1, h40⟩
  have hv' : (s.masked (BitVec.ofNat 3 m)).versionOk = true := by rwa [versionOk_iff, masked_config, ← versionOk_iff]
  exact ⟨_, _, exec_mapplyM m hv, exec_mapplyM m hv', masked_masked_eq s _,
    mapplyEffect_restores _ (side_le s hv) hwf (masked_config s _) (masked_byteAt s _)⟩
end

section
/-! PROOFS. Host writes while the engine is busy or FATAL is set, and the W1C write to STATUS (60_exceptions.md R186, R188;
70_reset_and_hazards.md R207). -/

namespace Sys2Proof.Machine

variable {s : State}

/-- R188: a write to STATUS, busy or idle. -/
theorem transact_write_status (s : State) (v : Word) :
    s.transact (.write 8 .four v) = (s.clearStatus v).answerWrite := by
  refine (transact_write_four s .status v).trans ?_
  cases s.busy <;> simp [State.writeRegBusy, State.writeReg, State.setReg, Reg.hostClears]

/-- R203: every register after a soft reset. -/
theorem softReset_readReg (s : State) (r : Reg) : s.softReset.readReg r = State.reset.readReg r := by
  rw [softReset_eq]
  cases r <;> rfl

/-- R207: the registers that take a write while the engine is busy. -/
theorem writeRegBusy_eq_ite (s : State) (r : Reg) (v : Word) : s.writeRegBusy r v =
    if r = .status then s.clearStatus v else if r = .ctrl then (if v.getLsbD 0 then s.softReset else s)
    else s.refuse := by
  cases r <;> rfl

/-- R21-R44: an aligned address of the register window is a register's exactly when it is its offset. -/
theorem regAt_eq_iff {a : Nat} (ha : a < 0x64) (h4 : a % 4 = 0) (r : Reg) : regAt a = r ↔ a = r.offset := by
  constructor
  · rintro rfl
    exact (offset_regAt ha h4).symm
  · rintro rfl
    exact regAt_offset r

/-- R207: outside the registers every write is refused. -/
theorem writeEffect_busy_of_le {a : Nat} (n : Nat) (v : Word) (hb : s.busy = true) (ha : 0x64 ≤ a) :
    s.writeEffect a n v = s.refuse := by
  have hw : windowOf a ≠ .regs := by rw [ne_eq, windowOf_regs_iff]; omega
  unfold State.writeEffect
  cases h : windowOf a with
  | regs => exact absurd h hw
  | _ => exact if_pos hb

/-- R207: what a mapped write does while the engine is busy. -/
theorem writeEffect_busy {a : Nat} {sz : Size} (v : Word) (hb : s.busy = true) (hok : ¬ accessError a sz.bytes) :
    s.writeEffect a sz.bytes v =
      if a = 8 then s.clearStatus v else if a = 4 then (if v.getLsbD 0 then s.softReset else s) else s.refuse := by
  by_cases ha : a < 0x64
  · have hsz : sz.bytes = 4 := not_not.1 fun h => hok (.inr (.inl ⟨.inl (by omega), h⟩))
    have h4 : a % 4 = 0 := hsz ▸ not_not.1 fun h => hok (.inl h)
    have hbusy : s.writeEffect a sz.bytes v = s.writeRegBusy (regAt a) v := by
      unfold State.writeEffect
      rw [(windowOf_regs_iff a).2 ha]
      exact if_pos hb
    rw [hbusy, writeRegBusy_eq_ite]
    exact if_congr (regAt_eq_iff ha h4 .status) rfl (if_congr (regAt_eq_iff ha h4 .ctrl) rfl rfl)
  · rw [writeEffect_busy_of_le _ v hb (by omega), if_neg (by omega), if_neg (by omega)]

end Sys2Proof.Machine

open Sys2Proof Sys2Proof.Machine

/-- Settles O18: a mapped write is W1C at STATUS, a reset or nothing at CTRL, and refused elsewhere. -/
theorem busyWritesAreRefused : Obligations.BusyWritesAreRefused := by
  intro s a sz v
  refine ⟨fun hb => ⟨transact_of_accessError s (x := .write a sz v), fun hok => ?_⟩, ?_⟩
  · rw [transact_write_okay s v hok, writeEffect_busy v hb hok]
    refine ⟨answerWrite_answersOkay _, ?_⟩
    have h8 : a.toNat = 8 ↔ a = 8 := BitVec.toNat_inj (y := 8)
    have h4 : a.toNat = 4 ↔ a = 4 := BitVec.toNat_inj (y := 4)
    simp only [h8, h4]
    split_ifs with _ _ hv
    · rfl
    · exact ⟨rfl, fun r => (answerWrite_readReg _ r).trans (softReset_readReg s r)⟩
    · rfl
    · rfl
  · rintro hb hf rfl rfl
    rw [transact_write_cmd v hb, if_pos hf]
    exact ⟨rfl, answerWrite_answersOkay _⟩

/-- Settles O22: busy or idle, the write is `State.clearStatus`, and 0x1E has the bits 1 to 4. -/
theorem statusWriteOneClears : Obligations.StatusWriteOneClears := by
  intro s v
  rw [transact_write_status, transact_write_status]
  exact ⟨⟨rfl, answerWrite_answersOkay _⟩, Bool.and_false _, Bool.and_false _, Bool.and_false _, Bool.and_false _,
    rfl, rfl⟩
end

section
/-! PROOFS. What a step can do to STATUS and IE, and from it when FATAL and irq change (60_exceptions.md R184, R186, R188,
R190). -/

namespace Sys2Proof.Machine

/-! ### What the host and the engine can do to STATUS and IE -/

/-- What an act of the outside world can do to STATUS and IE, of which `old` and `oldIe` are the values before it. -/
inductive HostSignals (old : Status) (oldIe : IrqEnable) (t : State) : HostAct → Prop
  /-- A read, a refused write, or a write to anything else. -/
  | kept {a : HostAct} (hs : t.status = { old with rej := t.status.rej }) (hie : t.ie = oldIe) :
    HostSignals old oldIe t a
  /-- R202: a reset. -/
  | reset {a : HostAct} (hr : a.resets = true) (hs : t.status = State.reset.status) (hie : t.ie = State.reset.ie) :
    HostSignals old oldIe t a
  /-- R188: a write to STATUS. -/
  | clear (v : Word) (hs : t.status = old.writeOneToClear v) (hie : t.ie = oldIe) :
    HostSignals old oldIe t (.access (.write 8 .four v))
  /-- R24: a write to IE. -/
  | enable (v : Word) (hs : t.status = old) : HostSignals old oldIe t (.access (.write 12 .four v))
  /-- R97: an accepted write to CMD. -/
  | accept (w : Word) (hs : t.status = { old with done := false }) (hie : t.ie = oldIe) :
    HostSignals old oldIe t (.access (.write 16 .four w))

/-- What an engine step can do to STATUS and IE. -/
inductive EngineSignals (s t : State) : Prop
  /-- No command ends: idle, a step of LATENCY, or the next stage of ENCODE. -/
  | kept (hs : t.status = s.status) (hie : t.ie = s.ie)
  /-- R98: a command succeeds. -/
  | success (hb : s.busy = true) (he : t.eng = .idle) (hs : t.status = { s.status with done := true }) (hie : t.ie = s.ie)
  /-- R184, R186: a command fails. -/
  | failure (hb : s.busy = true) (he : t.eng = .idle) (hd : t.status.done = true) (herr : t.status.err = true)
    (hf : t.status.fatal = (s.status.fatal || t.errCode.code == 4)) (hie : t.ie = s.ie)

/-- R24: of the RW registers only IE changes IE. -/
theorem setReg_ie (s : State) {r : Reg} (hr : r ∈ rwRegisters) (hne : r ≠ .ie) (v : Word) :
    (s.setReg r v).ie = s.ie := by
  obtain rfl | hr := List.mem_cons.1 hr
  · exact absurd rfl hne
  · simp only [List.mem_cons, List.not_mem_nil, or_false] at hr
    rcases hr with rfl | rfl | rfl | rfl | rfl | rfl | rfl | rfl | rfl <;> rfl

theorem setReg_status (s : State) {r : Reg} (hr : r ∈ rwRegisters) (v : Word) : (s.setReg r v).status = s.status := by
  rw [setReg_rw hr]

theorem transact_signals (s : State) (x : Access) : HostSignals s.status s.ie (s.transact x) (.access x) := by
  rcases transact_cases s x with ⟨d, r, ht⟩ | ⟨v, rfl, ht⟩ | ⟨ht, -⟩ | ⟨hr, ht⟩ | ⟨w, rfl, -, -, ht⟩ |
    ⟨r, v, -, hr, rfl, ht⟩ | ⟨a, sz, v, -, -, -, -, ht⟩ <;> rw [ht]
  · exact .kept rfl rfl
  · exact .clear v rfl rfl
  · exact .kept rfl rfl
  · exact .reset hr rfl rfl
  · exact .accept w rfl rfl
  · have hs := setReg_status s hr v
    by_cases hie : r = .ie
    · subst hie
      exact .enable v hs
    · exact .kept (by rw [← hs]; rfl) (setReg_ie s hr hie v)
  · exact .kept rfl rfl

theorem act_signals (s : State) (a : HostAct) : HostSignals s.status s.ie (s.act a) a := by
  rcases act_cases s a with ⟨x, rfl, ht⟩ | ⟨-, ib, d, r, ht, -⟩ | ⟨hr, d, p, ht⟩ <;> rw [ht]
  · exact transact_signals s x
  · exact .kept rfl rfl
  · exact .reset hr rfl rfl

variable {s t : State}

theorem effectOf_status (s : State) (i : Instr) : (effectOf s i).status = s.status := by rw [effectOf_frame]

theorem effectOf_ie (s : State) (i : Instr) : (effectOf s i).ie = s.ie := by rw [effectOf_frame]

theorem exec_signals {i : Instr} (hb : s.busy = true) (hx : exec i s = .next t) : EngineSignals s t := by
  rcases exec_cases hx with ⟨e, op, k, l, -, rfl, -⟩ | ⟨-, -, st, -, rfl⟩ | ⟨-, -, rfl⟩
  · exact .failure hb rfl rfl rfl rfl rfl
  · exact .kept (effectOf_status s i) (effectOf_ie s i)
  · exact .success hb rfl (congrArg (fun st : Status => { st with done := true }) (effectOf_status s i))
      (effectOf_ie s i)

theorem performWord_signals {w : Word} (hb : s.busy = true) (hp : performWord w s = .next t) : EngineSignals s t := by
  rcases performWord_cases hp with ⟨i, -, hx⟩ | ⟨e, -, rfl⟩
  · exact exec_signals hb hx
  · rw [performIllegal_eq]
    exact .failure hb rfl rfl rfl rfl rfl

/-- A step changes STATUS and IE as its host act or the engine does. -/
theorem step_signals (h : step s = .next t) :
    (∃ a rest, s.inbox = a :: rest ∧ HostSignals s.status s.ie t a) ∨ EngineSignals s t := by
  rcases step_cases h with ⟨a, rest, hi, -, rfl⟩ | ⟨-, -, rfl⟩ | ⟨w, st, -, -, rfl⟩ | ⟨w, st, he, -, hp⟩
  · exact .inl ⟨a, rest, hi, act_signals { s with inbox := rest, hostTurns := s.hostTurns - 1 } a⟩
  · exact .inr (.kept rfl rfl)
  · exact .inr (.kept rfl rfl)
  · exact .inr (performWord_signals (busy_of_running he) hp)

/-! ### FATAL (R186) -/

/-- R186, R188: no host act but a reset changes FATAL. -/
theorem HostSignals.fatal {a : HostAct} (h : HostSignals s.status s.ie t a) :
    t.status.fatal = s.status.fatal ∨ (a.resets = true ∧ t.status.fatal = false) := by
  cases h with
  | reset hr hs => exact .inr ⟨hr, congrArg Status.fatal hs⟩
  | kept hs | clear _ hs | enable _ hs | accept _ hs => exact .inl (congrArg Status.fatal hs :)

/-- R186: no engine step but a failure changes FATAL. -/
theorem EngineSignals.fatal (h : EngineSignals s t) : t.status.fatal = s.status.fatal ∨
    (t.eng = .idle ∧ t.status.err = true ∧ t.status.fatal = (s.status.fatal || t.errCode.code == 4)) := by
  cases h with
  | kept hs | success _ _ hs => exact .inl (congrArg Status.fatal hs :)
  | failure _ he _ herr hf => exact .inr ⟨he, herr, hf⟩

/-! ### irq (R190) -/

/-- R190: under one IE, irq rises with DONE and ERR. -/
theorem irq_mono (hie : t.ie = s.ie) (hd : s.status.done = true → t.status.done = true)
    (he : s.status.err = true → t.status.err = true) (h : s.irq = true) : t.irq = true := by
  simp only [State.irq, Bool.or_eq_true, Bool.and_eq_true, hie] at h ⊢
  exact h.imp (And.imp_left hd) (And.imp_left he)

theorem HostSignals.irq_falls {a : HostAct} (h : HostSignals s.status s.ie t a) (hs : s.irq = true) (ht : t.irq = false) :
    a.resets = true ∨ ∃ addr v, a = .access (.write addr .four v) ∧
      (addr.toNat = 8 ∨ addr.toNat = 12 ∨ addr.toNat = 16) := by
  cases h with
  | kept hst hie =>
    have hup : t.irq = true := irq_mono hie (by rw [hst]; exact id) (by rw [hst]; exact id) hs
    exact absurd hup (ne_true_of_eq_false ht)
  | reset hr => exact .inl hr
  | clear v => exact .inr ⟨8, v, rfl, .inl rfl⟩
  | enable v => exact .inr ⟨12, v, rfl, .inr (.inl rfl)⟩
  | accept w => exact .inr ⟨16, w, rfl, .inr (.inr rfl)⟩

theorem HostSignals.irq_rises {a : HostAct} (h : HostSignals s.status s.ie t a) (hs : s.irq = false) (ht : t.irq = true) :
    ∃ v, a = .access (.write 12 .four v) := by
  have hlow (hie : t.ie = s.ie) (hd : t.status.done = true → s.status.done = true)
      (he : t.status.err = true → s.status.err = true) : False :=
    absurd (irq_mono hie.symm hd he ht) (ne_true_of_eq_false hs)
  cases h with
  | enable v => exact ⟨v, rfl⟩
  | kept hst hie => exact (hlow hie (by rw [hst]; exact id) (by rw [hst]; exact id)).elim
  | reset _ hst hie =>
    rw [State.irq, hst, hie] at ht
    exact nomatch ht
  | clear v hst hie =>
    exact (hlow hie (by rw [hst]; exact Bool.and_elim_left) (by rw [hst]; exact Bool.and_elim_left)).elim
  | accept w hst hie => exact (hlow hie (by rw [hst]; exact nofun) (by rw [hst]; exact id)).elim

/-- R190: an engine step never lowers irq. -/
theorem EngineSignals.irq_kept (h : EngineSignals s t) (hs : s.irq = true) : t.irq = true := by
  cases h with
  | kept hst hie => exact irq_mono hie (by rw [hst]; exact id) (by rw [hst]; exact id) hs
  | success _ _ hst hie => exact irq_mono hie (by rw [hst]; exact fun _ => rfl) (by rw [hst]; exact id) hs
  | failure _ _ hd herr _ hie => exact irq_mono hie (fun _ => hd) (fun _ => herr) hs

/-- R190: an engine step raises irq only where a command ends. -/
theorem EngineSignals.irq_rises (h : EngineSignals s t) (hs : s.irq = false) (ht : t.irq = true) :
    s.busy = true ∧ t.busy = false := by
  cases h with
  | kept hst hie =>
    rw [State.irq, hst, hie] at ht
    exact absurd ht (ne_true_of_eq_false hs)
  | success hb he | failure hb he => exact ⟨hb, (not_busy_iff t).2 he⟩

end Sys2Proof.Machine

open Sys2Proof Sys2Proof.Machine

/-- Settles O21: a step keeps FATAL, resets the machine, or ends a command with an error, whose class then decides. -/
theorem fatalFallsOnlyAtReset : Obligations.FatalFallsOnlyAtReset := by
  intro s t h
  have hcases : t.status.fatal = s.status.fatal ∨
      (∃ a rest, s.inbox = a :: rest ∧ a.resets = true ∧ t.status.fatal = false) ∨
      (t.eng = .idle ∧ t.status.err = true ∧ t.status.fatal = (s.status.fatal || t.errCode.code == 4)) := by
    rcases step_signals h with ⟨a, rest, hi, ha⟩ | he
    · exact ha.fatal.imp_right fun ⟨hr, hf⟩ => .inl ⟨a, rest, hi, hr, hf⟩
    · exact he.fatal.imp_right .inr
  rcases hcases with hf | ⟨a, rest, hi, hr, hf⟩ | ⟨he, herr, hf⟩ <;> rw [hf]
  · exact ⟨fun hs _ => hs, fun hs ht => absurd ht (ne_true_of_eq_false hs)⟩
  · exact ⟨fun _ hno => (hno a rest hi).symm.trans hr, nofun⟩
  · exact ⟨fun hs _ => by rw [hs]; rfl, fun hs ht => ⟨by simpa [hs] using ht, herr, he⟩⟩

/-- Settles O24: irq falls and rises by what a step does to STATUS and IE. -/
theorem irqIsALevel : Obligations.IrqIsALevel := by
  intro s t h
  refine ⟨rfl, ?_⟩
  rcases step_signals h with ⟨a, rest, hi, ha⟩ | he
  · refine ⟨fun hs ht => ⟨a, rest, hi, ha.irq_falls hs ht⟩, fun hs ht => .inr ?_⟩
    obtain ⟨v, rfl⟩ := ha.irq_rises hs ht
    exact ⟨rest, v, hi⟩
  · exact ⟨fun hs ht => absurd (he.irq_kept hs) (ne_true_of_eq_false ht), fun hs ht => .inl (he.irq_rises hs ht)⟩
end

section
/-! PROOFS. The reset values, the commands that CONFIG's reset value makes fail, and a pulse of rst_n
(70_reset_and_hazards.md R201, R202, R206). -/

namespace Sys2Proof.Machine

/-! ### The reset values (R202) -/

theorem penRecord_default_word (k : Nat) : PenRecord.word {} k = 0 := by
  unfold PenRecord.word
  split <;> rfl

theorem reset_penWord {off : Nat} (h : off < 0x100) : State.reset.penWord off = 0 := by
  have hrecord : State.reset.pen.toList.getD (off / 32) {} = {} := List.getD_replicate (n := 8) _ (by omega)
  rw [State.penWord, hrecord, penRecord_default_word]

/-- R202: VERSION = 0 and MODE = 3 fail the check of every command that reads CONFIG. -/
theorem checkOf_reset {i : Instr} (hn : i ≠ .nop) (hr : i ≠ .rsenc) (hl : i ≠ .ileave) (hg : i ≠ .gfmul) :
    ∃ detail, checkOf State.reset i = some (invalidParameter detail) := by
  cases i with
  | nop => exact absurd rfl hn
  | rsenc => exact absurd rfl hr
  | ileave => exact absurd rfl hl
  | gfmul => exact absurd rfl hg
  | bitenc => exact ⟨2, rfl⟩
  | cfg | encode | meval | mapplyM | mapplyBest | fmtgenM | fmtgenBest => exact ⟨1, rfl⟩

/-- R184: a failed check shows its class in ERR_CODE. -/
theorem exec_errCode_of_some {i : Instr} {s : State} {e : CmdError} (h : checkOf s i = some e) :
    ∃ t, exec i s = .next t ∧ t.errCode.code = e.cls.code := by
  obtain ⟨t, ht⟩ := exec_answers i s
  refine ⟨t, ht, ?_⟩
  rcases exec_cases ht with ⟨e', op, k, l, hc, rfl, -⟩ | ⟨-, hc, -⟩ | ⟨hc, -⟩
  · obtain rfl : e = e' := Option.some.inj (h.symm.trans hc)
    rfl
  · exact nomatch h.symm.trans hc
  · exact nomatch h.symm.trans hc

/-! ### A pulse of rst_n (R201, R206) -/

theorem softReset_powerOns (s : State) : s.softReset.powerOns = s.powerOns := by rw [softReset_eq]

theorem setReg_powerOns {s : State} {r : Reg} {v : Word} (hr : r ∈ rwRegisters) :
    (s.setReg r v).powerOns = s.powerOns := by rw [setReg_rw hr]

/-- U1: no bus transaction, a soft reset included, counts as a power-on. -/
theorem transact_powerOns (s : State) (x : Access) : (s.transact x).powerOns = s.powerOns := by
  rcases transact_cases s x with ⟨d, r, h⟩ | ⟨v, -, h⟩ | ⟨h, -⟩ | ⟨-, h⟩ | ⟨w, -, -, -, h⟩ | ⟨r, v, -, hr, -, h⟩ |
      ⟨a, sz, v, -, -, -, -, h⟩ <;> refine (congrArg State.powerOns h).trans ?_
  · rfl
  · rfl
  · rfl
  · exact softReset_powerOns s
  · rfl
  · exact setReg_powerOns hr
  · rfl

/-- R206: whether or not the access that rst_n cuts short took effect, the pulse ends in a power-on reset, one more than
before. -/
theorem eq_powerOn_of_pulse {s t : State} (h : t = s.act .powerOn ∨ ∃ a, t = s.act (.powerOnDuring a)) :
    ∃ u : State, t = u.powerOn ∧ u.powerOns = s.powerOns := by
  rcases h with rfl | ⟨a, rfl⟩
  · exact ⟨s, rfl, rfl⟩
  · unfold State.act
    dsimp only
    split
    · exact ⟨_, rfl, transact_powerOns _ a⟩
    · exact ⟨_, rfl, rfl⟩

theorem powerOn_readReg (s : State) (r : Reg) : s.powerOn.readReg r = State.reset.readReg r := by
  rw [powerOn_eq]
  cases r <;> rfl

/-- R201: no byte is listed, so each reads as the free value of the new power-on. -/
theorem powerOn_byteAt (s : State) (a : Nat) :
    s.powerOn.byteAt a = keepBits a (Config.powerOnByte (s.powerOns + 1) a) := rfl

end Sys2Proof.Machine

open Sys2Proof Sys2Proof.Machine

/-- Settles O1: the registers one by one, PEN at every offset, and the checks on the illegal CONFIG. -/
theorem resetRegisterValues : Obligations.ResetRegisterValues := by
  refine ⟨fun r => by cases r <;> rfl, fun _ => reset_penWord, fun i hn hr hl hg => ?_⟩
  obtain ⟨detail, h⟩ := checkOf_reset hn hr hl hg
  exact exec_errCode_of_some h

/-- Settles O3: either form of the pulse is a power-on reset of a state with the power-on count of `s`. -/
theorem powerOnResetLeaves : Obligations.PowerOnResetLeaves := by
  intro s t h
  obtain ⟨u, rfl, hu⟩ := eq_powerOn_of_pulse h
  rw [← hu]
  exact ⟨powerOn_readReg u, rfl, rfl, rfl, rfl, rfl, fun a _ => powerOn_byteAt u a⟩
end
